-- ==== Sys2Proof/Word.lean ====
section
/-! DEFINITION. The machine's plain words: command words, bytes and 4-bit register indices
(`spec/00_scope.md` R14, R16; `spec/30_encoding.md` R100, R103, R104). -/

namespace Sys2Proof

/-- A command word, 32 bits (R100). -/
abbrev Word := BitVec 32

/-- A byte of BUF, and an 8-bit BUF offset (R46, R104). -/
abbrev Byte := BitVec 8

/-- A 4-bit register index; all sixteen are valid (R103). -/
abbrev RegIdx := BitVec 4

end Sys2Proof
end

