-- ==== Sys2Proof/Config.lean ====
section
/-! DEFINITION. What the implementation fixes: the buffer size, the suggested magnitude budget that
`State.reset` takes, and the values the spec leaves open, which are constants without a body
(`spec/92_eei_decisions.md` D5, D19; `spec/93_implementation_defined.md` sections 2 and 3). -/

namespace Sys2Proof.Config

/-- BUF_SIZE (R14, R46). -/
def bufSize : Nat := 256

/-- The suggested MAG_LIMIT (R36). The parameter is open: the machine carries it as
`State.magLimit`, and this is only its value in `State.reset`. DESIGN CHOICE, log entry 3. -/
def suggestedMagLimit : Nat := 32

/-- The suggested MAG_MUL (R36), as for `suggestedMagLimit`. DESIGN CHOICE, log entry 3. -/
def suggestedMagMul : Nat := 8

/-- The open part of SQRT_CANDIDATE on squares (R171): for each square, whether the implementation
returns the other root than `v ^ ((p + 1) / 4)`. A free value, log entry 4. -/
opaque sqrtOtherRoot : Nat → Bool

/-- The open part of SQRT_CANDIDATE on non-squares (R171): any field value, since no field value
squares to a non-square. A free value, log entry 4. -/
opaque sqrtOfNonSquare : Nat → Nat

/-- The bits a status read shows for OK (bit 0) and ERR (bits 4:1) while a command is in flight, to
which the spec gives no meaning (R43): a fresh free value for each count. Log entry 11. -/
opaque freeStatusBits : Nat → BitVec 5

end Sys2Proof.Config
end

