-- ==== Sys2Proof/Syntax.lean ====
section
/-! DEFINITION. The commands: one constructor for each row of `spec/opcode_table.json`
(`spec/30_encoding.md` R111). Operands stand in the order a, b, c of the command word (R115). -/

namespace Sys2Proof

/-- The condition mode `cm` of FNEGC and QNEGC (R108). -/
inductive CondMode where
  | nv   -- never negate
  | al   -- always negate
  | ift  -- negate if T = 1
  | ifnt -- negate if T = 0
  deriving DecidableEq, Repr

/-- The 46 commands (R111). A register operand's file is the one R103 gives for that operand. -/
inductive Instr where
  -- Field family
  | floads (rd : RegIdx) (off : Byte)
  | floadr (rd : RegIdx) (off : Byte)
  | fstore (rs : RegIdx) (off : Byte)
  | fadd (rd rs1 rs2 : RegIdx)
  | fsub (rd rs1 rs2 : RegIdx)
  | fmul (rd rs1 rs2 : RegIdx)
  | fsqr (rd rs : RegIdx)
  | fnegc (rd rs : RegIdx) (cm : CondMode)
  | fmuls (rd rs : RegIdx) (imm : Byte)
  | fnorm (rd rs : RegIdx)
  | fnormw (rd rs : RegIdx)
  | fiszero (rs : RegIdx)
  | feq (rs1 rs2 : RegIdx)
  | feqv (rs1 rs2 : RegIdx)
  | fsqrt (rd rs : RegIdx)
  -- Scalar family
  | qloadc (rd : RegIdx) (off : Byte)
  | qloadv (rd : RegIdx) (off : Byte)
  | qloadr (rd : RegIdx) (off : Byte)
  | qstore (rs : RegIdx) (off : Byte)
  | qadd (rd rs1 rs2 : RegIdx)
  | qmul (rd rs1 rs2 : RegIdx)
  | qnegc (rd rs : RegIdx) (cm : CondMode)
  | qinv (rd rs : RegIdx)
  | qiszero (rs : RegIdx)
  | qislehalf (rs : RegIdx)
  -- Point family
  | pdbl (rd rs : RegIdx)
  | padd (rd rs1 rs2 : RegIdx)
  | pneg (rd rs : RegIdx)
  | peq (rs1 rs2 : RegIdx)
  | pisinf (rs : RegIdx)
  | pdecomp (rd rs : RegIdx) (odd : Bool)
  | pload (rd : RegIdx) (off : Byte)
  | paff (rdx rdy rs : RegIdx)
  -- PointMul family
  | pmul (rd rs1 rs2 : RegIdx)
  | pmulg (rd rs : RegIdx)
  | pmul2v (rd qs1 ps1 qs2 ps2 : RegIdx)
  | pmulg2v (rd qs1 qs2 ps2 : RegIdx)
  -- Ecdsa family
  | sign (offA offB offC : Byte)
  | signls (offA offB offC : Byte)
  | verify (offA offB offC : Byte)
  | verifyls (offA offB offC : Byte)
  | signorm (offIn offOut : Byte)
  | pku2r (offIn offOut : Byte)
  | pkr2u (offIn offOut : Byte)
  | pkc2r (offIn offOut : Byte)
  | pkr2c (offIn offOut : Byte)
  deriving DecidableEq, Repr

end Sys2Proof
end

