-- ==== Sys2Proof/WellFormed.lean ====
section
/-! DEFINITION. Which commands are legal beyond their bit pattern: steps (3) and (4) of decoding
(`spec/30_encoding.md` R109) over the access widths of `spec/20_memory.md` R78. -/

namespace Sys2Proof

/-- Why a command whose bits match its row is still illegal (R109). -/
inductive Defect where
  | equalDestinations -- PAFF with rdx = rdy (R109 step 3, R231)
  | bufRange          -- a BUF region that runs past offset 255 (R109 step 4, R74)
  deriving DecidableEq, Repr

/-- The range check of R74: an access of `n` bytes at `off` stays inside BUF; no wrap-around. -/
def fits (off : Byte) (n : Nat) : Bool := decide (off.toNat + n ≤ Config.bufSize)

/-- A range check as a decoding step. -/
def rangeDefect (ok : Bool) : Option Defect := if ok then none else some .bufRange

/-- The first check of R109 (3) and (4) that a command fails, if any. -/
def Instr.defect : Instr → Option Defect
  | .floads _ off => rangeDefect (fits off 32)
  | .floadr _ off => rangeDefect (fits off 32)
  | .fstore _ off => rangeDefect (fits off 32)
  | .fadd _ _ _ => none
  | .fsub _ _ _ => none
  | .fmul _ _ _ => none
  | .fsqr _ _ => none
  | .fnegc _ _ _ => none
  | .fmuls _ _ _ => none
  | .fnorm _ _ => none
  | .fnormw _ _ => none
  | .fiszero _ => none
  | .feq _ _ => none
  | .feqv _ _ => none
  | .fsqrt _ _ => none
  | .qloadc _ off => rangeDefect (fits off 32)
  | .qloadv _ off => rangeDefect (fits off 32)
  | .qloadr _ off => rangeDefect (fits off 32)
  | .qstore _ off => rangeDefect (fits off 32)
  | .qadd _ _ _ => none
  | .qmul _ _ _ => none
  | .qnegc _ _ _ => none
  | .qinv _ _ => none
  | .qiszero _ => none
  | .qislehalf _ => none
  | .pdbl _ _ => none
  | .padd _ _ _ => none
  | .pneg _ _ => none
  | .peq _ _ => none
  | .pisinf _ => none
  | .pdecomp _ _ _ => none
  | .pload _ off => rangeDefect (fits off 64)
  | .paff rdx rdy _ => if rdx = rdy then some .equalDestinations else none
  | .pmul _ _ _ => none
  | .pmulg _ _ => none
  | .pmul2v _ _ _ _ _ => none
  | .pmulg2v _ _ _ _ => none
  | .sign a b c => rangeDefect (fits a 32 && fits b 64 && fits c 64)
  | .signls a b c => rangeDefect (fits a 32 && fits b 64 && fits c 64)
  | .verify a b c => rangeDefect (fits a 32 && fits b 64 && fits c 64)
  | .verifyls a b c => rangeDefect (fits a 32 && fits b 64 && fits c 64)
  | .signorm a b => rangeDefect (fits a 64 && fits b 64)
  | .pku2r a b => rangeDefect (fits a 65 && fits b 64)
  | .pkr2u a b => rangeDefect (fits a 64 && fits b 65)
  | .pkc2r a b => rangeDefect (fits a 33 && fits b 64)
  | .pkr2c a b => rangeDefect (fits a 64 && fits b 33)

/-- A command is well formed when no check of R109 refuses it. -/
abbrev Instr.WellFormed (i : Instr) : Prop := i.defect = none

end Sys2Proof
end

