-- ==== Sys2Proof/Decode.lean ====
section
/-! DEFINITION. The command word: its fields, the opcode map, the decoder and the encoder
(`spec/30_encoding.md` R100 to R111). -/

namespace Sys2Proof

/-! ### Fields (R101, R107) -/

/-- Bits 31:24, the opcode. -/
def opField (w : Word) : Byte := w.extractLsb' 24 8
/-- Bits 23:16. -/
def aField (w : Word) : Byte := w.extractLsb' 16 8
/-- Bits 15:8. -/
def bField (w : Word) : Byte := w.extractLsb' 8 8
/-- Bits 7:0. -/
def cField (w : Word) : Byte := w.extractLsb' 0 8
/-- Bits 3:0 of a field: a register index. -/
def lowNib (b : Byte) : RegIdx := b.extractLsb' 0 4
/-- Bits 7:4 of a field: the scalar register of a pair in formats D and DG. -/
def highNib (b : Byte) : RegIdx := b.extractLsb' 4 4
/-- Bits 1:0 of field c: the condition mode (R108). -/
def condModeOf (c : Byte) : CondMode :=
  match (c.extractLsb' 0 2).toNat with
  | 0 => .nv
  | 1 => .al
  | 2 => .ift
  | _ => .ifnt
/-- Bit 0 of field c: the parity PDECOMP asks for (R106). -/
def oddOf (c : Byte) : Bool := c.getLsbD 0

/-! ### Formats and the opcode map (R102, R111) -/

/-- The twelve formats of R102. -/
inductive Format where
  | r3 | r2 | rc | ri | rs | t2 | t1 | m | d | dg | b3 | b2
  deriving DecidableEq, Repr

/-- The opcode bits and the must-be-zero bits of a format (R102, column mask). -/
def Format.mask : Format → Word
  | .r3 => 0xFFF0F0F0#32
  | .r2 => 0xFFF0F0FF#32
  | .rc => 0xFFF0F0FC#32
  | .ri => 0xFFF0F000#32
  | .rs => 0xFFF0F0FE#32
  | .t2 => 0xFFFFF0F0#32
  | .t1 => 0xFFFFF0FF#32
  | .m  => 0xFFF000FF#32
  | .d  => 0xFFF00000#32
  | .dg => 0xFFF00F00#32
  | .b3 => 0xFF000000#32
  | .b2 => 0xFF0000FF#32

/-- One row of the opcode map: the opcode, the format, and the command its operand fields give. -/
structure Row where
  op : Byte
  format : Format
  build : Word → Instr

/-- The word of a row with every operand field zero (R111, column match). -/
def Row.pattern (r : Row) : Word := r.op ++ 0#24

/-- Register operands of field a, b and c. -/
def regA (w : Word) : RegIdx := lowNib (aField w)
def regB (w : Word) : RegIdx := lowNib (bField w)
def regC (w : Word) : RegIdx := lowNib (cField w)

/-- The Field rows of R111. -/
def fieldRows : List Row :=
  [ ⟨0x10#8, .m,  fun w => .floads (regA w) (bField w)⟩,
    ⟨0x11#8, .m,  fun w => .floadr (regA w) (bField w)⟩,
    ⟨0x12#8, .m,  fun w => .fstore (regA w) (bField w)⟩,
    ⟨0x13#8, .r3, fun w => .fadd (regA w) (regB w) (regC w)⟩,
    ⟨0x14#8, .r3, fun w => .fsub (regA w) (regB w) (regC w)⟩,
    ⟨0x15#8, .r3, fun w => .fmul (regA w) (regB w) (regC w)⟩,
    ⟨0x16#8, .r2, fun w => .fsqr (regA w) (regB w)⟩,
    ⟨0x17#8, .rc, fun w => .fnegc (regA w) (regB w) (condModeOf (cField w))⟩,
    ⟨0x18#8, .ri, fun w => .fmuls (regA w) (regB w) (cField w)⟩,
    ⟨0x19#8, .r2, fun w => .fnorm (regA w) (regB w)⟩,
    ⟨0x1A#8, .r2, fun w => .fnormw (regA w) (regB w)⟩,
    ⟨0x1B#8, .t1, fun w => .fiszero (regB w)⟩,
    ⟨0x1C#8, .t2, fun w => .feq (regB w) (regC w)⟩,
    ⟨0x1D#8, .t2, fun w => .feqv (regB w) (regC w)⟩,
    ⟨0x1E#8, .r2, fun w => .fsqrt (regA w) (regB w)⟩ ]

/-- The Scalar rows of R111. -/
def scalarRows : List Row :=
  [ ⟨0x20#8, .m,  fun w => .qloadc (regA w) (bField w)⟩,
    ⟨0x21#8, .m,  fun w => .qloadv (regA w) (bField w)⟩,
    ⟨0x22#8, .m,  fun w => .qloadr (regA w) (bField w)⟩,
    ⟨0x23#8, .m,  fun w => .qstore (regA w) (bField w)⟩,
    ⟨0x24#8, .r3, fun w => .qadd (regA w) (regB w) (regC w)⟩,
    ⟨0x25#8, .r3, fun w => .qmul (regA w) (regB w) (regC w)⟩,
    ⟨0x26#8, .rc, fun w => .qnegc (regA w) (regB w) (condModeOf (cField w))⟩,
    ⟨0x27#8, .r2, fun w => .qinv (regA w) (regB w)⟩,
    ⟨0x28#8, .t1, fun w => .qiszero (regB w)⟩,
    ⟨0x29#8, .t1, fun w => .qislehalf (regB w)⟩ ]

/-- The Point rows of R111. -/
def pointRows : List Row :=
  [ ⟨0x30#8, .r2, fun w => .pdbl (regA w) (regB w)⟩,
    ⟨0x31#8, .r3, fun w => .padd (regA w) (regB w) (regC w)⟩,
    ⟨0x32#8, .r2, fun w => .pneg (regA w) (regB w)⟩,
    ⟨0x33#8, .t2, fun w => .peq (regB w) (regC w)⟩,
    ⟨0x34#8, .t1, fun w => .pisinf (regB w)⟩,
    ⟨0x35#8, .rs, fun w => .pdecomp (regA w) (regB w) (oddOf (cField w))⟩,
    ⟨0x36#8, .m,  fun w => .pload (regA w) (bField w)⟩,
    ⟨0x37#8, .r3, fun w => .paff (regA w) (regB w) (regC w)⟩ ]

/-- The PointMul rows of R111. -/
def pointMulRows : List Row :=
  [ ⟨0x40#8, .r3, fun w => .pmul (regA w) (regB w) (regC w)⟩,
    ⟨0x41#8, .r2, fun w => .pmulg (regA w) (regB w)⟩,
    ⟨0x42#8, .d,  fun w =>
      .pmul2v (regA w) (highNib (bField w)) (regB w) (highNib (cField w)) (regC w)⟩,
    ⟨0x43#8, .dg, fun w => .pmulg2v (regA w) (highNib (bField w)) (highNib (cField w)) (regC w)⟩ ]

/-- The Ecdsa rows of R111. -/
def ecdsaRows : List Row :=
  [ ⟨0x50#8, .b3, fun w => .sign (aField w) (bField w) (cField w)⟩,
    ⟨0x51#8, .b3, fun w => .signls (aField w) (bField w) (cField w)⟩,
    ⟨0x52#8, .b3, fun w => .verify (aField w) (bField w) (cField w)⟩,
    ⟨0x53#8, .b3, fun w => .verifyls (aField w) (bField w) (cField w)⟩,
    ⟨0x54#8, .b2, fun w => .signorm (aField w) (bField w)⟩,
    ⟨0x55#8, .b2, fun w => .pku2r (aField w) (bField w)⟩,
    ⟨0x56#8, .b2, fun w => .pkr2u (aField w) (bField w)⟩,
    ⟨0x57#8, .b2, fun w => .pkc2r (aField w) (bField w)⟩,
    ⟨0x58#8, .b2, fun w => .pkr2c (aField w) (bField w)⟩ ]

/-- The opcode map of R111. -/
def rows : List Row := fieldRows ++ scalarRows ++ pointRows ++ pointMulRows ++ ecdsaRows

/-! ### The decoder (R109, R110) -/

/-- Why a word is illegal, in the order of R109. -/
inductive DecodeError where
  | reservedOpcode         -- step 1: no row has this opcode
  | mustBeZero             -- step 2: a must-be-zero bit is set
  | illFormed (d : Defect) -- steps 3 and 4
  deriving DecidableEq, Repr

/-- Decoding, total on all words, in the order of R109. -/
def decode (w : Word) : Except DecodeError Instr :=
  match rows.find? (fun r => r.op == opField w) with
  | none => .error .reservedOpcode
  | some r =>
    if w &&& r.format.mask = r.pattern then
      match (r.build w).defect with
      | none => .ok (r.build w)
      | some d => .error (.illFormed d)
    else .error .mustBeZero

/-- The host's question about a table row: the instruction read from the 32-bit word whose bits
are `w` (bits from `nbits` on are zero). -/
def decodeTableWord (nbits w : Nat) : Option Instr :=
  match decode (BitVec.ofNat 32 (w % 2 ^ nbits)) with
  | .ok i => some i
  | .error _ => none

/-! ### The encoder (R101, R102, R111) -/

/-- A command word from its four fields. -/
def mkWord (op a b c : Byte) : Word := op ++ a ++ b ++ c
/-- A field with a register index in its low nibble and zero above. -/
def regField (r : RegIdx) : Byte := 0#4 ++ r
/-- A field that packs two register indices (R107). -/
def pairField (hi lo : RegIdx) : Byte := hi ++ lo
/-- Field c of format RC (R108). -/
def condField : CondMode → Byte
  | .nv => 0#8
  | .al => 1#8
  | .ift => 2#8
  | .ifnt => 3#8
/-- Field c of format RS (R106). -/
def oddField (odd : Bool) : Byte := if odd then 1#8 else 0#8

/-- The word of a command. -/
def encode : Instr → Word
  | .floads rd off => mkWord 0x10#8 (regField rd) off 0#8
  | .floadr rd off => mkWord 0x11#8 (regField rd) off 0#8
  | .fstore rs off => mkWord 0x12#8 (regField rs) off 0#8
  | .fadd rd rs1 rs2 => mkWord 0x13#8 (regField rd) (regField rs1) (regField rs2)
  | .fsub rd rs1 rs2 => mkWord 0x14#8 (regField rd) (regField rs1) (regField rs2)
  | .fmul rd rs1 rs2 => mkWord 0x15#8 (regField rd) (regField rs1) (regField rs2)
  | .fsqr rd rs => mkWord 0x16#8 (regField rd) (regField rs) 0#8
  | .fnegc rd rs cm => mkWord 0x17#8 (regField rd) (regField rs) (condField cm)
  | .fmuls rd rs imm => mkWord 0x18#8 (regField rd) (regField rs) imm
  | .fnorm rd rs => mkWord 0x19#8 (regField rd) (regField rs) 0#8
  | .fnormw rd rs => mkWord 0x1A#8 (regField rd) (regField rs) 0#8
  | .fiszero rs => mkWord 0x1B#8 0#8 (regField rs) 0#8
  | .feq rs1 rs2 => mkWord 0x1C#8 0#8 (regField rs1) (regField rs2)
  | .feqv rs1 rs2 => mkWord 0x1D#8 0#8 (regField rs1) (regField rs2)
  | .fsqrt rd rs => mkWord 0x1E#8 (regField rd) (regField rs) 0#8
  | .qloadc rd off => mkWord 0x20#8 (regField rd) off 0#8
  | .qloadv rd off => mkWord 0x21#8 (regField rd) off 0#8
  | .qloadr rd off => mkWord 0x22#8 (regField rd) off 0#8
  | .qstore rs off => mkWord 0x23#8 (regField rs) off 0#8
  | .qadd rd rs1 rs2 => mkWord 0x24#8 (regField rd) (regField rs1) (regField rs2)
  | .qmul rd rs1 rs2 => mkWord 0x25#8 (regField rd) (regField rs1) (regField rs2)
  | .qnegc rd rs cm => mkWord 0x26#8 (regField rd) (regField rs) (condField cm)
  | .qinv rd rs => mkWord 0x27#8 (regField rd) (regField rs) 0#8
  | .qiszero rs => mkWord 0x28#8 0#8 (regField rs) 0#8
  | .qislehalf rs => mkWord 0x29#8 0#8 (regField rs) 0#8
  | .pdbl rd rs => mkWord 0x30#8 (regField rd) (regField rs) 0#8
  | .padd rd rs1 rs2 => mkWord 0x31#8 (regField rd) (regField rs1) (regField rs2)
  | .pneg rd rs => mkWord 0x32#8 (regField rd) (regField rs) 0#8
  | .peq rs1 rs2 => mkWord 0x33#8 0#8 (regField rs1) (regField rs2)
  | .pisinf rs => mkWord 0x34#8 0#8 (regField rs) 0#8
  | .pdecomp rd rs odd => mkWord 0x35#8 (regField rd) (regField rs) (oddField odd)
  | .pload rd off => mkWord 0x36#8 (regField rd) off 0#8
  | .paff rdx rdy rs => mkWord 0x37#8 (regField rdx) (regField rdy) (regField rs)
  | .pmul rd rs1 rs2 => mkWord 0x40#8 (regField rd) (regField rs1) (regField rs2)
  | .pmulg rd rs => mkWord 0x41#8 (regField rd) (regField rs) 0#8
  | .pmul2v rd qs1 ps1 qs2 ps2 =>
    mkWord 0x42#8 (regField rd) (pairField qs1 ps1) (pairField qs2 ps2)
  | .pmulg2v rd qs1 qs2 ps2 => mkWord 0x43#8 (regField rd) (pairField qs1 0#4) (pairField qs2 ps2)
  | .sign a b c => mkWord 0x50#8 a b c
  | .signls a b c => mkWord 0x51#8 a b c
  | .verify a b c => mkWord 0x52#8 a b c
  | .verifyls a b c => mkWord 0x53#8 a b c
  | .signorm a b => mkWord 0x54#8 a b 0#8
  | .pku2r a b => mkWord 0x55#8 a b 0#8
  | .pkr2u a b => mkWord 0x56#8 a b 0#8
  | .pkc2r a b => mkWord 0x57#8 a b 0#8
  | .pkr2c a b => mkWord 0x58#8 a b 0#8

end Sys2Proof
end

