-- ==== Sys2Proof/Machine/State.lean ====
section
/-! DEFINITION. The state of the core and of the host that drives it, as plain data
(`spec/10_state.md` R30 to R53), its reset value (R52), and the reasons a step can stop. -/

namespace Sys2Proof.Machine

/-- The content of a register or of a BUF cell: the spec's own ⊥ ("no value", R33) or a value. -/
inductive Content (α : Type) where
  | bot
  | val (a : α)
  deriving DecidableEq, Repr

/-- The normalisation tag of a field register (R35). -/
inductive Norm where
  | reduced
  | loose
  deriving DecidableEq, Repr

/-- The value of a field register: residue, magnitude tag, normalisation tag (R31). -/
structure FieldReg where
  val : Nat
  mag : Nat
  norm : Norm
  deriving DecidableEq, Repr

/-- A group element: the point at infinity O, or an affine point (R39, R211). -/
inductive Point where
  | inf
  | aff (x y : Nat)
  deriving DecidableEq, Repr

/-- The failure codes of STATUS.ERR (R44); codes 8 to 15 are never produced. -/
inductive ErrCode where
  | none                -- 0
  | invalidScalar       -- 1
  | invalidPoint        -- 2
  | degenerateSignature -- 3
  | malformedEncoding   -- 4
  | verifyMismatch      -- 5
  | notLowS             -- 6
  | illegalCommand      -- 7
  deriving DecidableEq, Repr

/-- Why a step stops: the spec's five faults (R317, `spec/93_implementation_defined.md` U1 to U5),
and one of the model's own for a host access outside BUF. All are SAFE: the hardware goes on with
values the spec does not define, the model stops. -/
inductive Fault where
  /-- A command or a host read takes a register or BUF cell that holds ⊥ (U1, R33, R75, R340, R349).
  Raised by every command with a register or BUF source, and by `HostTxn.readBuf`. SAFE. -/
  | readNoValue
  /-- FSTORE, FISZERO, FEQ, FEQV or PDECOMP on a LOOSE field register (U2, R346). SAFE. -/
  | notNormalized
  /-- A field magnitude would exceed MAG_LIMIT, or a multiplicative input exceeds MAG_MUL (U3,
  R347). Raised by FADD, FSUB, FMUL, FSQR, FNEGC, FMULS, FSQRT. SAFE. -/
  | fieldOverflow
  /-- QINV on 0 (U4, R348). SAFE. -/
  | invertZero
  /-- A host transaction other than a status read, a poll or a reset while BUSY = 1 (U5, R89).
  Raised by the host transactions of `Machine/Run.lean`. SAFE. -/
  | hostProtocol
  /-- A host access to BUF that runs past offset 255, which R87 does not allow: the address does
  not exist (R70). Raised by `HostTxn.writeBuf` and `HostTxn.readBuf`. SAFE. Log entry 12. -/
  | hostRange
  deriving DecidableEq, Repr

/-- Why a step is refused. Every command has a meaning, so no step is refused. -/
inductive Refusal where
  /-- The instruction of this mnemonic has no meaning yet. Raised by `exec`'s arms only. SAFE. -/
  | notModelled (mnemonic : String)
  deriving DecidableEq, Repr

/-- One transaction of the host (R87), with the wait for DONE (R88) and the reset (R340). -/
inductive HostTxn where
  | writeBuf (a : Nat) (bytes : List Byte)
  | readBuf (a n : Nat)
  /-- Writes the next word of the program to CMD and does not wait: BUSY rises (R100). -/
  | issue
  | readStatus
  /-- Polls STATUS until DONE = 1: a command in flight completes. -/
  | poll
  | reset
  deriving DecidableEq, Repr

/-- What a host transaction returns to the host (R87). -/
inductive HostReply where
  | bytes (bs : List Byte)
  | status (w : Word)
  deriving DecidableEq, Repr

/-- The state. The spec's architectural state is `fReg` to `mem` (R30); `pc`, `program` and
`faultMark` are the model's (R50, R51); `host` and `replies` are the host agent's (R30, R87);
`magLimit` and `magMul` carry the open parameters MAG_LIMIT and MAG_MUL (R36); `freeCount` counts
the free values drawn. GTABLE is a constant (R47): `gTable` of `Machine/Curve.lean`. -/
structure State where
  /-- F0..F15 (R31). -/
  fReg : Vector (Content FieldReg) 16
  /-- Q0..Q15 (R37). -/
  qReg : Vector (Content Nat) 16
  /-- P0..P15 (R39). -/
  pReg : Vector (Content Point) 16
  /-- The predicate flag T, bit 3 of STATUS (R42). -/
  t : Bool
  /-- The command word captured from CMD and not yet completed (R86, R100); STATUS.BUSY is 1
  exactly while there is one (R43). -/
  inFlight : Option Word
  /-- STATUS.DONE (R43). -/
  done : Bool
  /-- STATUS.OK (R43). -/
  ok : Bool
  /-- STATUS.ERR (R43, R44). -/
  err : ErrCode
  /-- BUF (R46): the cells that hold a byte, by rising offset; an unlisted cell holds ⊥. -/
  mem : List Host.Cell
  /-- The words the host issues, in order (R50). -/
  program : List Word
  /-- The index of the next word to issue (R50). -/
  pc : Nat
  /-- The fault mark (R51), with the fault that set it. -/
  faultMark : Option Fault
  /-- The host transactions still to be made before the host issues the program's next word. -/
  host : List HostTxn
  /-- What the host has been returned, newest first. -/
  replies : List HostReply
  /-- How many free values have been drawn (log entry 11). -/
  freeCount : Nat
  /-- MAG_LIMIT (R36). -/
  magLimit : Nat
  /-- MAG_MUL (R36). -/
  magMul : Nat
  deriving DecidableEq, Repr

/-- The outcome of a command or of a step. -/
abbrev Result := Host.Outcome State Fault Refusal

/-- The reset state (R52, R340): every register and BUF cell ⊥, T = 0, STATUS = 0, pc = 0, no fault
mark. No host has loaded a program; the magnitude budget is the suggested one (log entry 3). -/
def State.reset : State where
  fReg := Vector.replicate 16 .bot
  qReg := Vector.replicate 16 .bot
  pReg := Vector.replicate 16 .bot
  t := false
  inFlight := none
  done := false
  ok := false
  err := .none
  mem := []
  program := []
  pc := 0
  faultMark := none
  host := []
  replies := []
  freeCount := 0
  magLimit := Config.suggestedMagLimit
  magMul := Config.suggestedMagMul

end Sys2Proof.Machine
end

