-- ==== Sys2Proof/Machine/Arith.lean ====
section
/-! DEFINITION. Integers, bytes and modular arithmetic (`spec/00_scope.md` R8, R9, R12, R15, R17;
`spec/40_field.md` R144, R167, R169, R171; `spec/41_scalar.md` R185). -/

namespace Sys2Proof.Machine

/-! ### The constants (R8, R9, R12) -/

/-- The field prime p = 2^256 - 2^32 - 977 (R8). -/
def primeP : Nat := 0xFFFFFFFFFFFFFFFFFFFFFFFFFFFFFFFFFFFFFFFFFFFFFFFFFFFFFFFEFFFFFC2F

/-- The group order q (R9). -/
def orderQ : Nat := 0xFFFFFFFFFFFFFFFFFFFFFFFFFFFFFFFEBAAEDCE6AF48A03BBFD25E8CD0364141

/-- HALF = (q - 1) / 2 (R12). -/
def halfQ : Nat := 0x7FFFFFFFFFFFFFFFFFFFFFFFFFFFFFFF5D576E7357A4501DDFE92F46681B20A0

/-! ### Bytes (R17, R72) -/

/-- The big-endian value of a byte string (R17). -/
def be2int (bs : List Byte) : Nat := bs.foldl (fun v b => v * 256 + b.toNat) 0

/-- The n-byte big-endian string of a value below 256^n (R17). -/
def int2be (v : Nat) : Nat → List Byte
  | 0 => []
  | n + 1 => BitVec.ofNat 8 (v / 256 ^ n) :: int2be v n

/-- int2be32 (R17). -/
def int2be32 (v : Nat) : List Byte := int2be v 32

/-! ### Residues (R15) -/

/-- The least non-negative residue of `a - b` modulo `m`. -/
def subMod (m a b : Nat) : Nat := (a + (m - b % m)) % m

/-- `(m - a) mod m`: modular negation of a residue (R153, R190). -/
def negMod (m a : Nat) : Nat := (m - a) % m

/-- Square-and-multiply over the `n` low bits of the exponent, least significant first. -/
def powLoop (m : Nat) : Nat → Nat → Nat → Nat → Nat
  | 0, _, _, acc => acc
  | n + 1, b, e, acc =>
    powLoop m n (b * b % m) (e / 2) (if e % 2 = 1 then acc * b % m else acc)

/-- `b ^ e mod m` for an exponent below 2^256 and m > 1, by a fixed number of steps (R15, R193). -/
def powMod (m b e : Nat) : Nat := powLoop m 256 (b % m) e 1

/-- `finv(v) = v^(p-2) mod p`, the inverse of v mod p (R167). -/
def finv (v : Nat) : Nat := powMod primeP v (primeP - 2)

/-- `v^(q-2) mod q`, the inverse of v mod q (R192). -/
def qinv (v : Nat) : Nat := powMod orderQ v (orderQ - 2)

/-- `parity(v)` (R169): true for odd. -/
def parity (v : Nat) : Bool := v % 2 == 1

/-! ### Square roots mod p (R171) -/

/-- `v^((p+1)/4) mod p`: a root of v whenever v is a square, since p mod 4 = 3 (R171, the suggested
instance of SQRT_CANDIDATE). -/
def principalRoot (v : Nat) : Nat := powMod primeP v ((primeP + 1) / 4)

/-- SQRT_CANDIDATE (R171), over every instance the contract admits: for a square either root, for a
non-square any field value. Which one is a free value, log entry 4. -/
def sqrtCandidate (v : Nat) : Nat :=
  if principalRoot v * principalRoot v % primeP = v then
    if Config.sqrtOtherRoot v then negMod primeP (principalRoot v) else principalRoot v
  else Config.sqrtOfNonSquare v % primeP

/-! ### Scalars from bytes (R261) -/

/-- `checked`: the value of a byte string, if it is in [1, q - 1] (R181, R261). -/
def checked (bs : List Byte) : Option Nat :=
  if 0 < be2int bs ∧ be2int bs < orderQ then some (be2int bs) else none

/-- `reduced`: the value of a byte string mod q (R183, R261). -/
def reduced (bs : List Byte) : Nat := be2int bs % orderQ

/-- The smaller of s and q - s (R265, R275). -/
def lowS (v : Nat) : Nat := if halfQ < v then orderQ - v else v

end Sys2Proof.Machine
end

