-- ==== Sys2Proof/Machine/Curve.lean ====
section
/-! DEFINITION. The group of the curve y^2 = x^3 + 7 mod p, decompression, and fixed-window scalar
multiplication (`spec/42_point.md` R211, R226, R229; `spec/43_pointmul.md` R240 to R244;
`spec/10_state.md` R47). -/

namespace Sys2Proof.Machine

/-! ### The group (R10, R11, R211) -/

/-- The curve's right side, x^3 + 7 mod p (R10). -/
def curveRhs (x : Nat) : Nat := (x * x * x + 7) % primeP

/-- `oncurve(x, y)`: the curve equation (R229). -/
def onCurve (x y : Nat) : Bool := y * y % primeP == curveRhs x

/-- Membership in the group E (R211): O, or coordinates in [0, p) that satisfy the equation. -/
def Point.valid : Point → Bool
  | .inf => true
  | .aff x y => decide (x < primeP) && decide (y < primeP) && onCurve x y

/-- The third point of the chord or tangent of slope `l` through (x1, y1) and abscissa x2,
reflected (R211). -/
def chord (l x1 y1 x2 : Nat) : Point :=
  let x3 := subMod primeP (l * l) (x1 + x2)
  .aff x3 (subMod primeP (l * subMod primeP x1 x3) y1)

/-- A + B by the chord-and-tangent law (R211). Points with one abscissa whose ordinates are
neither equal nor opposite are not on the curve; they take the tangent, log entry 17. -/
def Point.add : Point → Point → Point
  | .inf, b => b
  | .aff x1 y1, .inf => .aff x1 y1
  | .aff x1 y1, .aff x2 y2 =>
    if x1 = x2 then
      if (y1 + y2) % primeP = 0 then .inf
      else chord (3 * x1 * x1 * finv (2 * y1 % primeP) % primeP) x1 y1 x2
    else chord (subMod primeP y2 y1 * finv (subMod primeP x2 x1) % primeP) x1 y1 x2

/-- A + A. -/
def Point.dbl (a : Point) : Point := a.add a

/-- -A (R211). -/
def Point.neg : Point → Point
  | .inf => .inf
  | .aff x y => .aff x (negMod primeP y)

/-- k*A by its definition, 0*A = O and (k+1)*A = k*A + A (R211). The commands compute it by
windows; this is what they compute. -/
def Point.smul : Nat → Point → Point
  | 0, _ => .inf
  | k + 1, a => (Point.smul k a).add a

/-- The generator G (R11). -/
def genG : Point :=
  .aff 0x79BE667EF9DCBBAC55A06295CE870B07029BFCDB2DCE28D959F2815B16F81798
    0x483ADA7726A3C4655DA4FBFC0E1108A8FD17B448A68554199C47D08FFB10D4B8

/-- The affine x of a point; for O the X * finv(Z) of its triple (0, 1, 0), which is 0 (R39, R231).
Signing never asks it of O, log entry 17. -/
def Point.affineX : Point → Nat
  | .inf => 0
  | .aff x _ => x

/-! ### Decompression (R226) -/

/-- `decompress(x, odd)` over a square-root function (R226). -/
def decompressWith (sqrt : Nat → Nat) (x : Nat) (odd : Bool) : Option Point :=
  let c := sqrt (curveRhs x)
  if c * c % primeP = curveRhs x then
    some (.aff x (if parity c = odd then c else negMod primeP c))
  else none

/-- `decompress(x, odd)` (R226). Its result does not depend on SQRT_CANDIDATE (R226's own
derivation), so it is computed with the suggested instance; DEDUCED, log entry 5. -/
def decompress (x : Nat) (odd : Bool) : Option Point := decompressWith principalRoot x odd

/-! ### Tables (R47, R241, R243) -/

/-- One turn of the table build: entries 2i and 2i+1 (R243). -/
def tableStep (a : Point) (tab : List Point) (i : Nat) : List Point :=
  let d := (tab.getD i .inf).dbl
  tab ++ [d, d.add a]

/-- TAB(A), sixteen entries by 7 doublings and 7 adds (R243). -/
def buildTable (a : Point) : List Point :=
  (List.range' 1 7).foldl (tableStep a) [.inf, a]

/-- GTABLE (R47), the read-only table of the generator: the group elements of
`spec/95_test_vectors.md` section 3. -/
def gTable : List Point :=
  [ .inf,
    .aff 0x79BE667EF9DCBBAC55A06295CE870B07029BFCDB2DCE28D959F2815B16F81798
      0x483ADA7726A3C4655DA4FBFC0E1108A8FD17B448A68554199C47D08FFB10D4B8,
    .aff 0xC6047F9441ED7D6D3045406E95C07CD85C778E4B8CEF3CA7ABAC09B95C709EE5
      0x1AE168FEA63DC339A3C58419466CEAEEF7F632653266D0E1236431A950CFE52A,
    .aff 0xF9308A019258C31049344F85F89D5229B531C845836F99B08601F113BCE036F9
      0x388F7B0F632DE8140FE337E62A37F3566500A99934C2231B6CB9FD7584B8E672,
    .aff 0xE493DBF1C10D80F3581E4904930B1404CC6C13900EE0758474FA94ABE8C4CD13
      0x51ED993EA0D455B75642E2098EA51448D967AE33BFBDFE40CFE97BDC47739922,
    .aff 0x2F8BDE4D1A07209355B4A7250A5C5128E88B84BDDC619AB7CBA8D569B240EFE4
      0xD8AC222636E5E3D6D4DBA9DDA6C9C426F788271BAB0D6840DCA87D3AA6AC62D6,
    .aff 0xFFF97BD5755EEEA420453A14355235D382F6472F8568A18B2F057A1460297556
      0xAE12777AACFBB620F3BE96017F45C560DE80F0F6518FE4A03C870C36B075F297,
    .aff 0x5CBDF0646E5DB4EAA398F365F2EA7A0E3D419B7E0330E39CE92BDDEDCAC4F9BC
      0x6AEBCA40BA255960A3178D6D861A54DBA813D0B813FDE7B5A5082628087264DA,
    .aff 0x2F01E5E15CCA351DAFF3843FB70F3C2F0A1BDD05E5AF888A67784EF3E10A2A01
      0x5C4DA8A741539949293D082A132D13B4C2E213D6BA5B7617B5DA2CB76CBDE904 ] ++
  [ .aff 0xACD484E2F0C7F65309AD178A9F559ABDE09796974C57E714C35F110DFC27CCBE
      0xCC338921B0A7D9FD64380971763B61E9ADD888A4375F8E0F05CC262AC64F9C37,
    .aff 0xA0434D9E47F3C86235477C7B1AE6AE5D3442D49B1943C2B752A68E2A47E247C7
      0x893ABA425419BC27A3B6C7E693A24C696F794C2ED877A1593CBEE53B037368D7,
    .aff 0x774AE7F858A9411E5EF4246B70C65AAC5649980BE5C17891BBEC17895DA008CB
      0xD984A032EB6B5E190243DD56D7B7B365372DB1E2DFF9D6A8301D74C9C953C61B,
    .aff 0xD01115D548E7561B15C38F004D734633687CF4419620095BC5B0F47070AFE85A
      0xA9F34FFDC815E0D7A8B64537E17BD81579238C5DD9A86D526B051B13F4062327,
    .aff 0xF28773C2D975288BC7D1D205C3748651B075FBC6610E58CDDEEDDF8F19405AA8
      0x0AB0902E8D880A89758212EB65CDAF473A1A06DA521FA91F29B5CB52DB03ED81,
    .aff 0x499FDF9E895E719CFD64E67F07D38E3226AA7B63678949E6E49B241A60E823E4
      0xCAC2F6C4B54E855190F044E4A7B3D464464279C27A3F95BCC65F40D403A13F5B,
    .aff 0xD7924D4F7D43EA965A465AE3095FF41131E5946F3C85F79E44ADBCF8E27E080E
      0x581E2872A86C72A683842EC228CC6DEFEA40AF2BD896D3A5C504DC9FF6A26B58 ]

/-- The limbs of a table entry as the masked scan reads them: the triple (X, Y, Z) with Z = 1, and
(0, 1, 0) for O (R39, R241). -/
def Point.limbs : Point → Nat × Nat × Nat
  | .inf => (0, 1, 0)
  | .aff x y => (x, y, 1)

/-- The group element of a triple with Z = 0 or Z = 1. -/
def ofLimbs (l : Nat × Nat × Nat) : Point := if l.2.2 = 0 then .inf else .aff l.1 l.2.1

/-- All ones or all zeros, over 256 bits (R241). -/
def lookupMask (hit : Bool) : Nat := if hit then 2 ^ 256 - 1 else 0

/-- One turn of the masked scan: `r = r | (TAB[j] & m)` on every limb (R241). -/
def scanStep (tab : List Point) (w : Nat) (r : Nat × Nat × Nat) (j : Nat) : Nat × Nat × Nat :=
  let m := lookupMask (j == w)
  let e := (tab.getD j .inf).limbs
  (r.1 ||| (e.1 &&& m), r.2.1 ||| (e.2.1 &&& m), r.2.2 ||| (e.2.2 &&& m))

/-- The constant-time lookup `select(TAB, w)`: every one of the 16 entries is touched (R241). -/
def selectEntry (tab : List Point) (w : Nat) : Point :=
  ofLimbs ((List.range 16).foldl (scanStep tab w) (0, 0, 0))

/-- The variable-time lookup, a direct index (R241, R353). -/
def indexEntry (tab : List Point) (w : Nat) : Point := tab.getD w .inf

/-! ### The main loops (R16, R240, R244) -/

/-- `win(k, i)`: the i-th 4-bit window, the most significant first (R16, R240). -/
def window (k i : Nat) : Nat := k / 2 ^ (4 * (63 - i)) % 16

/-- The four doublings of one window (R244). -/
def dbl4 (a : Point) : Point := a.dbl.dbl.dbl.dbl

/-- The 64 windows of a single scalar (R244). -/
def mulWindows (lookup : List Point → Nat → Point) (tab : List Point) (k : Nat) : Point :=
  (List.range 64).foldl (fun acc i => (dbl4 acc).add (lookup tab (window k i))) .inf

/-- The 64 windows of two scalars over two tables, interleaved, with direct lookups (R244). -/
def mulWindows2 (tab1 tab2 : List Point) (k1 k2 : Nat) : Point :=
  (List.range 64).foldl
    (fun acc i =>
      ((dbl4 acc).add (indexEntry tab1 (window k1 i))).add (indexEntry tab2 (window k2 i)))
    .inf

/-- `point_mul` (R242): a fresh table, masked lookups. -/
def pointMul (k : Nat) (a : Point) : Point := mulWindows selectEntry (buildTable a) k

/-- `point_mul_g` (R245): the constant table, masked lookups. -/
def pointMulG (k : Nat) : Point := mulWindows selectEntry gTable k

/-- `point_mul_double_vartime` (R248): two fresh tables. -/
def pointMul2 (k1 : Nat) (a1 : Point) (k2 : Nat) (a2 : Point) : Point :=
  mulWindows2 (buildTable a1) (buildTable a2) k1 k2

/-- `point_mul_g_double_vartime` (R251): the constant table and a fresh one. -/
def pointMulG2 (k1 k2 : Nat) (a2 : Point) : Point := mulWindows2 gTable (buildTable a2) k1 k2

end Sys2Proof.Machine
end

