-- ==== Sys2Proof/Machine/Ops.lean ====
section
/-! DEFINITION. The named operations on registers and on BUF, and how a command completes
(`spec/20_memory.md` R75, R76; `spec/60_exceptions.md` R300, R301). -/

namespace Sys2Proof.Machine

/-! ### Registers (R31, R37, R39, R103) -/

/-- A register index as a position in a file of 16. -/
def regPos (r : RegIdx) : Fin 16 := ⟨r.toNat, r.isLt⟩

/-- F[r] (R18). -/
def State.getF (s : State) (r : RegIdx) : Content FieldReg := s.fReg.get (regPos r)
/-- Q[r]. -/
def State.getQ (s : State) (r : RegIdx) : Content Nat := s.qReg.get (regPos r)
/-- P[r]. -/
def State.getP (s : State) (r : RegIdx) : Content Point := s.pReg.get (regPos r)

/-- F[r] <- v (R18). -/
def State.setF (s : State) (r : RegIdx) (v : Content FieldReg) : State :=
  { s with fReg := s.fReg.set (regPos r).val v (regPos r).isLt }
/-- Q[r] <- v. -/
def State.setQ (s : State) (r : RegIdx) (v : Content Nat) : State :=
  { s with qReg := s.qReg.set (regPos r).val v (regPos r).isLt }
/-- P[r] <- v. -/
def State.setP (s : State) (r : RegIdx) (v : Content Point) : State :=
  { s with pReg := s.pReg.set (regPos r).val v (regPos r).isLt }

/-! ### BUF as a canonical list of cells (R46, R70) -/

/-- The canonical form: offsets strictly rising and below 256. A listed cell holds a byte, never
⊥, so no entry equals what an unlisted cell reads as. -/
abbrev Memory.wf (m : List Host.Cell) : Prop :=
  m.Pairwise (fun c d => c.1 < d.1) ∧ ∀ c ∈ m, c.1 < Config.bufSize

/-- BUF[x]: ⊥ unless a byte is listed (R33, R46). -/
def cellAt : List Host.Cell → Nat → Content Byte
  | [], _ => .bot
  | c :: m, x => if c.1 = x then .val c.2 else cellAt m x

/-- BUF[x] <- v. -/
def putCell : List Host.Cell → Nat → Byte → List Host.Cell
  | [], x, v => [(x, v)]
  | c :: m, x, v =>
    if x < c.1 then (x, v) :: c :: m
    else if x = c.1 then (x, v) :: m
    else c :: putCell m x v

/-- BUF[x] <- ⊥: the entry is removed. -/
def clearCell (m : List Host.Cell) (x : Nat) : List Host.Cell := m.filter (fun c => c.1 != x)

/-- MemRead(a, n) (R75): the n bytes from a, or ⊥ if any of the cells holds ⊥. -/
def readBytes (m : List Host.Cell) (a : Nat) : Nat → Content (List Byte)
  | 0 => .val []
  | n + 1 =>
    match cellAt m a, readBytes m (a + 1) n with
    | .val b, .val bs => .val (b :: bs)
    | _, _ => .bot

/-- MemWrite(a, n, b) (R76), n the length of b. -/
def writeBytes (m : List Host.Cell) (a : Nat) : List Byte → List Host.Cell
  | [] => m
  | b :: bs => writeBytes (putCell m a b) (a + 1) bs

/-- MemPoison(a, n) (R76). -/
def poisonBytes (m : List Host.Cell) (a : Nat) : Nat → List Host.Cell
  | 0 => m
  | n + 1 => poisonBytes (clearCell m a) (a + 1) n

/-- BUF[x] in a state. -/
def State.cell (s : State) (x : Nat) : Content Byte := cellAt s.mem x
/-- MemWrite on a state. -/
def State.write (s : State) (a : Nat) (bs : List Byte) : State :=
  { s with mem := writeBytes s.mem a bs }
/-- MemPoison on a state. -/
def State.poison (s : State) (a n : Nat) : State := { s with mem := poisonBytes s.mem a n }

/-! ### Completion (R100, R300, R301) -/

/-- STATUS.BUSY (R43). -/
def State.busy (s : State) : Bool := s.inFlight.isSome

/-- Every command that completes sets OK and ERR, clears BUSY, raises DONE and advances pc
(R100, R50). -/
def State.complete (s : State) (ok : Bool) (err : ErrCode) : State :=
  { s with inFlight := none, done := true, ok := ok, err := err, pc := s.pc + 1 }

/-- The outcome `ok` (R19, R300): OK = 1, ERR = 0. -/
def State.finishOk (s : State) : State := s.complete true .none

/-- What `fail <Code>` records, for every command alike (R301): OK = 0 and the code. The command
itself makes its destinations ⊥ before. T is not touched. -/
def State.failWith (s : State) (e : ErrCode) : State := s.complete false e

/-- A reserved or malformed command changes nothing but STATUS and pc (R109, R311). -/
def State.illegal (s : State) : State := s.failWith .illegalCommand

/-- The end of a verification: `ok` when no check failed, else `fail` (R268). -/
def State.verdict (s : State) (e : ErrCode) : State :=
  if e = .none then s.finishOk else s.failWith e

/-- A command whose output region is poisoned by its failure (R260). -/
def State.failRegion (s : State) (a n : Nat) (e : ErrCode) : State := (s.poison a n).failWith e

/-! ### STATUS as the host reads it (R43) -/

/-- The number of a failure code (R44). -/
def ErrCode.number : ErrCode → BitVec 4
  | .none => 0#4
  | .invalidScalar => 1#4
  | .invalidPoint => 2#4
  | .degenerateSignature => 3#4
  | .malformedEncoding => 4#4
  | .verifyMismatch => 5#4
  | .notLowS => 6#4
  | .illegalCommand => 7#4

/-- The STATUS register from its fields: BUSY bit 0, DONE bit 1, OK bit 2, T bit 3, ERR bits 7:4,
the rest zero (R43). -/
def packStatus (busy done ok t : Bool) (err : BitVec 4) : Word :=
  0#24 ++ err ++ BitVec.ofBool t ++ BitVec.ofBool ok ++ BitVec.ofBool done ++ BitVec.ofBool busy

/-- STATUS of a state. -/
def State.statusWord (s : State) : Word :=
  packStatus s.busy s.done s.ok s.t s.err.number

/-- The word a status read returns. While a command is in flight OK and ERR have no meaning
(R43 and `spec/93_implementation_defined.md` section 3): they are free bits, log entry 11. -/
def State.statusRead (s : State) : Word :=
  if s.busy then
    packStatus true s.done ((Config.freeStatusBits s.freeCount).getLsbD 0) s.t
      ((Config.freeStatusBits s.freeCount).extractLsb' 1 4)
  else s.statusWord

/-! ### Reset and the fault mark (R51, R340, R342) -/

/-- Reset: the core's state becomes the reset state in full, whatever was in flight. The host's
program and remaining transactions, what it was returned, the count of free values drawn and the
implementation's magnitude budget are not the core's state. Log entry 14. -/
def State.hardReset (s : State) : State :=
  { State.reset with
    program := s.program, host := s.host, replies := s.replies, freeCount := s.freeCount,
    magLimit := s.magLimit, magMul := s.magMul }

/-- The state a run keeps after an outcome: a fault sets the fault mark and leaves pc (R50, R51).
Log entry 15. -/
def State.record (s : State) : Result → State
  | .next s' => s'
  | .fault f => { s with faultMark := some f }
  | .refused _ => s

end Sys2Proof.Machine
end

