-- ==== Sys2Proof/Machine/Flags.lean ====
section
/-! DEFINITION. The one flag T: the predicate commands write it, the conditional negations read it
(`spec/10_state.md` R42; `spec/30_encoding.md` R108). -/

namespace Sys2Proof.Machine

/-- T <- b. -/
def State.setT (s : State) (b : Bool) : State := { s with t := b }

/-- The end of a predicate command: T holds the predicate, and the command ends in `ok`. -/
def State.answer (s : State) (b : Bool) : State := (s.setT b).finishOk

/-- The condition bit of `negate_conditional` from `cm` and T (R108). -/
def State.cond (s : State) : CondMode → Bool
  | .nv => false
  | .al => true
  | .ift => s.t
  | .ifnt => !s.t

end Sys2Proof.Machine
end

