-- ==== Sys2Proof/Machine/Operands.lean ====
section
/-! DEFINITION. The operand forms of the commands: a register source of each file, a run of BUF
bytes, and the preconditions of a rule (`spec/30_encoding.md` R103, R104;
`spec/00_scope.md` R20; `spec/60_exceptions.md` R313). -/

namespace Sys2Proof.Machine

/-- A field source: ⊥ gives `fault ReadNoValue` (R20, R33, R140). -/
def withF (s : State) (r : RegIdx) (k : FieldReg → Result) : Result :=
  match s.getF r with
  | .bot => .fault .readNoValue
  | .val a => k a

/-- A scalar source: ⊥ gives `fault ReadNoValue` (R20, R33, R180, R240). -/
def withQ (s : State) (r : RegIdx) (k : Nat → Result) : Result :=
  match s.getQ r with
  | .bot => .fault .readNoValue
  | .val a => k a

/-- A point source: ⊥ gives `fault ReadNoValue` (R20, R33, R210, R240). -/
def withP (s : State) (r : RegIdx) (k : Point → Result) : Result :=
  match s.getP r with
  | .bot => .fault .readNoValue
  | .val a => k a

/-- A BUF source: MemRead(a, n), where a cell that holds ⊥ gives `fault ReadNoValue` (R20, R75,
R260). -/
def withBytes (s : State) (a n : Nat) (k : List Byte → Result) : Result :=
  match readBytes s.mem a n with
  | .bot => .fault .readNoValue
  | .val bs => k bs

/-- A "requires" line of a rule: the fault named beside it if the condition fails (R20). -/
def require (c : Prop) [Decidable c] (f : Fault) (k : Result) : Result :=
  if c then k else .fault f

/-- The range check of R74 on the BUF operands of a command (and the distinctness of PAFF's
destinations, R231): if it fails the command is illegal and nothing else happens. The decoder
makes the same check, log entry 16. -/
def legal (s : State) (c : Bool) (k : Result) : Result :=
  if c then k else .next s.illegal

end Sys2Proof.Machine
end

