-- ==== Sys2Proof/Machine/Points.lean ====
section
/-! DEFINITION. The Point family: the group operations, and how points enter and leave the point
file (`spec/42_point.md`). -/

namespace Sys2Proof.Machine

/-! ### Group commands -/

/-- PDBL (R212). -/
def execPdbl (rd rs : RegIdx) (s : State) : Result :=
  withP s rs fun a => .next ((s.setP rd (.val a.dbl)).finishOk)

/-- PADD (R216). -/
def execPadd (rd rs1 rs2 : RegIdx) (s : State) : Result :=
  withP s rs1 fun a => withP s rs2 fun b => .next ((s.setP rd (.val (a.add b))).finishOk)

/-- PNEG (R219). -/
def execPneg (rd rs : RegIdx) (s : State) : Result :=
  withP s rs fun a => .next ((s.setP rd (.val a.neg)).finishOk)

/-- PEQ (R221): equality of group elements. -/
def execPeq (rs1 rs2 : RegIdx) (s : State) : Result :=
  withP s rs1 fun a => withP s rs2 fun b => .next (s.answer (decide (a = b)))

/-- PISINF (R223). -/
def execPisinf (rs : RegIdx) (s : State) : Result :=
  withP s rs fun a => .next (s.answer (decide (a = .inf)))

/-! ### Entering and leaving the point file -/

/-- PDECOMP (R225): decompression of a REDUCED abscissa. -/
def execPdecomp (rd rs : RegIdx) (odd : Bool) (s : State) : Result :=
  withF s rs fun x =>
  require (x.norm = .reduced) .notNormalized <|
  match decompress x.val odd with
  | none => .next ((s.setP rd .bot).failWith .invalidPoint)
  | some a => .next ((s.setP rd (.val a)).finishOk)

/-- A raw public key x ‖ y, validated: coordinates in range and on the curve (R228, R268 step 1). -/
def rawPoint (bs : List Byte) : Option Point :=
  let a := Point.aff (be2int (bs.take 32)) (be2int (bs.drop 32))
  if a.valid then some a else none

/-- PLOAD (R228). -/
def execPload (rd : RegIdx) (off : Byte) (s : State) : Result :=
  legal s (fits off 64) <|
  withBytes s off.toNat 64 fun bs =>
  match rawPoint bs with
  | none => .next ((s.setP rd .bot).failWith .invalidPoint)
  | some a => .next ((s.setP rd (.val a)).finishOk)

/-- PAFF (R231): affine coordinates; O has none. -/
def execPaff (rdx rdy rs : RegIdx) (s : State) : Result :=
  legal s (decide (rdx ≠ rdy)) <|
  withP s rs fun a =>
  match a with
  | .inf => .next (((s.setF rdx .bot).setF rdy .bot).failWith .invalidPoint)
  | .aff x y =>
    .next (((s.setF rdx (.val ⟨x, 1, .reduced⟩)).setF rdy (.val ⟨y, 1, .reduced⟩)).finishOk)

end Sys2Proof.Machine
end

