-- ==== Sys2Proof/Machine/Ecdsa.lean ====
section
/-! DEFINITION. The Ecdsa family: signing, verification, signature normalization and the public-key
formats. All inputs come from BUF, all outputs go to BUF (`spec/44_ecdsa.md`, R49, R260). -/

namespace Sys2Proof.Machine

/-! ### Signing -/

/-- Steps 2 and 3 of signing: (r, s) from the digest scalar, the private key and the nonce (R262). -/
def signature (z d k : Nat) : Nat × Nat :=
  let r := (pointMulG k).affineX % orderQ
  (r, qinv k * ((z + r * d) % orderQ) % orderQ)

/-- A signature as 64 bytes (R262 step 5). -/
def signatureBytes (r v : Nat) : List Byte := int2be32 r ++ int2be32 v

/-- The steps SIGN and SIGNLS share (R262); `norm` is step 6 (R265) or nothing. -/
def signWith (norm : Nat → Nat) (a b c : Byte) (s : State) : Result :=
  legal s (fits a 32 && fits b 64 && fits c 64) <|
  withBytes s a.toNat 32 fun zb =>
  withBytes s b.toNat 32 fun db =>
  withBytes s (b.toNat + 32) 32 fun kb =>
  match checked db, checked kb with
  | some d, some k =>
    let rs := signature (reduced zb) d k
    if rs.1 = 0 ∨ rs.2 = 0 then .next (s.failRegion c.toNat 64 .degenerateSignature)
    else .next ((s.write c.toNat (signatureBytes rs.1 (norm rs.2))).finishOk)
  | _, _ => .next (s.failRegion c.toNat 64 .invalidScalar)

/-- SIGN (R262). -/
def execSign (a b c : Byte) (s : State) : Result := signWith id a b c s

/-- SIGNLS (R265): low-S normalization before the write. -/
def execSignls (a b c : Byte) (s : State) : Result := signWith lowS a b c s

/-! ### Verification -/

/-- `xmatch` (R269) on a triple with Z ≠ 0: r against R'.x by cross-multiplication, and r + q if it
is still a field value. -/
def xmatch (x z r : Nat) : Bool :=
  r * z % primeP == x % primeP ||
    (decide (r < primeP - orderQ) && (r + orderQ) * z % primeP == x % primeP)

/-- Steps 5 and 6 (R268): the comparison of r with R', which a point register holds as a group
element, so its triple is taken with Z = 1 (R270). -/
def matchesR (pt : Point) (r : Nat) : ErrCode :=
  match pt with
  | .inf => .verifyMismatch
  | .aff x _ => if xmatch x 1 r then .none else .verifyMismatch

/-- Steps 3 to 6 (R268). -/
def verifyScalars (z r v : Nat) (key : Point) : ErrCode :=
  matchesR (pointMulG2 (z * qinv v % orderQ) (r * qinv v % orderQ) key) r

/-- The first failing check of a verification in the order of R268, or `none`. -/
def verifyBytes (zb pk sig : List Byte) : ErrCode :=
  match rawPoint pk with
  | none => .invalidPoint
  | some key =>
    match checked (sig.take 32), checked (sig.drop 32) with
    | some r, some v => verifyScalars (reduced zb) r v key
    | _, _ => .invalidScalar

/-- As `verifyBytes`, after the low-S check (R272). -/
def verifyLowS (zb pk sig : List Byte) : ErrCode :=
  match checked (sig.drop 32) with
  | none => .invalidScalar
  | some v => if halfQ < v then .notLowS else verifyBytes zb pk sig

/-- The operands VERIFY and VERIFYLS share (R268, R272). -/
def verifyWith (check : List Byte → List Byte → List Byte → ErrCode) (a b c : Byte) (s : State) :
    Result :=
  legal s (fits a 32 && fits b 64 && fits c 64) <|
  withBytes s a.toNat 32 fun zb =>
  withBytes s b.toNat 64 fun pk =>
  withBytes s c.toNat 64 fun sig =>
  .next (s.verdict (check zb pk sig))

/-- VERIFY (R268). -/
def execVerify (a b c : Byte) (s : State) : Result := verifyWith verifyBytes a b c s

/-- VERIFYLS (R272). -/
def execVerifyls (a b c : Byte) (s : State) : Result := verifyWith verifyLowS a b c s

/-! ### Signature normalization -/

/-- SIGNORM (R275): s becomes the smaller of s and q - s; the bytes of r are copied unchecked. -/
def execSignorm (a b : Byte) (s : State) : Result :=
  legal s (fits a 64 && fits b 64) <|
  withBytes s a.toNat 64 fun sig =>
  match checked (sig.drop 32) with
  | none => .next (s.failRegion b.toNat 64 .invalidScalar)
  | some v => .next ((s.write b.toNat (sig.take 32 ++ int2be32 (lowS v))).finishOk)

/-! ### Public-key formats (R277) -/

/-- PKU2R (R278): the tag is checked, the coordinates are not. -/
def execPku2r (a b : Byte) (s : State) : Result :=
  legal s (fits a 65 && fits b 64) <|
  withBytes s a.toNat 65 fun u =>
  if u.headD 0 ≠ 0x04#8 then .next (s.failRegion b.toNat 64 .malformedEncoding)
  else .next ((s.write b.toNat (u.drop 1)).finishOk)

/-- PKR2U (R280). -/
def execPkr2u (a b : Byte) (s : State) : Result :=
  legal s (fits a 64 && fits b 65) <|
  withBytes s a.toNat 64 fun w => .next ((s.write b.toNat (0x04#8 :: w)).finishOk)

/-- The raw key of a compressed one (R282): the tag, then the range of x, then the residue. -/
def decompressBytes (cmp : List Byte) : Except ErrCode (List Byte) :=
  let tag := cmp.headD 0
  let x := be2int (cmp.drop 1)
  if tag ≠ 0x02#8 ∧ tag ≠ 0x03#8 then .error .malformedEncoding
  else if primeP ≤ x then .error .invalidPoint
  else
    match decompress x (tag == 0x03#8) with
    | some (.aff x' y) => .ok (int2be32 x' ++ int2be32 y)
    | _ => .error .invalidPoint

/-- PKC2R (R282). -/
def execPkc2r (a b : Byte) (s : State) : Result :=
  legal s (fits a 33 && fits b 64) <|
  withBytes s a.toNat 33 fun cmp =>
  match decompressBytes cmp with
  | .error e => .next (s.failRegion b.toNat 64 e)
  | .ok raw => .next ((s.write b.toNat raw).finishOk)

/-- The compressed form of a raw key (R284): the parity is that of the last byte as given. -/
def compressBytes (w : List Byte) : List Byte :=
  (if (w.getD 63 0).getLsbD 0 then 0x03#8 else 0x02#8) :: w.take 32

/-- PKR2C (R284). -/
def execPkr2c (a b : Byte) (s : State) : Result :=
  legal s (fits a 64 && fits b 33) <|
  withBytes s a.toNat 64 fun w => .next ((s.write b.toNat (compressBytes w)).finishOk)

end Sys2Proof.Machine
end

