-- ==== Sys2Proof/Machine/Field.lean ====
section
/-! DEFINITION. The Field family: arithmetic mod p with the normalisation and magnitude discipline
(`spec/40_field.md`). -/

namespace Sys2Proof.Machine

/-! ### Loads and stores -/

/-- FLOADS (R141): a strict load. -/
def execFloads (rd : RegIdx) (off : Byte) (s : State) : Result :=
  legal s (fits off 32) <|
  withBytes s off.toNat 32 fun bs =>
  if primeP ≤ be2int bs then .next ((s.setF rd .bot).failWith .invalidPoint)
  else .next ((s.setF rd (.val ⟨be2int bs, 1, .reduced⟩)).finishOk)

/-- FLOADR (R142): a reducing load; the result is LOOSE. -/
def execFloadr (rd : RegIdx) (off : Byte) (s : State) : Result :=
  legal s (fits off 32) <|
  withBytes s off.toNat 32 fun bs =>
  .next ((s.setF rd (.val ⟨be2int bs % primeP, 1, .loose⟩)).finishOk)

/-- FSTORE (R143): 32 big-endian bytes of a REDUCED register. -/
def execFstore (rs : RegIdx) (off : Byte) (s : State) : Result :=
  legal s (fits off 32) <|
  withF s rs fun a =>
  require (a.norm = .reduced) .notNormalized <|
  .next ((s.write off.toNat (int2be32 a.val)).finishOk)

/-! ### Arithmetic -/

/-- A field result: LOOSE, of the given magnitude (R35, R36). -/
def State.setLoose (s : State) (rd : RegIdx) (val mag : Nat) : State :=
  s.setF rd (.val ⟨val, mag, .loose⟩)

/-- FADD (R145). -/
def execFadd (rd rs1 rs2 : RegIdx) (s : State) : Result :=
  withF s rs1 fun a => withF s rs2 fun b =>
  require (a.mag + b.mag ≤ s.magLimit) .fieldOverflow <|
  .next (s.setLoose rd ((a.val + b.val) % primeP) (a.mag + b.mag)).finishOk

/-- FSUB (R147). -/
def execFsub (rd rs1 rs2 : RegIdx) (s : State) : Result :=
  withF s rs1 fun a => withF s rs2 fun b =>
  require (a.mag + b.mag + 1 ≤ s.magLimit) .fieldOverflow <|
  .next (s.setLoose rd (subMod primeP a.val b.val) (a.mag + b.mag + 1)).finishOk

/-- FMUL (R149). -/
def execFmul (rd rs1 rs2 : RegIdx) (s : State) : Result :=
  withF s rs1 fun a => withF s rs2 fun b =>
  require (a.mag ≤ s.magMul ∧ b.mag ≤ s.magMul) .fieldOverflow <|
  .next (s.setLoose rd (a.val * b.val % primeP) 1).finishOk

/-- FSQR (R151). -/
def execFsqr (rd rs : RegIdx) (s : State) : Result :=
  withF s rs fun a =>
  require (a.mag ≤ s.magMul) .fieldOverflow <|
  .next (s.setLoose rd (a.val * a.val % primeP) 1).finishOk

/-- FNEGC (R153): the magnitude does not depend on the condition. -/
def execFnegc (rd rs : RegIdx) (cm : CondMode) (s : State) : Result :=
  withF s rs fun a =>
  require (a.mag + 1 ≤ s.magLimit) .fieldOverflow <|
  .next (s.setLoose rd (if s.cond cm then negMod primeP a.val else a.val) (a.mag + 1)).finishOk

/-- FMULS (R155): multiplication by an 8-bit unsigned immediate. -/
def execFmuls (rd rs : RegIdx) (imm : Byte) (s : State) : Result :=
  withF s rs fun a =>
  require (max 1 (a.mag * imm.toNat) ≤ s.magLimit) .fieldOverflow <|
  .next (s.setLoose rd (a.val * imm.toNat % primeP) (max 1 (a.mag * imm.toNat))).finishOk

/-- FNORM (R157): full reduction. -/
def execFnorm (rd rs : RegIdx) (s : State) : Result :=
  withF s rs fun a => .next (s.setF rd (.val ⟨a.val, 1, .reduced⟩)).finishOk

/-- FNORMW (R159): weak reduction, which restores the magnitude budget only. -/
def execFnormw (rd rs : RegIdx) (s : State) : Result :=
  withF s rs fun a => .next (s.setLoose rd a.val 1).finishOk

/-- FSQRT (R171): a candidate root; a non-residue is not signalled. -/
def execFsqrt (rd rs : RegIdx) (s : State) : Result :=
  withF s rs fun a =>
  require (a.mag ≤ s.magMul) .fieldOverflow <|
  .next (s.setLoose rd (sqrtCandidate a.val) 1).finishOk

/-! ### Predicates -/

/-- FISZERO (R161). -/
def execFiszero (rs : RegIdx) (s : State) : Result :=
  withF s rs fun a =>
  require (a.norm = .reduced) .notNormalized <|
  .next (s.answer (a.val == 0))

/-- The test FEQ and FEQV share (R163, R165): they differ in timing class only. -/
def fieldEqual (rs1 rs2 : RegIdx) (s : State) : Result :=
  withF s rs1 fun a => withF s rs2 fun b =>
  require (a.norm = .reduced ∧ b.norm = .reduced) .notNormalized <|
  .next (s.answer (a.val == b.val))

/-- FEQ (R163), constant-time. -/
def execFeq (rs1 rs2 : RegIdx) (s : State) : Result := fieldEqual rs1 rs2 s

/-- FEQV (R165), variable-time. -/
def execFeqv (rs1 rs2 : RegIdx) (s : State) : Result := fieldEqual rs1 rs2 s

end Sys2Proof.Machine
end

