-- ==== Sys2Proof/Machine/PointMul.lean ====
section
/-! DEFINITION. The PointMul family: fixed-window scalar multiplication (`spec/43_pointmul.md`). -/

namespace Sys2Proof.Machine

/-- PMUL (R242): rs1 is a scalar, rs2 a point. -/
def execPmul (rd rs1 rs2 : RegIdx) (s : State) : Result :=
  withQ s rs1 fun k => withP s rs2 fun a => .next ((s.setP rd (.val (pointMul k a))).finishOk)

/-- PMULG (R245). -/
def execPmulg (rd rs : RegIdx) (s : State) : Result :=
  withQ s rs fun k => .next ((s.setP rd (.val (pointMulG k))).finishOk)

/-- PMUL2V (R248), variable-time. -/
def execPmul2v (rd qs1 ps1 qs2 ps2 : RegIdx) (s : State) : Result :=
  withQ s qs1 fun k1 => withP s ps1 fun a1 => withQ s qs2 fun k2 => withP s ps2 fun a2 =>
  .next ((s.setP rd (.val (pointMul2 k1 a1 k2 a2))).finishOk)

/-- PMULG2V (R251), variable-time. -/
def execPmulg2v (rd qs1 qs2 ps2 : RegIdx) (s : State) : Result :=
  withQ s qs1 fun k1 => withQ s qs2 fun k2 => withP s ps2 fun a2 =>
  .next ((s.setP rd (.val (pointMulG2 k1 k2 a2))).finishOk)

end Sys2Proof.Machine
end

