-- ==== Sys2Proof/Machine/Scalar.lean ====
section
/-! DEFINITION. The Scalar family: arithmetic mod q, always fully reduced (`spec/41_scalar.md`). -/

namespace Sys2Proof.Machine

/-! ### Loads and stores -/

/-- The checked load QLOADC and QLOADV share (R181, R182): they differ in timing class only. -/
def loadChecked (rd : RegIdx) (off : Byte) (s : State) : Result :=
  legal s (fits off 32) <|
  withBytes s off.toNat 32 fun bs =>
  match checked bs with
  | none => .next ((s.setQ rd .bot).failWith .invalidScalar)
  | some v => .next ((s.setQ rd (.val v)).finishOk)

/-- QLOADC (R181), constant-time. -/
def execQloadc (rd : RegIdx) (off : Byte) (s : State) : Result := loadChecked rd off s

/-- QLOADV (R182), variable-time. -/
def execQloadv (rd : RegIdx) (off : Byte) (s : State) : Result := loadChecked rd off s

/-- QLOADR (R183): a reducing load. -/
def execQloadr (rd : RegIdx) (off : Byte) (s : State) : Result :=
  legal s (fits off 32) <|
  withBytes s off.toNat 32 fun bs => .next ((s.setQ rd (.val (reduced bs))).finishOk)

/-- QSTORE (R184): 32 big-endian bytes. -/
def execQstore (rs : RegIdx) (off : Byte) (s : State) : Result :=
  legal s (fits off 32) <|
  withQ s rs fun a => .next ((s.write off.toNat (int2be32 a)).finishOk)

/-! ### Arithmetic -/

/-- QADD (R186). -/
def execQadd (rd rs1 rs2 : RegIdx) (s : State) : Result :=
  withQ s rs1 fun a => withQ s rs2 fun b =>
  .next ((s.setQ rd (.val ((a + b) % orderQ))).finishOk)

/-- QMUL (R188). -/
def execQmul (rd rs1 rs2 : RegIdx) (s : State) : Result :=
  withQ s rs1 fun a => withQ s rs2 fun b =>
  .next ((s.setQ rd (.val (a * b % orderQ))).finishOk)

/-- QNEGC (R190). -/
def execQnegc (rd rs : RegIdx) (cm : CondMode) (s : State) : Result :=
  withQ s rs fun a =>
  .next ((s.setQ rd (.val (if s.cond cm then negMod orderQ a else a))).finishOk)

/-- QINV (R192): v^(q-2) mod q; undefined on 0. -/
def execQinv (rd rs : RegIdx) (s : State) : Result :=
  withQ s rs fun a =>
  require (a ≠ 0) .invertZero <|
  .next ((s.setQ rd (.val (qinv a))).finishOk)

/-! ### Predicates -/

/-- QISZERO (R195). -/
def execQiszero (rs : RegIdx) (s : State) : Result :=
  withQ s rs fun a => .next (s.answer (a == 0))

/-- QISLEHALF (R197). -/
def execQislehalf (rs : RegIdx) (s : State) : Result :=
  withQ s rs fun a => .next (s.answer (decide (a ≤ halfQ)))

end Sys2Proof.Machine
end

