-- ==== Sys2Proof/Machine/Dispatch.lean ====
section
/-! DEFINITION. One arm per command: its meaning. -/

namespace Sys2Proof.Machine

/-- The effect of a command on the state, as one atomic step (R84). -/
def exec (i : Instr) (s : State) : Host.Outcome State Fault Refusal :=
  match i with
  | .floads rd off => Sys2Proof.Machine.execFloads rd off s
  | .floadr rd off => Sys2Proof.Machine.execFloadr rd off s
  | .fstore rs off => Sys2Proof.Machine.execFstore rs off s
  | .fadd rd rs1 rs2 => Sys2Proof.Machine.execFadd rd rs1 rs2 s
  | .fsub rd rs1 rs2 => Sys2Proof.Machine.execFsub rd rs1 rs2 s
  | .fmul rd rs1 rs2 => Sys2Proof.Machine.execFmul rd rs1 rs2 s
  | .fsqr rd rs => Sys2Proof.Machine.execFsqr rd rs s
  | .fnegc rd rs cm => Sys2Proof.Machine.execFnegc rd rs cm s
  | .fmuls rd rs imm => Sys2Proof.Machine.execFmuls rd rs imm s
  | .fnorm rd rs => Sys2Proof.Machine.execFnorm rd rs s
  | .fnormw rd rs => Sys2Proof.Machine.execFnormw rd rs s
  | .fiszero rs => Sys2Proof.Machine.execFiszero rs s
  | .feq rs1 rs2 => Sys2Proof.Machine.execFeq rs1 rs2 s
  | .feqv rs1 rs2 => Sys2Proof.Machine.execFeqv rs1 rs2 s
  | .fsqrt rd rs => Sys2Proof.Machine.execFsqrt rd rs s
  | .qloadc rd off => Sys2Proof.Machine.execQloadc rd off s
  | .qloadv rd off => Sys2Proof.Machine.execQloadv rd off s
  | .qloadr rd off => Sys2Proof.Machine.execQloadr rd off s
  | .qstore rs off => Sys2Proof.Machine.execQstore rs off s
  | .qadd rd rs1 rs2 => Sys2Proof.Machine.execQadd rd rs1 rs2 s
  | .qmul rd rs1 rs2 => Sys2Proof.Machine.execQmul rd rs1 rs2 s
  | .qnegc rd rs cm => Sys2Proof.Machine.execQnegc rd rs cm s
  | .qinv rd rs => Sys2Proof.Machine.execQinv rd rs s
  | .qiszero rs => Sys2Proof.Machine.execQiszero rs s
  | .qislehalf rs => Sys2Proof.Machine.execQislehalf rs s
  | .pdbl rd rs => Sys2Proof.Machine.execPdbl rd rs s
  | .padd rd rs1 rs2 => Sys2Proof.Machine.execPadd rd rs1 rs2 s
  | .pneg rd rs => Sys2Proof.Machine.execPneg rd rs s
  | .peq rs1 rs2 => Sys2Proof.Machine.execPeq rs1 rs2 s
  | .pisinf rs => Sys2Proof.Machine.execPisinf rs s
  | .pdecomp rd rs odd => Sys2Proof.Machine.execPdecomp rd rs odd s
  | .pload rd off => Sys2Proof.Machine.execPload rd off s
  | .paff rdx rdy rs => Sys2Proof.Machine.execPaff rdx rdy rs s
  | .pmul rd rs1 rs2 => Sys2Proof.Machine.execPmul rd rs1 rs2 s
  | .pmulg rd rs => Sys2Proof.Machine.execPmulg rd rs s
  | .pmul2v rd qs1 ps1 qs2 ps2 => Sys2Proof.Machine.execPmul2v rd qs1 ps1 qs2 ps2 s
  | .pmulg2v rd qs1 qs2 ps2 => Sys2Proof.Machine.execPmulg2v rd qs1 qs2 ps2 s
  | .sign offA offB offC => Sys2Proof.Machine.execSign offA offB offC s
  | .signls offA offB offC => Sys2Proof.Machine.execSignls offA offB offC s
  | .verify offA offB offC => Sys2Proof.Machine.execVerify offA offB offC s
  | .verifyls offA offB offC => Sys2Proof.Machine.execVerifyls offA offB offC s
  | .signorm offIn offOut => Sys2Proof.Machine.execSignorm offIn offOut s
  | .pku2r offIn offOut => Sys2Proof.Machine.execPku2r offIn offOut s
  | .pkr2u offIn offOut => Sys2Proof.Machine.execPkr2u offIn offOut s
  | .pkc2r offIn offOut => Sys2Proof.Machine.execPkc2r offIn offOut s
  | .pkr2c offIn offOut => Sys2Proof.Machine.execPkr2c offIn offOut s

end Sys2Proof.Machine
end

