-- ==== Sys2Proof/Machine/Run.lean ====
section
/-! DEFINITION. The host's transactions, the issue of a command word, and one step of the machine
(`spec/20_memory.md` R81, R84, R87 to R89; `spec/30_encoding.md` R100, R109;
`spec/10_state.md` R50, R51). -/

namespace Sys2Proof.Machine

/-- A command word runs from acceptance to completion (R100): it is decoded, and a word that does
not decode is `fail IllegalCommand` (R109, R110). -/
def runWord (w : Word) (s : State) : Result :=
  match decode w with
  | .ok i => exec i s
  | .error _ => .next s.illegal

/-- The word the host issues next (R50). -/
def State.nextWord (s : State) : Option Word := s.program[s.pc]?

/-- The host is only allowed this transaction while BUSY = 0 (R87, R89). -/
def whenIdle (s : State) (k : Result) : Result :=
  if s.busy then .fault .hostProtocol else k

/-- A host access must stay inside BUF (R87). -/
def hostFits (a n : Nat) (k : Result) : Result :=
  if a + n ≤ Config.bufSize then k else .fault .hostRange

/-- The host is returned a reply; `drawn` free values were used for it. -/
def State.reply (s : State) (r : HostReply) (drawn : Nat) : State :=
  { s with replies := r :: s.replies, freeCount := s.freeCount + drawn }

/-- CMD <- w: the word is captured, BUSY rises and DONE falls (R86, R100). -/
def State.accept (s : State) (w : Word) : State := { s with inFlight := some w, done := false }

/-- One host transaction (R87), with the wait for DONE (R88) and the reset (R340, R342). A read of a
cell that holds ⊥ is `fault ReadNoValue`, as a command's is (U1 of
`spec/93_implementation_defined.md`, R340; log entry 10). With no word left to issue the program
has ended (R50) and `issue` writes nothing. -/
def hostStep (x : HostTxn) (s : State) : Result :=
  match x with
  | .writeBuf a bs => whenIdle s <| hostFits a bs.length <| .next (s.write a bs)
  | .readBuf a n =>
    whenIdle s <| hostFits a n <| withBytes s a n fun bs => .next (s.reply (.bytes bs) 0)
  | .issue =>
    whenIdle s <|
    match s.nextWord with
    | none => .next s
    | some w => .next (s.accept w)
  | .readStatus => .next (s.reply (.status s.statusRead) 1)
  | .poll =>
    match s.inFlight with
    | none => .next s
    | some w => runWord w s
  | .reset => .next s.hardReset

/-- The core and the host with no transaction pending: a command in flight completes, else the host
issues the program's next word, which runs as one atomic step (R84), else the core idles and holds
its state (R50, R326). -/
def commandStep (s : State) : Result :=
  match s.inFlight with
  | some w => runWord w s
  | none =>
    match s.nextWord with
    | some w => runWord w s
    | none => .next s

/-- After a fault nothing happens but the same fault, until a reset (R51,
`spec/93_implementation_defined.md` section 1). -/
def faultedStep (f : Fault) (s : State) : Result :=
  match s.host with
  | .reset :: rest => .next ({ s with host := rest }).hardReset
  | _ => .fault f

/-- One step: the host's next transaction if one is pending, else a command. -/
def coreStep (s : State) : Result :=
  match s.faultMark with
  | some f => faultedStep f s
  | none =>
    match s.host with
    | x :: rest => hostStep x { s with host := rest }
    | [] => commandStep s

/-- A program with `w` at index `pc`; the words before and after are kept, missing ones before it
are zero. -/
def placeWord (program : List Word) (pc : Nat) (w : Word) : List Word :=
  program.take pc ++ List.replicate (pc - program.length) 0#32 ++ w :: program.drop (pc + 1)

end Sys2Proof.Machine
end

