-- ==== Sys2Proof/Machine/Step.lean ====
section
/-! DEFINITION. One step of the machine, and how the host places a word to be run next. -/

namespace Sys2Proof.Machine

/-- One step of the machine: see `coreStep`. -/
def step (s : State) : Host.Outcome State Fault Refusal := coreStep s

/-- `s` with the command word of bits `w` (bits from `nbits` on zero) as the word the host issues
next: it stands in the program at pc, and nothing is pending before it. It stands for the host's
loading of its program (log entry 8). -/
def State.withFetchWord (s : State) (nbits w : Nat) : State :=
  { s with
    program := placeWord s.program s.pc (BitVec.ofNat 32 (w % 2 ^ nbits))
    inFlight := none
    host := []
    faultMark := none }

end Sys2Proof.Machine
end

