-- ==== Sys2Proof/Safety.lean ====
section
/-! DEFINITION. The terms statements use: what it means that a command completed, what each command
reads and may change, the timing classes, and the invariants of the state. -/

namespace Sys2Proof

open Machine

/-! ### Footprints: what a command reads and may change -/

/-- What a command reads and may change, and how it can end besides `ok`, `fail IllegalCommand` and
`fault ReadNoValue`. A BUF region is (offset, length). -/
structure Footprint where
  srcF : List RegIdx := []
  srcQ : List RegIdx := []
  srcP : List RegIdx := []
  reads : List (Nat × Nat) := []
  dstF : List RegIdx := []
  dstQ : List RegIdx := []
  dstP : List RegIdx := []
  writes : List (Nat × Nat) := []
  writesT : Bool := false
  fails : List ErrCode := []
  faults : List Fault := []

/-- The footprint of each command: sources and destinations by R103 and the command's rule, BUF
regions by R78, T by R42, failures by R312, faults by R317. -/
def Instr.footprint : Instr → Footprint
  | .floads rd off => { reads := [(off.toNat, 32)], dstF := [rd], fails := [.invalidPoint] }
  | .floadr rd off => { reads := [(off.toNat, 32)], dstF := [rd] }
  | .fstore rs off => { srcF := [rs], writes := [(off.toNat, 32)], faults := [.notNormalized] }
  | .fadd rd rs1 rs2 => { srcF := [rs1, rs2], dstF := [rd], faults := [.fieldOverflow] }
  | .fsub rd rs1 rs2 => { srcF := [rs1, rs2], dstF := [rd], faults := [.fieldOverflow] }
  | .fmul rd rs1 rs2 => { srcF := [rs1, rs2], dstF := [rd], faults := [.fieldOverflow] }
  | .fsqr rd rs => { srcF := [rs], dstF := [rd], faults := [.fieldOverflow] }
  | .fnegc rd rs _ => { srcF := [rs], dstF := [rd], faults := [.fieldOverflow] }
  | .fmuls rd rs _ => { srcF := [rs], dstF := [rd], faults := [.fieldOverflow] }
  | .fnorm rd rs => { srcF := [rs], dstF := [rd] }
  | .fnormw rd rs => { srcF := [rs], dstF := [rd] }
  | .fiszero rs => { srcF := [rs], writesT := true, faults := [.notNormalized] }
  | .feq rs1 rs2 => { srcF := [rs1, rs2], writesT := true, faults := [.notNormalized] }
  | .feqv rs1 rs2 => { srcF := [rs1, rs2], writesT := true, faults := [.notNormalized] }
  | .fsqrt rd rs => { srcF := [rs], dstF := [rd], faults := [.fieldOverflow] }
  | .qloadc rd off => { reads := [(off.toNat, 32)], dstQ := [rd], fails := [.invalidScalar] }
  | .qloadv rd off => { reads := [(off.toNat, 32)], dstQ := [rd], fails := [.invalidScalar] }
  | .qloadr rd off => { reads := [(off.toNat, 32)], dstQ := [rd] }
  | .qstore rs off => { srcQ := [rs], writes := [(off.toNat, 32)] }
  | .qadd rd rs1 rs2 => { srcQ := [rs1, rs2], dstQ := [rd] }
  | .qmul rd rs1 rs2 => { srcQ := [rs1, rs2], dstQ := [rd] }
  | .qnegc rd rs _ => { srcQ := [rs], dstQ := [rd] }
  | .qinv rd rs => { srcQ := [rs], dstQ := [rd], faults := [.invertZero] }
  | .qiszero rs => { srcQ := [rs], writesT := true }
  | .qislehalf rs => { srcQ := [rs], writesT := true }
  | .pdbl rd rs => { srcP := [rs], dstP := [rd] }
  | .padd rd rs1 rs2 => { srcP := [rs1, rs2], dstP := [rd] }
  | .pneg rd rs => { srcP := [rs], dstP := [rd] }
  | .peq rs1 rs2 => { srcP := [rs1, rs2], writesT := true }
  | .pisinf rs => { srcP := [rs], writesT := true }
  | .pdecomp rd rs _ =>
    { srcF := [rs], dstP := [rd], fails := [.invalidPoint], faults := [.notNormalized] }
  | .pload rd off => { reads := [(off.toNat, 64)], dstP := [rd], fails := [.invalidPoint] }
  | .paff rdx rdy rs => { srcP := [rs], dstF := [rdx, rdy], fails := [.invalidPoint] }
  | .pmul rd rs1 rs2 => { srcQ := [rs1], srcP := [rs2], dstP := [rd] }
  | .pmulg rd rs => { srcQ := [rs], dstP := [rd] }
  | .pmul2v rd qs1 ps1 qs2 ps2 => { srcQ := [qs1, qs2], srcP := [ps1, ps2], dstP := [rd] }
  | .pmulg2v rd qs1 qs2 ps2 => { srcQ := [qs1, qs2], srcP := [ps2], dstP := [rd] }
  | .sign a b c =>
    { reads := [(a.toNat, 32), (b.toNat, 64)], writes := [(c.toNat, 64)],
      fails := [.invalidScalar, .degenerateSignature] }
  | .signls a b c =>
    { reads := [(a.toNat, 32), (b.toNat, 64)], writes := [(c.toNat, 64)],
      fails := [.invalidScalar, .degenerateSignature] }
  | .verify a b c =>
    { reads := [(a.toNat, 32), (b.toNat, 64), (c.toNat, 64)],
      fails := [.invalidPoint, .invalidScalar, .verifyMismatch] }
  | .verifyls a b c =>
    { reads := [(a.toNat, 32), (b.toNat, 64), (c.toNat, 64)],
      fails := [.invalidScalar, .notLowS, .invalidPoint, .verifyMismatch] }
  | .signorm a b =>
    { reads := [(a.toNat, 64)], writes := [(b.toNat, 64)], fails := [.invalidScalar] }
  | .pku2r a b =>
    { reads := [(a.toNat, 65)], writes := [(b.toNat, 64)], fails := [.malformedEncoding] }
  | .pkr2u a b => { reads := [(a.toNat, 64)], writes := [(b.toNat, 65)] }
  | .pkc2r a b =>
    { reads := [(a.toNat, 33)], writes := [(b.toNat, 64)],
      fails := [.malformedEncoding, .invalidPoint] }
  | .pkr2c a b => { reads := [(a.toNat, 64)], writes := [(b.toNat, 33)] }

/-- A command of the Ecdsa family, which works on BUF alone (R49). -/
def Instr.ofEcdsa : Instr → Bool
  | .sign _ _ _ | .signls _ _ _ | .verify _ _ _ | .verifyls _ _ _ => true
  | .signorm _ _ | .pku2r _ _ | .pkr2u _ _ | .pkc2r _ _ | .pkr2c _ _ => true
  | .floads _ _ | .floadr _ _ | .fstore _ _ | .fadd _ _ _ | .fsub _ _ _ => false
  | .fmul _ _ _ | .fsqr _ _ | .fnegc _ _ _ | .fmuls _ _ _ | .fnorm _ _ | .fnormw _ _ => false
  | .fiszero _ | .feq _ _ | .feqv _ _ | .fsqrt _ _ => false
  | .qloadc _ _ | .qloadv _ _ | .qloadr _ _ | .qstore _ _ | .qadd _ _ _ | .qmul _ _ _ => false
  | .qnegc _ _ _ | .qinv _ _ | .qiszero _ | .qislehalf _ => false
  | .pdbl _ _ | .padd _ _ _ | .pneg _ _ | .peq _ _ | .pisinf _ | .pdecomp _ _ _ => false
  | .pload _ _ | .paff _ _ _ => false
  | .pmul _ _ _ | .pmulg _ _ | .pmul2v _ _ _ _ _ | .pmulg2v _ _ _ _ => false

/-- A Field command on registers alone, the predicates among them: its sources are F registers, and
it writes one or T. FLOADS, FLOADR and FSTORE move bytes between a register and BUF. -/
def Instr.ofFieldRegisters : Instr → Bool
  | .fadd _ _ _ | .fsub _ _ _ | .fmul _ _ _ | .fsqr _ _ | .fnegc _ _ _ | .fmuls _ _ _ => true
  | .fnorm _ _ | .fnormw _ _ | .fsqrt _ _ | .fiszero _ | .feq _ _ | .feqv _ _ => true
  | .floads _ _ | .floadr _ _ | .fstore _ _ => false
  | .qloadc _ _ | .qloadv _ _ | .qloadr _ _ | .qstore _ _ | .qadd _ _ _ | .qmul _ _ _ => false
  | .qnegc _ _ _ | .qinv _ _ | .qiszero _ | .qislehalf _ => false
  | .pdbl _ _ | .padd _ _ _ | .pneg _ _ | .peq _ _ | .pisinf _ | .pdecomp _ _ _ => false
  | .pload _ _ | .paff _ _ _ => false
  | .pmul _ _ _ | .pmulg _ _ | .pmul2v _ _ _ _ _ | .pmulg2v _ _ _ _ => false
  | .sign _ _ _ | .signls _ _ _ | .verify _ _ _ | .verifyls _ _ _ => false
  | .signorm _ _ | .pku2r _ _ | .pkr2u _ _ | .pkc2r _ _ | .pkr2c _ _ => false

/-! ### Timing classes (R352) -/

/-- The timing class of a command. Durations themselves are not modelled (log entry 20). -/
inductive Timing where
  | constantTime
  | variableTime
  deriving DecidableEq, Repr

/-- The table of R352. -/
def Instr.timing : Instr → Timing
  | .floads _ _ | .floadr _ _ | .fstore _ _ | .fadd _ _ _ | .fsub _ _ _ => .constantTime
  | .fmul _ _ _ | .fsqr _ _ | .fnegc _ _ _ | .fmuls _ _ _ | .fnorm _ _ => .constantTime
  | .fnormw _ _ | .fiszero _ | .feq _ _ | .fsqrt _ _ => .constantTime
  | .qloadc _ _ | .qloadr _ _ | .qstore _ _ | .qadd _ _ _ | .qmul _ _ _ => .constantTime
  | .qnegc _ _ _ | .qinv _ _ | .qiszero _ | .qislehalf _ => .constantTime
  | .pdbl _ _ | .padd _ _ _ | .pneg _ _ | .paff _ _ _ => .constantTime
  | .pmul _ _ _ | .pmulg _ _ | .sign _ _ _ | .signls _ _ _ => .constantTime
  | .feqv _ _ | .qloadv _ _ | .peq _ _ | .pisinf _ | .pdecomp _ _ _ => .variableTime
  | .pload _ _ | .pmul2v _ _ _ _ _ | .pmulg2v _ _ _ _ => .variableTime
  | .verify _ _ _ | .verifyls _ _ _ | .signorm _ _ | .pku2r _ _ => .variableTime
  | .pkr2u _ _ | .pkc2r _ _ | .pkr2c _ _ => .variableTime

end Sys2Proof

namespace Sys2Proof.Machine

/-! ### Completion (R100, R300, R301) -/

/-- `t` is reached from `s` by a command that ended in `ok` and is no predicate: STATUS reports
success, nothing is in flight, pc has advanced by one, and T is as it was. -/
structure OkAfter (s t : State) : Prop where
  ok : t.ok = true
  err : t.err = .none
  done : t.done = true
  idle : t.busy = false
  pc : t.pc = s.pc + 1
  flag : t.t = s.t

/-- `t` is reached from `s` by a predicate command that ended in `ok` and left `b` in T (R42). -/
structure Answered (s : State) (b : Bool) (t : State) : Prop where
  ok : t.ok = true
  err : t.err = .none
  done : t.done = true
  idle : t.busy = false
  pc : t.pc = s.pc + 1
  flag : t.t = b

/-- `t` is reached from `s` by a command that ended in `fail e` (R301). -/
structure FailAfter (s : State) (e : ErrCode) (t : State) : Prop where
  ok : t.ok = false
  err : t.err = e
  done : t.done = true
  idle : t.busy = false
  pc : t.pc = s.pc + 1
  flag : t.t = s.t

/-- When the condition mode negates (R108): never, always, on T = 1, on T = 0. -/
def Negates (s : State) : CondMode → Prop
  | .nv => False
  | .al => True
  | .ift => s.t = true
  | .ifnt => s.t = false

/-- The bytes are the big-endian form of an integer in [1, q - 1] (R261, R305). -/
def IsScalar (bs : List Byte) : Prop := 0 < be2int bs ∧ be2int bs < orderQ

/-- The coordinates are field values of a curve point (R211, R229). -/
def IsCurvePoint (x y : Nat) : Prop := x < primeP ∧ y < primeP ∧ onCurve x y = true

/-- Every cell of the region holds ⊥. -/
def NoValueIn (s : State) (a n : Nat) : Prop := ∀ x, a ≤ x → x < a + n → s.cell x = .bot

/-- Two field contents with the same tags: both ⊥, or the same magnitude and normalisation. -/
def SameTags : Content FieldReg → Content FieldReg → Prop
  | .bot, .bot => True
  | .val a, .val b => a.mag = b.mag ∧ a.norm = b.norm
  | _, _ => False

/-- The command has a source that holds ⊥. -/
def ReadsNoValue (i : Instr) (s : State) : Prop :=
  (∃ r ∈ i.footprint.srcF, s.getF r = .bot) ∨
  (∃ r ∈ i.footprint.srcQ, s.getQ r = .bot) ∨
  (∃ r ∈ i.footprint.srcP, s.getP r = .bot) ∨
  (∃ g ∈ i.footprint.reads, ∃ x, g.1 ≤ x ∧ x < g.1 + g.2 ∧ s.cell x = .bot)

/-- The cell is in no region of the list. -/
def OutsideAll (gs : List (Nat × Nat)) (x : Nat) : Prop :=
  ∀ g ∈ gs, x < g.1 ∨ g.1 + g.2 ≤ x

/-! ### Invariants -/

/-- A field value keeps its range, its magnitude range and REDUCED implies magnitude 1 (R31). -/
structure FieldReg.Wf (limit : Nat) (a : FieldReg) : Prop where
  val : a.val < primeP
  mag : 1 ≤ a.mag ∧ a.mag ≤ limit
  norm : a.norm = .reduced → a.mag = 1

/-- The coordinates of a point are field values (R39). -/
def Point.InRange : Point → Prop
  | .inf => True
  | .aff x y => x < primeP ∧ y < primeP

/-- What every reachable state keeps: BUF in canonical form, registers in their ranges, tags
consistent, an admissible magnitude budget, and a consistent STATUS. -/
structure State.Wf (s : State) : Prop where
  /-- BUF is a canonical list of cells of BUF (R46). -/
  mem : Memory.wf s.mem
  /-- R31. -/
  field : ∀ r a, s.getF r = .val a → a.Wf s.magLimit
  /-- R37. -/
  scalar : ∀ r k, s.getQ r = .val k → k < orderQ
  /-- R39. -/
  point : ∀ r a, s.getP r = .val a → a.InRange
  /-- 1 ≤ MAG_MUL ≤ MAG_LIMIT (R36 and the table of open parameters in
  `spec/92_eei_decisions.md`). -/
  budget : 1 ≤ s.magMul ∧ s.magMul ≤ s.magLimit
  /-- BUSY and DONE are never both 1 (R43). -/
  busy : s.busy = true → s.done = false
  /-- After a completed command OK = 1 exactly when ERR = 0 (R43, R300, R301). -/
  report : s.done = true → (s.ok = true ↔ s.err = .none)

/-- Every point register that is not ⊥ holds a point of the curve or O (R40). -/
def State.PointsOnCurve (s : State) : Prop := ∀ r a, s.getP r = .val a → a.valid = true

/-- What a square-root function of R171 owes: a field value, and a root of every square; a root of
0 that is a field value is 0. -/
structure SqrtContract (sqrt : Nat → Nat) : Prop where
  range : ∀ v, v < primeP → sqrt v < primeP
  root : ∀ v c, v < primeP → c * c % primeP = v → sqrt v * sqrt v % primeP = v

/-- The core's state as R52 lists it after reset: no register and no BUF cell has a value, T and
every field of STATUS are 0, pc is 0 and no fault is marked. -/
structure State.AtReset (s : State) : Prop where
  field : ∀ r, s.getF r = .bot
  scalar : ∀ r, s.getQ r = .bot
  point : ∀ r, s.getP r = .bot
  flag : s.t = false
  status : s.statusWord = 0#32
  buf : ∀ x, s.cell x = .bot
  pc : s.pc = 0
  mark : s.faultMark = none

/-- The commands of a list, one after another, each from the state the one before it left. -/
def execAll : List Instr → State → Result
  | [], s => .next s
  | i :: is, s =>
    match exec i s with
    | .next t => execAll is t
    | .fault f => .fault f
    | .refused r => .refused r

end Sys2Proof.Machine
end

