-- ==== Sys2Proof/Certificates/Slice0/Obligations.lean ====
section
/-! DEFINITION. The statements for the provers, from the spec's numbered rules. Field and scalar
registers hold residues only in states that meet `State.Wf`; where a statement could fail outside
them, the range it needs is a premise, and `StepKeepsInvariant` is the invariant's own statement. -/

open Sys2Proof Sys2Proof.Machine

/-! ### Encoding and decoding -/

/-- R101, R102, R111: no bit of a command's encoding is dropped. -/
def Obligations.DecodeUndoesEncode : Prop :=
  ∀ i : Instr, i.WellFormed → decode (encode i) = .ok i

/-- R101, R102, R109, R111: every legal word is the encoding of the one command it decodes to, and
that command passes the checks of R109. -/
def Obligations.LegalWordsAreEncodings : Prop :=
  ∀ (w : Word) (i : Instr), decode w = .ok i → i.WellFormed ∧ encode i = w

/-- The worked encodings of R117, legal and illegal. -/
def Obligations.WorkedEncodings : Prop :=
  decode 0x13030102#32 = .ok (.fadd 3#4 1#4 2#4) ∧
  decode 0x10002000#32 = .ok (.floads 0#4 0x20#8) ∧
  decode 0x17030103#32 = .ok (.fnegc 3#4 1#4 .ifnt) ∧
  decode 0x18030115#32 = .ok (.fmuls 3#4 1#4 21#8) ∧
  decode 0x35000101#32 = .ok (.pdecomp 0#4 1#4 true) ∧
  decode 0x42001122#32 = .ok (.pmul2v 0#4 1#4 1#4 2#4 2#4) ∧
  decode 0x43001022#32 = .ok (.pmulg2v 0#4 1#4 2#4 2#4) ∧
  decode 0x50002060#32 = .ok (.sign 0x00#8 0x20#8 0x60#8) ∧
  decode 0x57004000#32 = .ok (.pkc2r 0x00#8 0x40#8) ∧
  decode 0x13130102#32 = .error .mustBeZero ∧
  decode 0x160301FF#32 = .error .mustBeZero ∧
  decode 0x37010102#32 = .error (.illFormed .equalDestinations) ∧
  decode 0x1000E100#32 = .error (.illFormed .bufRange) ∧
  decode 0x00000000#32 = .error .reservedOpcode ∧
  decode 0x1F000000#32 = .error .reservedOpcode

/-- R110: the reserved families and functions are illegal, a must-be-zero bit set to 1 makes a word
illegal, and R109: an illegal word ends in `fail IllegalCommand`, which changes STATUS and pc only. -/
def Obligations.ReservedWordsAreIllegal : Prop :=
  ∀ (w : Word) (s : State),
    ((opField w).toNat / 16 = 0 ∨ 6 ≤ (opField w).toNat / 16 ∨
        (opField w).toNat = 0x1F ∨
        (0x2A ≤ (opField w).toNat ∧ (opField w).toNat ≤ 0x2F) ∨
        (0x38 ≤ (opField w).toNat ∧ (opField w).toNat ≤ 0x3F) ∨
        (0x44 ≤ (opField w).toNat ∧ (opField w).toNat ≤ 0x4F) ∨
        (0x59 ≤ (opField w).toNat ∧ (opField w).toNat ≤ 0x5F) →
      decode w = .error .reservedOpcode) ∧
    (∀ row ∈ rows, opField w = row.op → w &&& row.format.mask ≠ row.pattern →
      decode w = .error .mustBeZero) ∧
    (∀ e, decode w = .error e →
      ∃ t, runWord w s = .next t ∧ FailAfter s .illegalCommand t ∧
        t.fReg = s.fReg ∧ t.qReg = s.qReg ∧ t.pReg = s.pReg ∧ t.mem = s.mem)

/-- R74, R109 (3) and (4), R231: a command whose BUF region runs past offset 255, or a PAFF with
equal destinations, is not executed: it ends in `fail IllegalCommand` and nothing but STATUS and pc
changes. Every other command is well formed. That `exec` itself answers so for a command no word
decodes to is the model's form of it, log entry 16. -/
def Obligations.IllFormedCommandsDoNothing : Prop :=
  ∀ (i : Instr) (s : State),
    (i.WellFormed ↔
      (∀ g ∈ i.footprint.reads ++ i.footprint.writes, g.1 + g.2 ≤ 256) ∧
        i.footprint.dstF.Nodup) ∧
    (¬ i.WellFormed →
      ∃ t, exec i s = .next t ∧ FailAfter s .illegalCommand t ∧
        t.fReg = s.fReg ∧ t.qReg = s.qReg ∧ t.pReg = s.pReg ∧ t.mem = s.mem)

/-! ### The step -/

/-- R50, R84, R100, R109, R326: with no host transaction pending and no fault marked, one step runs
the command in flight, else the program's next word: exactly `exec` of the command the word decodes
to, or `fail IllegalCommand` for a word that does not decode. With no word left nothing changes. A
word placed for the next step is the one that runs. Three clauses are the model's choice: that one
step takes a whole command (log entry 13), that a step with nothing left answers the same state (log
entry 9), and the last, about `withFetchWord`, the model's stand-in for the host's loading of its
program (log entry 8). -/
def Obligations.StepRunsDecodedCommand : Prop :=
  (∀ (s : State) (w : Word), s.faultMark = none → s.host = [] →
    (s.inFlight = some w ∨ (s.inFlight = none ∧ s.program[s.pc]? = some w)) →
    (∀ i, decode w = .ok i → step s = exec i s) ∧
    (∀ e, decode w = .error e → step s = .next s.illegal)) ∧
  (∀ s : State, s.faultMark = none → s.host = [] → s.inFlight = none →
    s.program[s.pc]? = none → step s = .next s) ∧
  (∀ (s : State) (w : Word) (i : Instr), decode w = .ok i →
    step (s.withFetchWord 32 w.toNat) = exec i (s.withFetchWord 32 w.toNat))

/-- R84, R100: acceptance raises BUSY, lowers DONE and does nothing else that a command can see, so
a command that the host first issues and then waits for ends as the one taken in one step. The split
of a command into acceptance and completion is the model's choice, log entry 13; that BUSY is 1 while
a captured word is held is its reading of R43, log entry 26. -/
def Obligations.AcceptanceIsInvisibleToCommands : Prop :=
  ∀ (i : Instr) (s : State) (w : Word),
    (s.accept w).busy = true ∧ (s.accept w).done = false ∧ exec i (s.accept w) = exec i s

/-! ### The Field family -/

/-- R141, R142, R143 with R17 and R72: the strict load, the reducing load and the store. -/
def Obligations.FieldLoadsAndStore : Prop :=
  (∀ (s : State) (rd : RegIdx) (off : Byte) (bs : List Byte), off.toNat + 32 ≤ 256 →
    readBytes s.mem off.toNat 32 = .val bs →
    (be2int bs < primeP →
      ∃ t, exec (.floads rd off) s = .next t ∧ OkAfter s t ∧
        t.getF rd = .val ⟨be2int bs, 1, .reduced⟩) ∧
    (primeP ≤ be2int bs →
      ∃ t, exec (.floads rd off) s = .next t ∧ FailAfter s .invalidPoint t ∧ t.getF rd = .bot) ∧
    (∃ t, exec (.floadr rd off) s = .next t ∧ OkAfter s t ∧
      t.getF rd = .val ⟨be2int bs % primeP, 1, .loose⟩)) ∧
  (∀ (s : State) (rs : RegIdx) (off : Byte) (a : FieldReg), off.toNat + 32 ≤ 256 →
    s.getF rs = .val a → a.val < primeP →
    (a.norm = .reduced →
      ∃ t bs, exec (.fstore rs off) s = .next t ∧ OkAfter s t ∧
        readBytes t.mem off.toNat 32 = .val bs ∧ bs.length = 32 ∧ be2int bs = a.val) ∧
    (a.norm = .loose → exec (.fstore rs off) s = .fault .notNormalized))

/-- R145, R147, R144: the exact residue of the sum and of the difference, the magnitudes, and the
overflow of the magnitude budget. -/
def Obligations.FieldAddAndSub : Prop :=
  ∀ (s : State) (rd rs1 rs2 : RegIdx) (a b : FieldReg),
    s.getF rs1 = .val a → s.getF rs2 = .val b →
    (a.mag + b.mag ≤ s.magLimit →
      ∃ t, exec (.fadd rd rs1 rs2) s = .next t ∧ OkAfter s t ∧
        t.getF rd = .val ⟨(a.val + b.val) % primeP, a.mag + b.mag, .loose⟩) ∧
    (s.magLimit < a.mag + b.mag → exec (.fadd rd rs1 rs2) s = .fault .fieldOverflow) ∧
    (a.mag + b.mag + 1 ≤ s.magLimit →
      ∃ t v, exec (.fsub rd rs1 rs2) s = .next t ∧ OkAfter s t ∧
        t.getF rd = .val ⟨v, a.mag + b.mag + 1, .loose⟩ ∧
        (v : Int) = ((a.val : Int) - b.val) % primeP) ∧
    (s.magLimit < a.mag + b.mag + 1 → exec (.fsub rd rs1 rs2) s = .fault .fieldOverflow)

/-- R149, R151, R155: the products, their magnitudes, and the overflow of the magnitude budget. -/
def Obligations.FieldMultiplications : Prop :=
  (∀ (s : State) (rd rs1 rs2 : RegIdx) (a b : FieldReg),
    s.getF rs1 = .val a → s.getF rs2 = .val b →
    (a.mag ≤ s.magMul ∧ b.mag ≤ s.magMul →
      ∃ t, exec (.fmul rd rs1 rs2) s = .next t ∧ OkAfter s t ∧
        t.getF rd = .val ⟨a.val * b.val % primeP, 1, .loose⟩) ∧
    (s.magMul < a.mag ∨ s.magMul < b.mag →
      exec (.fmul rd rs1 rs2) s = .fault .fieldOverflow)) ∧
  (∀ (s : State) (rd rs : RegIdx) (a : FieldReg), s.getF rs = .val a →
    (a.mag ≤ s.magMul →
      ∃ t, exec (.fsqr rd rs) s = .next t ∧ OkAfter s t ∧
        t.getF rd = .val ⟨a.val * a.val % primeP, 1, .loose⟩) ∧
    (s.magMul < a.mag → exec (.fsqr rd rs) s = .fault .fieldOverflow)) ∧
  (∀ (s : State) (rd rs : RegIdx) (n : Byte) (a : FieldReg), s.getF rs = .val a →
    (max 1 (a.mag * n.toNat) ≤ s.magLimit →
      ∃ t, exec (.fmuls rd rs n) s = .next t ∧ OkAfter s t ∧
        t.getF rd = .val ⟨a.val * n.toNat % primeP, max 1 (a.mag * n.toNat), .loose⟩) ∧
    (s.magLimit < max 1 (a.mag * n.toNat) → exec (.fmuls rd rs n) s = .fault .fieldOverflow))

/-- R153, R108: the modular negative or a copy, by the condition mode and T; magnitude and tag do
not depend on the condition. R157, R159: the two normalizations. -/
def Obligations.FieldNegateAndNormalize : Prop :=
  ∀ (s : State) (rd rs : RegIdx) (a : FieldReg), s.getF rs = .val a → a.val < primeP →
    (∀ cm, a.mag + 1 ≤ s.magLimit →
      ∃ t v, exec (.fnegc rd rs cm) s = .next t ∧ OkAfter s t ∧
        t.getF rd = .val ⟨v, a.mag + 1, .loose⟩ ∧
        (Negates s cm → (v : Int) = (-(a.val : Int)) % primeP) ∧
        (¬ Negates s cm → v = a.val)) ∧
    (∀ cm, s.magLimit < a.mag + 1 → exec (.fnegc rd rs cm) s = .fault .fieldOverflow) ∧
    (∃ t, exec (.fnorm rd rs) s = .next t ∧ OkAfter s t ∧
      t.getF rd = .val ⟨a.val, 1, .reduced⟩) ∧
    (∃ t, exec (.fnormw rd rs) s = .next t ∧ OkAfter s t ∧
      t.getF rd = .val ⟨a.val, 1, .loose⟩)

/-- R171: the promise of FSQRT, whatever root the implementation returns. The candidate itself is a
free value of the model (log entry 4); the statement holds for every such value. -/
def Obligations.FieldSquareRoot : Prop :=
  ∀ (s : State) (rd rs : RegIdx) (a : FieldReg), s.getF rs = .val a → a.val < primeP →
    (a.mag ≤ s.magMul →
      ∃ t c, exec (.fsqrt rd rs) s = .next t ∧ OkAfter s t ∧ t.getF rd = .val ⟨c, 1, .loose⟩ ∧
        c < primeP ∧ (a.val = 0 → c = 0) ∧
        ((∃ y, y * y % primeP = a.val) → c * c % primeP = a.val)) ∧
    (s.magMul < a.mag → exec (.fsqrt rd rs) s = .fault .fieldOverflow)

/-- R161, R163, R165: the predicates on REDUCED registers, and the fault on LOOSE ones. -/
def Obligations.FieldPredicates : Prop :=
  ∀ (s : State) (rs1 rs2 : RegIdx) (a b : FieldReg),
    s.getF rs1 = .val a → s.getF rs2 = .val b →
    (a.norm = .reduced →
      ∃ t, exec (.fiszero rs1) s = .next t ∧ Answered s (decide (a.val = 0)) t) ∧
    (a.norm = .loose → exec (.fiszero rs1) s = .fault .notNormalized) ∧
    (a.norm = .reduced ∧ b.norm = .reduced →
      (∃ t, exec (.feq rs1 rs2) s = .next t ∧ Answered s (decide (a.val = b.val)) t) ∧
      (∃ t, exec (.feqv rs1 rs2) s = .next t ∧ Answered s (decide (a.val = b.val)) t)) ∧
    (a.norm = .loose ∨ b.norm = .loose →
      exec (.feq rs1 rs2) s = .fault .notNormalized ∧
      exec (.feqv rs1 rs2) s = .fault .notNormalized)

/-- R347: the magnitudes are a function of the command sequence alone, never of the data. Two
states with the same tags and the same budget keep the same tags through any sequence of Field
commands on registers, the predicates among them, whatever the residues and T are, and fault alike,
with FieldOverflow, NotNormalized or ReadNoValue. -/
def Obligations.FieldBudgetIsStatic : Prop :=
  ∀ (is : List Instr) (s s' : State), (∀ i ∈ is, i.ofFieldRegisters = true) →
    s.magLimit = s'.magLimit → s.magMul = s'.magMul →
    (∀ r, SameTags (s.getF r) (s'.getF r)) →
    (∀ t, execAll is s = .next t →
      ∃ t', execAll is s' = .next t' ∧ ∀ r, SameTags (t.getF r) (t'.getF r)) ∧
    (∀ f, execAll is s = .fault f → execAll is s' = .fault f)

/-! ### The Scalar family -/

/-- R181, R182, R183: the checked loads reject 0 and everything from q on and accept everything in
between; the reducing load never fails. -/
def Obligations.ScalarLoads : Prop :=
  ∀ (s : State) (rd : RegIdx) (off : Byte) (bs : List Byte), off.toNat + 32 ≤ 256 →
    readBytes s.mem off.toNat 32 = .val bs →
    (0 < be2int bs ∧ be2int bs < orderQ →
      (∃ t, exec (.qloadc rd off) s = .next t ∧ OkAfter s t ∧ t.getQ rd = .val (be2int bs)) ∧
      (∃ t, exec (.qloadv rd off) s = .next t ∧ OkAfter s t ∧ t.getQ rd = .val (be2int bs))) ∧
    (be2int bs = 0 ∨ orderQ ≤ be2int bs →
      (∃ t, exec (.qloadc rd off) s = .next t ∧ FailAfter s .invalidScalar t ∧
        t.getQ rd = .bot) ∧
      (∃ t, exec (.qloadv rd off) s = .next t ∧ FailAfter s .invalidScalar t ∧
        t.getQ rd = .bot)) ∧
    (∃ t, exec (.qloadr rd off) s = .next t ∧ OkAfter s t ∧
      t.getQ rd = .val (be2int bs % orderQ))

/-- R184, R186, R188: the store, the sum and the product. -/
def Obligations.ScalarStoreAddMul : Prop :=
  (∀ (s : State) (rs : RegIdx) (off : Byte) (k : Nat), off.toNat + 32 ≤ 256 →
    s.getQ rs = .val k → k < orderQ →
    ∃ t bs, exec (.qstore rs off) s = .next t ∧ OkAfter s t ∧
      readBytes t.mem off.toNat 32 = .val bs ∧ bs.length = 32 ∧ be2int bs = k) ∧
  (∀ (s : State) (rd rs1 rs2 : RegIdx) (k l : Nat), s.getQ rs1 = .val k → s.getQ rs2 = .val l →
    (∃ t, exec (.qadd rd rs1 rs2) s = .next t ∧ OkAfter s t ∧
      t.getQ rd = .val ((k + l) % orderQ)) ∧
    (∃ t, exec (.qmul rd rs1 rs2) s = .next t ∧ OkAfter s t ∧
      t.getQ rd = .val (k * l % orderQ)))

/-- R190, R108: the modular negative or a copy, by the condition mode and T. -/
def Obligations.ScalarNegate : Prop :=
  ∀ (s : State) (rd rs : RegIdx) (cm : CondMode) (k : Nat), s.getQ rs = .val k → k < orderQ →
    ∃ t v, exec (.qnegc rd rs cm) s = .next t ∧ OkAfter s t ∧ t.getQ rd = .val v ∧
      (Negates s cm → (v : Int) = (-(k : Int)) % orderQ) ∧ (¬ Negates s cm → v = k)

/-- R192: QINV leaves v^(q-2) mod q, which is the inverse of v mod q; on 0 it is undefined. -/
def Obligations.ScalarInverse : Prop :=
  ∀ (s : State) (rd rs : RegIdx) (k : Nat), s.getQ rs = .val k → k < orderQ →
    (k ≠ 0 →
      ∃ t v, exec (.qinv rd rs) s = .next t ∧ OkAfter s t ∧ t.getQ rd = .val v ∧
        v = k ^ (orderQ - 2) % orderQ ∧ v < orderQ ∧ k * v % orderQ = 1) ∧
    (k = 0 → exec (.qinv rd rs) s = .fault .invertZero)

/-- R195, R197 with HALF = (q - 1) / 2 of R12. -/
def Obligations.ScalarPredicates : Prop :=
  ∀ (s : State) (rs : RegIdx) (k : Nat), s.getQ rs = .val k →
    (∃ t, exec (.qiszero rs) s = .next t ∧ Answered s (decide (k = 0)) t) ∧
    (∃ t, exec (.qislehalf rs) s = .next t ∧ Answered s (decide (k ≤ (orderQ - 1) / 2)) t)

/-- R199: QISLEHALF then QNEGC with IFNT leaves the smaller of s and q - s, and the pair applied
twice gives the same result as once; R197: for s in [1, q-1] exactly one of s and q - s satisfies
the test. -/
def Obligations.LowSNormalization : Prop :=
  ∀ (s : State) (r : RegIdx) (k : Nat), s.getQ r = .val k → k < orderQ →
    (∃ t, execAll [.qislehalf r, .qnegc r r .ifnt] s = .next t ∧
      t.getQ r = .val (min k (orderQ - k)) ∧
      ∃ u, execAll [.qislehalf r, .qnegc r r .ifnt] t = .next u ∧ u.getQ r = t.getQ r) ∧
    (k ≠ 0 → (k ≤ (orderQ - 1) / 2 ↔ ¬ orderQ - k ≤ (orderQ - 1) / 2))

/-! ### The Point family -/

/-- R212, R216, R219: double, add and negate leave the double, the sum and the opposite. -/
def Obligations.PointGroupCommands : Prop :=
  ∀ (s : State) (rd rs1 rs2 : RegIdx) (a b : Point), s.getP rs1 = .val a → s.getP rs2 = .val b →
    (∃ t, exec (.pdbl rd rs1) s = .next t ∧ OkAfter s t ∧ t.getP rd = .val (a.add a)) ∧
    (∃ t, exec (.padd rd rs1 rs2) s = .next t ∧ OkAfter s t ∧ t.getP rd = .val (a.add b)) ∧
    (∃ t, exec (.pneg rd rs1) s = .next t ∧ OkAfter s t ∧ t.getP rd = .val a.neg)

/-- R211: the sum is the chord-and-tangent law: O is the identity, opposite points sum to O, and
otherwise the slope is that of the tangent or of the chord. -/
def Obligations.AdditionIsChordAndTangent : Prop :=
  (∀ a : Point, Point.add .inf a = a ∧ a.add .inf = a) ∧
  ∀ x1 y1 x2 y2 : Nat, IsCurvePoint x1 y1 → IsCurvePoint x2 y2 →
    (x1 = x2 ∧ (y1 + y2) % primeP = 0 → Point.add (.aff x1 y1) (.aff x2 y2) = .inf) ∧
    (¬ (x1 = x2 ∧ (y1 + y2) % primeP = 0) →
      ∃ l x3 y3 : Nat, Point.add (.aff x1 y1) (.aff x2 y2) = .aff x3 y3 ∧
        x3 < primeP ∧ y3 < primeP ∧
        (x1 = x2 → y1 = y2 ∧ l * (2 * y1) % primeP = 3 * x1 * x1 % primeP) ∧
        (x1 ≠ x2 → (l : Int) * ((x2 : Int) - x1) ≡ (y2 : Int) - y1 [ZMOD primeP]) ∧
        (x3 : Int) ≡ (l : Int) ^ 2 - x1 - x2 [ZMOD primeP] ∧
        (y3 : Int) ≡ (l : Int) * ((x1 : Int) - x3) - y1 [ZMOD primeP])

/-- R211, R233: E with this addition is a commutative group; and no element of it but O is its own
opposite (R219), nor does any have abscissa 0 (R211). -/
def Obligations.PointsFormAGroup : Prop :=
  (∀ a b c : Point, a.valid = true → b.valid = true → c.valid = true →
    (a.add b).valid = true ∧ a.neg.valid = true ∧
    a.add b = b.add a ∧ a.add a.neg = .inf ∧
    (a.add b).add c = a.add (b.add c)) ∧
  (∀ x y : Nat, IsCurvePoint x y → x ≠ 0 ∧ y ≠ 0 ∧ Point.neg (.aff x y) ≠ .aff x y)

/-- R221, R223: equality of group elements, and the test for O. -/
def Obligations.PointPredicates : Prop :=
  ∀ (s : State) (rs1 rs2 : RegIdx) (a b : Point), s.getP rs1 = .val a → s.getP rs2 = .val b →
    (∃ t, exec (.peq rs1 rs2) s = .next t ∧ Answered s (decide (a = b)) t) ∧
    (∃ t, exec (.pisinf rs1) s = .next t ∧ Answered s (decide (a = .inf)) t)

/-- R225, R226: PDECOMP gives the curve point of the abscissa whose ordinate has the parity asked
for, and fails exactly when the abscissa has no curve point. -/
def Obligations.PointDecompression : Prop :=
  ∀ (s : State) (rd rs : RegIdx) (odd : Bool) (a : FieldReg), s.getF rs = .val a →
    (a.norm = .reduced → a.val < primeP →
      (∀ y, y < primeP → onCurve a.val y = true → parity y = odd →
        ∃ t, exec (.pdecomp rd rs odd) s = .next t ∧ OkAfter s t ∧
          t.getP rd = .val (.aff a.val y)) ∧
      ((∀ y, onCurve a.val y = false) →
        ∃ t, exec (.pdecomp rd rs odd) s = .next t ∧ FailAfter s .invalidPoint t ∧
          t.getP rd = .bot)) ∧
    (a.norm = .loose → exec (.pdecomp rd rs odd) s = .fault .notNormalized)

/-- R226: the result of decompression does not depend on which root SQRT_CANDIDATE returns: any
function that keeps R171's promise gives the same. That the model computes decompression with the
suggested root rests on this, log entry 5. -/
def Obligations.DecompressionIgnoresRootChoice : Prop :=
  ∀ sqrt : Nat → Nat, SqrtContract sqrt → ∀ (x : Nat) (odd : Bool), x < primeP →
    decompressWith sqrt x odd = decompress x odd

/-- R228, R229: a raw key is loaded exactly when both coordinates are in range and on the curve. -/
def Obligations.PointLoad : Prop :=
  ∀ (s : State) (rd : RegIdx) (off : Byte) (xb yb : List Byte), off.toNat + 64 ≤ 256 →
    readBytes s.mem off.toNat 32 = .val xb → readBytes s.mem (off.toNat + 32) 32 = .val yb →
    (IsCurvePoint (be2int xb) (be2int yb) →
      ∃ t, exec (.pload rd off) s = .next t ∧ OkAfter s t ∧
        t.getP rd = .val (.aff (be2int xb) (be2int yb))) ∧
    (¬ IsCurvePoint (be2int xb) (be2int yb) →
      ∃ t, exec (.pload rd off) s = .next t ∧ FailAfter s .invalidPoint t ∧ t.getP rd = .bot)

/-- R231: affine coordinates, REDUCED and of magnitude 1; O has none; equal destinations are
illegal and change nothing but STATUS and pc (of `exec` itself, log entry 16). -/
def Obligations.PointToAffine : Prop :=
  ∀ (s : State) (rdx rdy rs : RegIdx),
    (rdx ≠ rdy →
      (∀ x y, s.getP rs = .val (.aff x y) →
        ∃ t, exec (.paff rdx rdy rs) s = .next t ∧ OkAfter s t ∧
          t.getF rdx = .val ⟨x, 1, .reduced⟩ ∧ t.getF rdy = .val ⟨y, 1, .reduced⟩) ∧
      (s.getP rs = .val .inf →
        ∃ t, exec (.paff rdx rdy rs) s = .next t ∧ FailAfter s .invalidPoint t ∧
          t.getF rdx = .bot ∧ t.getF rdy = .bot)) ∧
    (rdx = rdy → exec (.paff rdx rdy rs) s = .next s.illegal)

/-! ### The PointMul family -/

/-- R240, R242, R245, R248, R251: each command completes on every content of the registers it reads,
and leaves what its window loop computes over its tables in rd. PMULG reads a scalar alone. The
masked scan works on triples with Z = 1, log entry 18. -/
def Obligations.PointMulCompletes : Prop :=
  (∀ (s : State) (rd qs : RegIdx) (k : Nat), s.getQ qs = .val k →
    ∃ t, exec (.pmulg rd qs) s = .next t ∧ OkAfter s t ∧
      t.getP rd = .val (mulWindows selectEntry gTable k)) ∧
  (∀ (s : State) (rd qs ps : RegIdx) (k : Nat) (a : Point),
    s.getQ qs = .val k → s.getP ps = .val a →
    ∃ t, exec (.pmul rd qs ps) s = .next t ∧ OkAfter s t ∧
      t.getP rd = .val (mulWindows selectEntry (buildTable a) k)) ∧
  (∀ (s : State) (rd q1 p1 q2 p2 : RegIdx) (k1 k2 : Nat) (a1 a2 : Point),
    s.getQ q1 = .val k1 → s.getP p1 = .val a1 → s.getQ q2 = .val k2 → s.getP p2 = .val a2 →
    ∃ t, exec (.pmul2v rd q1 p1 q2 p2) s = .next t ∧ OkAfter s t ∧
      t.getP rd = .val (mulWindows2 (buildTable a1) (buildTable a2) k1 k2)) ∧
  (∀ (s : State) (rd q1 q2 p2 : RegIdx) (k1 k2 : Nat) (a2 : Point),
    s.getQ q1 = .val k1 → s.getQ q2 = .val k2 → s.getP p2 = .val a2 →
    ∃ t, exec (.pmulg2v rd q1 q2 p2) s = .next t ∧ OkAfter s t ∧
      t.getP rd = .val (mulWindows2 gTable (buildTable a2) k1 k2))

/-- R242, R244, R245, R248, R251: on scalars and points of the files, the four commands leave
k*G, k*A, k1*A1 + k2*A2 and k1*G + k2*A2, with k*A by its definition of R211. PMULG reads a scalar
alone, so it needs no point register with a value. -/
def Obligations.PointMulIsScalarMultiplication : Prop :=
  (∀ (s : State) (rd qs : RegIdx) (k : Nat), s.getQ qs = .val k → k < orderQ →
    ∃ t, exec (.pmulg rd qs) s = .next t ∧ OkAfter s t ∧ t.getP rd = .val (genG.smul k)) ∧
  (∀ (s : State) (rd qs ps : RegIdx) (k : Nat) (a : Point),
    s.getQ qs = .val k → s.getP ps = .val a → k < orderQ → a.valid = true →
    ∃ t, exec (.pmul rd qs ps) s = .next t ∧ OkAfter s t ∧ t.getP rd = .val (a.smul k)) ∧
  (∀ (s : State) (rd q1 p1 q2 p2 : RegIdx) (k1 k2 : Nat) (a1 a2 : Point),
    s.getQ q1 = .val k1 → s.getP p1 = .val a1 → s.getQ q2 = .val k2 → s.getP p2 = .val a2 →
    k1 < orderQ → k2 < orderQ → a1.valid = true → a2.valid = true →
    ∃ t, exec (.pmul2v rd q1 p1 q2 p2) s = .next t ∧ OkAfter s t ∧
      t.getP rd = .val ((a1.smul k1).add (a2.smul k2))) ∧
  (∀ (s : State) (rd q1 q2 p2 : RegIdx) (k1 k2 : Nat) (a2 : Point),
    s.getQ q1 = .val k1 → s.getQ q2 = .val k2 → s.getP p2 = .val a2 →
    k1 < orderQ → k2 < orderQ → a2.valid = true →
    ∃ t, exec (.pmulg2v rd q1 q2 p2) s = .next t ∧ OkAfter s t ∧
      t.getP rd = .val ((genG.smul k1).add (a2.smul k2)))

/-- R241: the masked scan over all sixteen entries gives the entry itself. The scan is the model's
on triples with Z = 1, log entry 18. -/
def Obligations.MaskedScanIsIndex : Prop :=
  ∀ (tab : List Point) (w : Nat), w < 16 → (∀ j, (tab.getD j .inf).InRange) →
    selectEntry tab w = indexEntry tab w

/-- R47, R243: entry i of the generator's table is i*G, and of a point's table i*A. -/
def Obligations.TablesHoldMultiples : Prop :=
  gTable.length = 16 ∧ (∀ i, i < 16 → gTable.getD i .inf = genG.smul i) ∧
  ∀ a : Point, a.valid = true →
    (buildTable a).length = 16 ∧ ∀ i, i < 16 → (buildTable a).getD i .inf = a.smul i

/-- R254, R233: scalar multiplication is linear. For the generator the sum of scalars is taken mod
q, as QADD takes it; for any other point the statement is about sums below q, since that every
point has an order that divides q is the cofactor's claim of R10, not the commands'. -/
def Obligations.ScalarMultiplicationIsLinear : Prop :=
  (∀ (a : Point) (k l : Nat), a.valid = true → k + l < orderQ →
    pointMul (k + l) a = (pointMul k a).add (pointMul l a)) ∧
  (∀ k l : Nat, k < orderQ → l < orderQ →
    pointMulG ((k + l) % orderQ) = (pointMulG k).add (pointMulG l))

/-- R262: k*G is never O for a checked nonce, so signing always has an abscissa to work on. -/
def Obligations.NonceGivesAffinePoint : Prop :=
  ∀ k : Nat, 0 < k → k < orderQ → ∃ x y, pointMulG k = .aff x y ∧ IsCurvePoint x y

/-! ### The Ecdsa family -/

/-- R262, R260: the outcomes of SIGN. In the result r is the abscissa of k*G mod q and v is the
scalar with k*v = z + r*d mod q. -/
def Obligations.SignOutcomes : Prop :=
  ∀ (s : State) (a b c : Byte) (zb db kb : List Byte),
    a.toNat + 32 ≤ 256 → b.toNat + 64 ≤ 256 → c.toNat + 64 ≤ 256 →
    readBytes s.mem a.toNat 32 = .val zb → readBytes s.mem b.toNat 32 = .val db →
    readBytes s.mem (b.toNat + 32) 32 = .val kb →
    (¬ (IsScalar db ∧ IsScalar kb) →
      ∃ t, exec (.sign a b c) s = .next t ∧ FailAfter s .invalidScalar t ∧
        NoValueIn t c.toNat 64) ∧
    (IsScalar db ∧ IsScalar kb →
      ∃ r v : Nat, r = (pointMulG (be2int kb)).affineX % orderQ ∧ v < orderQ ∧
        be2int kb * v % orderQ = (be2int zb + r * be2int db) % orderQ ∧
        (r = 0 ∨ v = 0 →
          ∃ t, exec (.sign a b c) s = .next t ∧ FailAfter s .degenerateSignature t ∧
            NoValueIn t c.toNat 64) ∧
        (r ≠ 0 ∧ v ≠ 0 →
          ∃ t, exec (.sign a b c) s = .next t ∧ OkAfter s t ∧
            readBytes t.mem c.toNat 64 = .val (int2be32 r ++ int2be32 v)))

/-- R265: SIGNLS fails as SIGN does, and writes the smaller of v and q - v, which is at most
HALF. -/
def Obligations.SignLowSOutcomes : Prop :=
  ∀ (s : State) (a b c : Byte) (zb db kb : List Byte),
    a.toNat + 32 ≤ 256 → b.toNat + 64 ≤ 256 → c.toNat + 64 ≤ 256 →
    readBytes s.mem a.toNat 32 = .val zb → readBytes s.mem b.toNat 32 = .val db →
    readBytes s.mem (b.toNat + 32) 32 = .val kb →
    (¬ (IsScalar db ∧ IsScalar kb) →
      ∃ t, exec (.signls a b c) s = .next t ∧ FailAfter s .invalidScalar t ∧
        NoValueIn t c.toNat 64) ∧
    (IsScalar db ∧ IsScalar kb →
      ∃ r v : Nat, r = (pointMulG (be2int kb)).affineX % orderQ ∧ v < orderQ ∧
        be2int kb * v % orderQ = (be2int zb + r * be2int db) % orderQ ∧
        (r = 0 ∨ v = 0 →
          ∃ t, exec (.signls a b c) s = .next t ∧ FailAfter s .degenerateSignature t ∧
            NoValueIn t c.toNat 64) ∧
        (r ≠ 0 ∧ v ≠ 0 →
          ∃ t, exec (.signls a b c) s = .next t ∧ OkAfter s t ∧
            readBytes t.mem c.toNat 64 = .val (int2be32 r ++ int2be32 (min v (orderQ - v))) ∧
            1 ≤ min v (orderQ - v) ∧ min v (orderQ - v) ≤ (orderQ - 1) / 2))

/-- R268, R270: the outcomes of VERIFY, in the order of its checks; at the end the abscissa of
R' = u1*G + u2*Q is compared with r mod q, as R270 derives and log entry 19 takes over. `w` is the
inverse of the signature's second half. -/
def Obligations.VerifyOutcomes : Prop :=
  ∀ (s : State) (a b c : Byte) (zb xb yb rb vb : List Byte),
    a.toNat + 32 ≤ 256 → b.toNat + 64 ≤ 256 → c.toNat + 64 ≤ 256 →
    readBytes s.mem a.toNat 32 = .val zb →
    readBytes s.mem b.toNat 32 = .val xb → readBytes s.mem (b.toNat + 32) 32 = .val yb →
    readBytes s.mem c.toNat 32 = .val rb → readBytes s.mem (c.toNat + 32) 32 = .val vb →
    (¬ IsCurvePoint (be2int xb) (be2int yb) →
      ∃ t, exec (.verify a b c) s = .next t ∧ FailAfter s .invalidPoint t) ∧
    (IsCurvePoint (be2int xb) (be2int yb) ∧ ¬ (IsScalar rb ∧ IsScalar vb) →
      ∃ t, exec (.verify a b c) s = .next t ∧ FailAfter s .invalidScalar t) ∧
    (IsCurvePoint (be2int xb) (be2int yb) ∧ IsScalar rb ∧ IsScalar vb →
      ∃ w : Nat, w < orderQ ∧ be2int vb * w % orderQ = 1 ∧
        (pointMulG2 (be2int zb * w % orderQ) (be2int rb * w % orderQ)
            (.aff (be2int xb) (be2int yb)) = .inf →
          ∃ t, exec (.verify a b c) s = .next t ∧ FailAfter s .verifyMismatch t) ∧
        (∀ x y, pointMulG2 (be2int zb * w % orderQ) (be2int rb * w % orderQ)
            (.aff (be2int xb) (be2int yb)) = .aff x y →
          (x % orderQ = be2int rb →
            ∃ t, exec (.verify a b c) s = .next t ∧ OkAfter s t) ∧
          (x % orderQ ≠ be2int rb →
            ∃ t, exec (.verify a b c) s = .next t ∧ FailAfter s .verifyMismatch t)))

/-- R272: VERIFYLS checks the signature's second half before the key, refuses a high one, and on a
low one is VERIFY. -/
def Obligations.VerifyLowSOutcomes : Prop :=
  ∀ (s : State) (a b c : Byte) (zb pk rb vb : List Byte),
    a.toNat + 32 ≤ 256 → b.toNat + 64 ≤ 256 → c.toNat + 64 ≤ 256 →
    readBytes s.mem a.toNat 32 = .val zb → readBytes s.mem b.toNat 64 = .val pk →
    readBytes s.mem c.toNat 32 = .val rb → readBytes s.mem (c.toNat + 32) 32 = .val vb →
    (¬ IsScalar vb →
      ∃ t, exec (.verifyls a b c) s = .next t ∧ FailAfter s .invalidScalar t) ∧
    (IsScalar vb ∧ (orderQ - 1) / 2 < be2int vb →
      ∃ t, exec (.verifyls a b c) s = .next t ∧ FailAfter s .notLowS t) ∧
    (IsScalar vb ∧ be2int vb ≤ (orderQ - 1) / 2 →
      ∃ t, exec (.verify a b c) s = .next t ∧ exec (.verifyls a b c) s = .next t)

/-- R269, R270: on every triple of a point with Z ≠ 0 the cross-multiplied comparison is the test
that the affine abscissa is r mod q. -/
def Obligations.XmatchIsReduction : Prop :=
  ∀ x z r : Nat, x < primeP → 0 < z → z < primeP → 0 < r → r < orderQ →
    (xmatch (x * z % primeP) z r = true ↔ x % orderQ = r)

/-- R275: SIGNORM replaces a high second half by q minus it and copies the first; a second half
that is no scalar fails; and (R275, low-S idempotence) normalizing the result changes nothing. -/
def Obligations.SignatureNormalization : Prop :=
  ∀ (s : State) (a b : Byte) (rb vb : List Byte),
    a.toNat + 64 ≤ 256 → b.toNat + 64 ≤ 256 →
    readBytes s.mem a.toNat 32 = .val rb → readBytes s.mem (a.toNat + 32) 32 = .val vb →
    (¬ IsScalar vb →
      ∃ t, exec (.signorm a b) s = .next t ∧ FailAfter s .invalidScalar t ∧
        NoValueIn t b.toNat 64) ∧
    (IsScalar vb →
      ∃ t, exec (.signorm a b) s = .next t ∧ OkAfter s t ∧
        readBytes t.mem b.toNat 64 =
          .val (rb ++ int2be32 (min (be2int vb) (orderQ - be2int vb))) ∧
        ∃ u, exec (.signorm b b) t = .next u ∧ u.ok = true ∧ ∀ x, u.cell x = t.cell x)

/-- R278, R280, R284: the conversions between the raw and the tagged forms of a key. -/
def Obligations.KeyFormats : Prop :=
  (∀ (s : State) (a b : Byte) (tag : Byte) (w : List Byte),
    a.toNat + 65 ≤ 256 → b.toNat + 64 ≤ 256 → readBytes s.mem a.toNat 65 = .val (tag :: w) →
    (tag = 0x04#8 →
      ∃ t, exec (.pku2r a b) s = .next t ∧ OkAfter s t ∧ readBytes t.mem b.toNat 64 = .val w) ∧
    (tag ≠ 0x04#8 →
      ∃ t, exec (.pku2r a b) s = .next t ∧ FailAfter s .malformedEncoding t ∧
        NoValueIn t b.toNat 64)) ∧
  (∀ (s : State) (a b : Byte) (w : List Byte),
    a.toNat + 64 ≤ 256 → b.toNat + 65 ≤ 256 → readBytes s.mem a.toNat 64 = .val w →
    ∃ t, exec (.pkr2u a b) s = .next t ∧ OkAfter s t ∧
      readBytes t.mem b.toNat 65 = .val (0x04#8 :: w)) ∧
  (∀ (s : State) (a b : Byte) (xb yb : List Byte),
    a.toNat + 64 ≤ 256 → b.toNat + 33 ≤ 256 →
    readBytes s.mem a.toNat 32 = .val xb → readBytes s.mem (a.toNat + 32) 32 = .val yb →
    ∃ t, exec (.pkr2c a b) s = .next t ∧ OkAfter s t ∧
      readBytes t.mem b.toNat 33 =
        .val ((if be2int yb % 2 = 0 then 0x02#8 else 0x03#8) :: xb))

/-- R282: PKC2R gives the curve point of the abscissa whose ordinate has the tag's parity; the tag
is checked first, then the range, then the residue. -/
def Obligations.KeyDecompression : Prop :=
  ∀ (s : State) (a b : Byte) (tag : Byte) (xb : List Byte),
    a.toNat + 33 ≤ 256 → b.toNat + 64 ≤ 256 → readBytes s.mem a.toNat 33 = .val (tag :: xb) →
    (tag ≠ 0x02#8 ∧ tag ≠ 0x03#8 →
      ∃ t, exec (.pkc2r a b) s = .next t ∧ FailAfter s .malformedEncoding t ∧
        NoValueIn t b.toNat 64) ∧
    ((tag = 0x02#8 ∨ tag = 0x03#8) ∧ ¬ (∃ y, IsCurvePoint (be2int xb) y) →
      ∃ t, exec (.pkc2r a b) s = .next t ∧ FailAfter s .invalidPoint t ∧
        NoValueIn t b.toNat 64) ∧
    (∀ y, (tag = 0x02#8 ∧ y % 2 = 0) ∨ (tag = 0x03#8 ∧ y % 2 = 1) →
      IsCurvePoint (be2int xb) y →
      ∃ t, exec (.pkc2r a b) s = .next t ∧ OkAfter s t ∧
        readBytes t.mem b.toNat 64 = .val (xb ++ int2be32 y))

/-- R286, "Compression round-trip": compressing the raw key of a curve point and decompressing it
again gives the same bytes. -/
def Obligations.CompressionRoundTrip : Prop :=
  ∀ (s : State) (a b c : Byte) (x y : Nat),
    a.toNat + 64 ≤ 256 → b.toNat + 33 ≤ 256 → c.toNat + 64 ≤ 256 → IsCurvePoint x y →
    readBytes s.mem a.toNat 64 = .val (int2be32 x ++ int2be32 y) →
    ∃ t, execAll [.pkr2c a b, .pkc2r b c] s = .next t ∧ t.ok = true ∧
      readBytes t.mem c.toNat 64 = .val (int2be32 x ++ int2be32 y)

/-- R286, "Round-trip": a signature made with a private key verifies against the public key of that
private key, and a low-S signature verifies under the low-S check. The output region of the
signature overlaps neither the digest nor the key. -/
def Obligations.SignThenVerify : Prop :=
  ∀ (s t : State) (a b c e : Byte) (db : List Byte) (x y : Nat),
    e.toNat + 64 ≤ 256 → b.toNat + 64 ≤ 256 →
    (c.toNat + 64 ≤ a.toNat ∨ a.toNat + 32 ≤ c.toNat) →
    (c.toNat + 64 ≤ e.toNat ∨ e.toNat + 64 ≤ c.toNat) →
    readBytes s.mem b.toNat 32 = .val db → pointMulG (be2int db) = .aff x y →
    readBytes s.mem e.toNat 64 = .val (int2be32 x ++ int2be32 y) →
    t.ok = true →
    (exec (.sign a b c) s = .next t →
      ∃ u, exec (.verify a e c) t = .next u ∧ u.ok = true) ∧
    (exec (.signls a b c) s = .next t →
      (∃ u, exec (.verify a e c) t = .next u ∧ u.ok = true) ∧
      (∃ u, exec (.verifyls a e c) t = .next u ∧ u.ok = true))

/-- R49, R286 "Determinism": the Ecdsa commands read BUF alone: from two states with the same BUF
they end alike, with the same BUF, OK and ERR, and they leave every register and T as they were. -/
def Obligations.EcdsaUsesBufAlone : Prop :=
  ∀ (i : Instr) (s s' : State), i.ofEcdsa = true → s.mem = s'.mem →
    (∀ t, exec i s = .next t →
      t.fReg = s.fReg ∧ t.qReg = s.qReg ∧ t.pReg = s.pReg ∧ t.t = s.t ∧
      ∃ t', exec i s' = .next t' ∧ t'.mem = t.mem ∧ t'.ok = t.ok ∧ t'.err = t.err) ∧
    (∀ f, exec i s = .fault f → exec i s' = .fault f)

/-! ### The whole machine -/

/-- R19, R100, R300, R50: every command ends in `ok`, in `fail` or in a fault, and is never
refused; `ok` and `fail` report in STATUS and advance pc by one. -/
def Obligations.EveryCommandReports : Prop :=
  ∀ (i : Instr) (s : State),
    (∃ t, exec i s = .next t ∧ t.busy = false ∧ t.done = true ∧ t.pc = s.pc + 1 ∧
      ((t.ok = true ∧ t.err = .none) ∨ (t.ok = false ∧ t.err ≠ .none))) ∨
    (∃ f, exec i s = .fault f)

/-- R33, R313 (2): a legal command with a source that holds ⊥ ends in `fault ReadNoValue`, before
any other fault or failure of it. -/
def Obligations.ReadingNoValueFaults : Prop :=
  ∀ (i : Instr) (s : State), i.WellFormed → ReadsNoValue i s → exec i s = .fault .readNoValue

/-- R317: a command faults only by reading ⊥ or by the precondition its rule names, and never when
it is illegal (R311; of `exec` itself, log entry 16). -/
def Obligations.FaultsOnlyWhereNamed : Prop :=
  ∀ (i : Instr) (s : State) (f : Fault), exec i s = .fault f →
    i.WellFormed ∧ ((f = .readNoValue ∧ ReadsNoValue i s) ∨
      (f ≠ .readNoValue ∧ f ∈ i.footprint.faults ∧ ¬ ReadsNoValue i s))

/-- R312: which command can end in which failure. That `exec` itself fails IllegalCommand on a command
no word decodes to is the model's form of R109, log entry 16. -/
def Obligations.FailuresOnlyAsListed : Prop :=
  ∀ (i : Instr) (s t : State), exec i s = .next t → t.ok = false →
    (¬ i.WellFormed ∧ t.err = .illegalCommand) ∨ (i.WellFormed ∧ t.err ∈ i.footprint.fails)

/-- R301: what a failure changes: every destination register and output region holds ⊥, except
after IllegalCommand (of `exec` itself, log entry 16), which changes no register and no BUF cell; T
is unchanged. -/
def Obligations.FailureLeavesNoValue : Prop :=
  ∀ (i : Instr) (s t : State), exec i s = .next t → t.ok = false →
    t.t = s.t ∧
    (t.err ≠ .illegalCommand →
      (∀ r ∈ i.footprint.dstF, t.getF r = .bot) ∧ (∀ r ∈ i.footprint.dstQ, t.getQ r = .bot) ∧
      (∀ r ∈ i.footprint.dstP, t.getP r = .bot) ∧
      (∀ g ∈ i.footprint.writes, NoValueIn t g.1 g.2)) ∧
    (t.err = .illegalCommand →
      t.fReg = s.fReg ∧ t.qReg = s.qReg ∧ t.pReg = s.pReg ∧ t.mem = s.mem)

/-- The register frame of every command (R20, R34, R38, R49, R53): a command changes no register
but the destinations its rule names, T only if it is a predicate (R42), and nothing of the host's
side or of the implementation's parameters. `footprint` names the destinations of each command. -/
def Obligations.RegisterFrame : Prop :=
  ∀ (i : Instr) (s t : State), exec i s = .next t →
    (∀ r, r ∉ i.footprint.dstF → t.getF r = s.getF r) ∧
    (∀ r, r ∉ i.footprint.dstQ → t.getQ r = s.getQ r) ∧
    (∀ r, r ∉ i.footprint.dstP → t.getP r = s.getP r) ∧
    (i.footprint.writesT = false → t.t = s.t) ∧
    t.program = s.program ∧ t.host = s.host ∧ t.replies = s.replies ∧
    t.faultMark = s.faultMark ∧ t.freeCount = s.freeCount ∧
    t.magLimit = s.magLimit ∧ t.magMul = s.magMul

/-- The memory frame of every command (R20, R70, R76, R78): every cell outside the regions the
command writes reads as before; a command that writes none leaves all of BUF. -/
def Obligations.MemoryFrame : Prop :=
  ∀ (i : Instr) (s t : State), exec i s = .next t →
    ∀ x, OutsideAll i.footprint.writes x → t.cell x = s.cell x

/-- R17, R72, R141, R143, R183, R184: what is stored and loaded again at the same offset is the
value stored. -/
def Obligations.StoreThenLoad : Prop :=
  (∀ (s : State) (rs rd : RegIdx) (off : Byte) (v : Nat), off.toNat + 32 ≤ 256 →
    s.getF rs = .val ⟨v, 1, .reduced⟩ → v < primeP →
    ∃ t, execAll [.fstore rs off, .floads rd off] s = .next t ∧ t.ok = true ∧
      t.getF rd = .val ⟨v, 1, .reduced⟩) ∧
  (∀ (s : State) (rs rd : RegIdx) (off : Byte) (k : Nat), off.toNat + 32 ≤ 256 →
    s.getQ rs = .val k → k < orderQ →
    ∃ t, execAll [.qstore rs off, .qloadr rd off] s = .next t ∧ t.ok = true ∧
      t.getQ rd = .val k)

/-! ### STATUS, the host and reset -/

/-- R43, R44: the layout of STATUS, and what a status read returns: outside a command it is STATUS;
during one, BUSY, DONE, T and the zero bits still are. OK and ERR are then free bits of the model
(log entry 11). -/
def Obligations.StatusLayout : Prop :=
  ∀ s : State,
    s.statusWord.getLsbD 0 = s.busy ∧ s.statusWord.getLsbD 1 = s.done ∧
    s.statusWord.getLsbD 2 = s.ok ∧ s.statusWord.getLsbD 3 = s.t ∧
    s.statusWord.extractLsb' 4 4 = s.err.number ∧
    (∀ i, 8 ≤ i → s.statusWord.getLsbD i = false) ∧
    (s.busy = false → s.statusRead = s.statusWord) ∧
    (s.busy = true →
      ∀ i, i = 0 ∨ i = 1 ∨ i = 3 ∨ 8 ≤ i → s.statusRead.getLsbD i = s.statusWord.getLsbD i)

/-- R87, R88, R89: the host's transactions, each with the whole state it leaves. While BUSY = 0 a
write changes its own cells of BUF alone; a read returns the cells and changes nothing of the core,
and a read of a cell without a value is `fault ReadNoValue` (U1, R340; R87 words it otherwise, log
entry 10); an issue is the acceptance of the word (BUSY rises and DONE falls; log entries 13 and 26).
A status read is allowed always. The wait for DONE runs the word in flight in one step (log entry
13). Any other transaction while BUSY = 1 is `fault HostProtocol`. That an access past offset 255
faults `hostRange` is the model's choice, log entry 12. -/
def Obligations.HostTransactions : Prop :=
  ∀ (s : State) (rest : List HostTxn), s.faultMark = none →
    (∀ a bs, s.host = .writeBuf a bs :: rest → s.busy = false →
      (a + bs.length ≤ 256 →
        ∃ m, step s = .next { s with host := rest, mem := m } ∧
          readBytes m a bs.length = .val bs ∧
          ∀ x, x < a ∨ a + bs.length ≤ x → cellAt m x = s.cell x) ∧
      (256 < a + bs.length → step s = .fault .hostRange)) ∧
    (∀ a n, s.host = .readBuf a n :: rest → s.busy = false →
      (a + n ≤ 256 →
        (∀ bs : List Byte, bs.length = n → (∀ i b, bs[i]? = some b → s.cell (a + i) = .val b) →
          step s = .next { s with host := rest, replies := .bytes bs :: s.replies }) ∧
        ((∃ x, a ≤ x ∧ x < a + n ∧ s.cell x = .bot) → step s = .fault .readNoValue)) ∧
      (256 < a + n → step s = .fault .hostRange)) ∧
    (∀ w, s.host = .issue :: rest → s.busy = false → s.program[s.pc]? = some w →
      step s = .next { s with host := rest, inFlight := some w, done := false }) ∧
    (s.host = .readStatus :: rest →
      step s = .next { s with
        host := rest, replies := .status s.statusRead :: s.replies,
        freeCount := s.freeCount + 1 }) ∧
    (s.host = .poll :: rest →
      (∀ w, s.inFlight = some w → step s = runWord w { s with host := rest }) ∧
      (s.inFlight = none → step s = .next { s with host := rest })) ∧
    (∀ x, s.host = x :: rest → s.busy = true →
      (x = .issue ∨ (∃ a bs, x = .writeBuf a bs) ∨ (∃ a n, x = .readBuf a n)) →
      step s = .fault .hostProtocol)

/-- R52, R340, R342: the reset state, and a reset in any state, busy or faulted, whatever was in
flight; that the host's program and script stay is the model's choice, log entry 14. The last clause,
that every step of a marked state but a reset is that same fault, is the model's form of R51's sticky
mark, log entry 15. -/
def Obligations.ResetState : Prop :=
  State.reset.AtReset ∧
  (∀ (s : State) (rest : List HostTxn), s.host = .reset :: rest →
    ∃ t, step s = .next t ∧ t.AtReset ∧ t.host = rest ∧ t.program = s.program) ∧
  (∀ (s : State) (f : Fault), s.faultMark = some f → s.host.head? ≠ some .reset →
    step s = .fault f)

/-! ### Invariants -/

/-- The reset state meets the invariants of the two statements below. Its magnitude budget is the
model's choice of the suggested values, log entry 3. -/
def Obligations.ResetMeetsInvariants : Prop :=
  State.reset.Wf ∧ State.reset.PointsOnCurve

/-- R31, R37, R39, R43, R46: every step keeps BUF in canonical form, the registers in their ranges,
REDUCED of magnitude 1, an admissible budget, BUSY and DONE apart, and OK in accord with ERR. The
canonical form of BUF is the model's, log entry 25. -/
def Obligations.StepKeepsInvariant : Prop :=
  ∀ s t : State, s.Wf → step s = .next t → t.Wf

/-- R40: from a state whose registers are in their ranges, which `StepKeepsInvariant` keeps, every
step keeps every point register on the curve, at O or without a value. The ranges are needed:
PDECOMP takes its abscissa from a field register. -/
def Obligations.StepKeepsPointsOnCurve : Prop :=
  ∀ s t : State, s.Wf → s.PointsOnCurve → step s = .next t → t.PointsOnCurve

/-! ### The fault mark -/

/-- R50, R51: what a run keeps of a step that faults is its own state, pc included, with the fault
mark set, and from then on the step is that same fault; a step that completes leaves no mark.
`State.record` is the model's form of the mark, log entry 15. -/
def Obligations.FaultsAreMarked : Prop :=
  (∀ (s : State) (f : Fault), step s = .fault f →
    s.record (step s) = { s with faultMark := some f } ∧ (s.record (step s)).pc = s.pc ∧
    step (s.record (step s)) = .fault f) ∧
  (∀ s t : State, step s = .next t → s.record (step s) = t ∧ t.faultMark = none)
end

