-- ==== Sys2Proof/Laws/Arith.lean ====
section
/-! SUPPORT. What the modular operations compute: powers are powers, results are residues, bytes and
integers convert back and forth. -/

namespace Sys2Proof.Machine

theorem primeP_pos : 0 < primeP := by decide
theorem orderQ_pos : 0 < orderQ := by decide
theorem primeP_lt : primeP < 2 ^ 256 := by decide
theorem orderQ_lt : orderQ < primeP := by decide

theorem subMod_lt {m : Nat} (a b : Nat) (h : 0 < m) : subMod m a b < m := Nat.mod_lt _ h
theorem negMod_lt {m : Nat} (a : Nat) (h : 0 < m) : negMod m a < m := Nat.mod_lt _ h

/-- `subMod` is the least non-negative residue of the exact difference (R15). -/
theorem subMod_eq {m : Nat} (a b : Nat) (h : 0 < m) :
    (subMod m a b : Int) = ((a : Int) - b) % m := by
  have hb : b % m < m := Nat.mod_lt _ h
  unfold subMod
  rw [Int.natCast_emod, Int.natCast_add, Int.natCast_sub hb.le]
  rw [show (a : Int) + (m - (b % m : Nat)) = (a - b) + m * (1 + b / m) by
    have := Int.emod_add_mul_ediv (b : Int) m
    push_cast
    linarith]
  rw [Int.add_mul_emod_self_left]

/-- `negMod` of a residue is the residue of its negation (R144, R185). -/
theorem negMod_eq {m a : Nat} (h : a < m) : (negMod m a : Int) = (-(a : Int)) % m := by
  unfold negMod
  rw [Int.natCast_emod, Int.natCast_sub h.le, sub_eq_neg_add, Int.add_emod_right]

/-! ### Powers (R15, R193) -/

theorem powLoop_eq (m n : Nat) : ∀ b e acc : Nat, e < 2 ^ n → acc < m →
    powLoop m n b e acc = acc * b ^ e % m := by
  induction n with
  | zero =>
    intro b e acc he ha
    have : e = 0 := by simpa using he
    simp [powLoop, this, Nat.mod_eq_of_lt ha]
  | succ n ih =>
    intro b e acc he ha
    have hm : 0 < m := by omega
    have he2 : e / 2 < 2 ^ n := by
      rw [pow_succ] at he
      omega
    have hpow : (b * b % m) ^ (e / 2) ≡ b ^ (2 * (e / 2)) [MOD m] := by
      rw [pow_mul, pow_two]
      exact (Nat.mod_modEq _ _).pow _
    rw [powLoop]
    by_cases h2 : e % 2 = 1
    · rw [if_pos h2, ih _ _ _ he2 (Nat.mod_lt _ hm)]
      have h : acc * b ^ e = acc * b * b ^ (2 * (e / 2)) := by
        conv_lhs => rw [show e = 2 * (e / 2) + 1 by omega, pow_succ]
        ring
      rw [h]
      exact (Nat.mod_modEq _ _).mul hpow
    · rw [if_neg h2, ih _ _ _ he2 ha]
      have h : acc * b ^ e = acc * b ^ (2 * (e / 2)) := by
        conv_lhs => rw [show e = 2 * (e / 2) by omega]
      rw [h]
      exact Nat.ModEq.rfl.mul hpow

/-- `powMod` is modular exponentiation (R15). -/
theorem powMod_eq {m b e : Nat} (hm : 1 < m) (he : e < 2 ^ 256) : powMod m b e = b ^ e % m := by
  rw [powMod, powLoop_eq m 256 _ _ _ he hm, one_mul]
  exact (Nat.mod_modEq _ _).pow _

theorem powMod_lt {m b e : Nat} (hm : 1 < m) (he : e < 2 ^ 256) : powMod m b e < m := by
  rw [powMod_eq hm he]
  exact Nat.mod_lt _ (by omega)

theorem finv_eq (v : Nat) : finv v = v ^ (primeP - 2) % primeP :=
  powMod_eq (by decide) (by decide)

theorem qinv_eq (v : Nat) : qinv v = v ^ (orderQ - 2) % orderQ :=
  powMod_eq (by decide) (by decide)

theorem principalRoot_eq (v : Nat) : principalRoot v = v ^ ((primeP + 1) / 4) % primeP :=
  powMod_eq (by decide) (by decide)

theorem principalRoot_lt (v : Nat) : principalRoot v < primeP := powMod_lt (by decide) (by decide)

/-- Whatever the free values are, the candidate root is a field value (R171). -/
theorem sqrtCandidate_lt (v : Nat) : sqrtCandidate v < primeP := by
  unfold sqrtCandidate
  split
  · split
    · exact negMod_lt _ primeP_pos
    · exact principalRoot_lt v
  · exact Nat.mod_lt _ primeP_pos

/-! ### Bytes (R17) -/

theorem int2be_length (v n : Nat) : (int2be v n).length = n := by
  induction n with
  | zero => rfl
  | succ n ih => simp [int2be, ih]

theorem int2be32_length (v : Nat) : (int2be32 v).length = 32 := int2be_length v 32

theorem foldl_int2be (v : Nat) : ∀ n acc : Nat,
    (int2be v n).foldl (fun a b => a * 256 + b.toNat) acc = acc * 256 ^ n + v % 256 ^ n := by
  intro n
  induction n with
  | zero => intro acc; simp [int2be, Nat.mod_one]
  | succ n ih =>
    intro acc
    simp only [int2be, List.foldl_cons, ih, BitVec.toNat_ofNat]
    rw [pow_succ 256 n, Nat.mod_mul]
    simp only [show (2 : Nat) ^ 8 = 256 from rfl]
    ring

/-- `be2int` undoes `int2be32` on 256-bit values (R17). -/
theorem be2int_int2be32 {v : Nat} (h : v < 2 ^ 256) : be2int (int2be32 v) = v := by
  have := foldl_int2be v 32 0
  rw [zero_mul, zero_add, Nat.mod_eq_of_lt (by simpa using h)] at this
  exact this

theorem lowS_le {v : Nat} (h : v < orderQ) : lowS v ≤ halfQ := by
  have hq : orderQ = 2 * halfQ + 1 := by decide
  unfold lowS
  split <;> omega

end Sys2Proof.Machine
end

