-- ==== Sys2Proof/Laws/Encode.lean ====
section
/-! SUPPORT. The fields of a word made of four fields, and the fields of a byte made of nibbles. -/

namespace Sys2Proof

/-- The bits of a word made of four fields. -/
theorem getLsbD_mkWord (op a b c : Byte) (i : Nat) : (mkWord op a b c).getLsbD i =
    if i < 8 then c.getLsbD i else if i < 16 then b.getLsbD (i - 8)
    else if i < 24 then a.getLsbD (i - 16) else op.getLsbD (i - 24) := by
  show (op ++ a ++ b ++ c : BitVec (8 + 8 + 8 + 8)).getLsbD i = _
  rw [BitVec.getLsbD_append, BitVec.getLsbD_append, BitVec.getLsbD_append]
  by_cases h1 : i < 8
  · simp [h1]
  by_cases h2 : i < 16
  · simp [h1, h2, show i - 8 < 8 by omega]
  by_cases h3 : i < 24
  · simp [h1, h2, h3, show ¬ i - 8 < 8 by omega, show i - 8 - 8 = i - 16 by omega,
      show i - 16 < 8 by omega]
  · simp [h1, h2, h3, show ¬ i - 8 < 8 by omega, show i - 8 - 8 = i - 16 by omega,
      show ¬ i - 16 < 8 by omega, show i - 16 - 8 = i - 24 by omega]

@[simp] theorem opField_mkWord (op a b c : Byte) : opField (mkWord op a b c) = op := by
  apply BitVec.eq_of_getLsbD_eq
  intro i hi
  rw [opField, BitVec.getLsbD_extractLsb', getLsbD_mkWord, if_neg (by omega), if_neg (by omega),
    if_neg (by omega)]
  simp [hi]

@[simp] theorem aField_mkWord (op a b c : Byte) : aField (mkWord op a b c) = a := by
  apply BitVec.eq_of_getLsbD_eq
  intro i hi
  rw [aField, BitVec.getLsbD_extractLsb', getLsbD_mkWord, if_neg (by omega), if_neg (by omega),
    if_pos (by omega)]
  simp [hi]

@[simp] theorem bField_mkWord (op a b c : Byte) : bField (mkWord op a b c) = b := by
  apply BitVec.eq_of_getLsbD_eq
  intro i hi
  rw [bField, BitVec.getLsbD_extractLsb', getLsbD_mkWord, if_neg (by omega), if_pos (by omega)]
  simp [hi]

@[simp] theorem cField_mkWord (op a b c : Byte) : cField (mkWord op a b c) = c := by
  apply BitVec.eq_of_getLsbD_eq
  intro i hi
  rw [cField, BitVec.getLsbD_extractLsb', getLsbD_mkWord, if_pos (by omega)]
  simp [hi]

/-- Masking acts on each field. -/
theorem mkWord_and (op a b c op' a' b' c' : Byte) :
    mkWord op a b c &&& mkWord op' a' b' c' =
      mkWord (op &&& op') (a &&& a') (b &&& b') (c &&& c') := by
  apply BitVec.eq_of_getLsbD_eq
  intro i _
  simp only [BitVec.getLsbD_and, getLsbD_mkWord]
  split
  · rfl
  · split
    · rfl
    · split <;> rfl

@[simp] theorem lowNib_regField (r : RegIdx) : lowNib (regField r) = r := by
  revert r; decide

@[simp] theorem lowNib_pairField (h l : RegIdx) : lowNib (pairField h l) = l := by
  revert h l; decide

@[simp] theorem highNib_pairField (h l : RegIdx) : highNib (pairField h l) = h := by
  revert h l; decide

@[simp] theorem condModeOf_condField (m : CondMode) : condModeOf (condField m) = m := by
  cases m <;> decide

@[simp] theorem oddOf_oddField (b : Bool) : oddOf (oddField b) = b := by
  cases b <;> decide

/-- The must-be-zero bits of a register field are zero (R102). -/
@[simp] theorem regField_and (r : RegIdx) : regField r &&& 0xF0#8 = 0#8 := by
  revert r; decide

@[simp] theorem pairField_zero_and (h : RegIdx) : pairField h 0#4 &&& 0x0F#8 = 0#8 := by
  revert h; decide

@[simp] theorem condField_and (m : CondMode) : condField m &&& 0xFC#8 = 0#8 := by
  cases m <;> decide

@[simp] theorem oddField_and (b : Bool) : oddField b &&& 0xFE#8 = 0#8 := by
  cases b <;> decide

end Sys2Proof
end

