-- ==== Sys2Proof/Laws/Primes.lean ====
section
/-! SUPPORT. p and q are prime (R8, R9), by Lucas certificates evaluated with `powMod`. -/

namespace Sys2Proof.Machine

/-- A Lucas certificate: the prime factors of n - 1 and a base of full order. -/
theorem prime_of_cert (n a : Nat) (fs : List Nat) (hn : 1 < n) (hb : n < 2 ^ 256)
    (hf : ∀ f ∈ fs, f.Prime) (hp : fs.prod = n - 1) (ha : powMod n a (n - 1) = 1)
    (hd : ∀ f ∈ fs, powMod n a ((n - 1) / f) ≠ 1) : n.Prime := by
  have key : ∀ e, e < 2 ^ 256 → ((a : ZMod n) ^ e = 1 ↔ powMod n a e = 1) := by
    intro e he
    rw [powMod_eq hn he, ← Nat.cast_pow, ← Nat.cast_one, ZMod.natCast_eq_natCast_iff, Nat.ModEq,
      Nat.mod_eq_of_lt hn]
  have hlt : n - 1 < 2 ^ 256 := by omega
  refine lucas_primality n (a : ZMod n) ((key _ hlt).2 ha) fun r hr hdvd => ?_
  obtain ⟨f, hfm, hrf⟩ := (Prime.dvd_prod_iff hr.prime).1 (hp ▸ hdvd)
  obtain rfl := (Nat.prime_dvd_prime_iff_eq hr (hf f hfm)).1 hrf
  exact mt (key _ (lt_of_le_of_lt (Nat.div_le_self _ _) hlt)).1 (hd _ hfm)

/-- A certificate of a number: its base and the prime factors of the number less 1. -/
structure PrimeCert where
  number : Nat
  base : Nat
  factors : List Nat

/-- The certificate checks, where its factors are among the numbers `known`. -/
def PrimeCert.check (known : List Nat) (c : PrimeCert) : Bool :=
  decide (1 < c.number) && decide (c.number < 2 ^ 256) && c.factors.all (known.contains ·) &&
    c.factors.prod == c.number - 1 && powMod c.number c.base (c.number - 1) == 1 &&
    c.factors.all (fun f => powMod c.number c.base ((c.number - 1) / f) != 1)

/-- Certificates checked in order, each number joining the known ones. -/
def PrimeCert.checkAll : List Nat → List PrimeCert → Bool
  | _, [] => true
  | known, c :: cs => c.check known && PrimeCert.checkAll (c.number :: known) cs

theorem PrimeCert.prime_of_checkAll : ∀ (known : List Nat) (cs : List PrimeCert),
    (∀ k ∈ known, k.Prime) → PrimeCert.checkAll known cs = true → ∀ c ∈ cs, c.number.Prime := by
  intro known cs
  induction cs generalizing known with
  | nil => simp
  | cons c cs ih =>
    intro hk h
    rw [PrimeCert.checkAll, Bool.and_eq_true] at h
    obtain ⟨hc, hcs⟩ := h
    simp only [PrimeCert.check, Bool.and_eq_true, decide_eq_true_eq, List.all_eq_true,
      List.contains_iff_mem, beq_iff_eq, bne_iff_ne] at hc
    obtain ⟨⟨⟨⟨⟨h1, h2⟩, h3⟩, h4⟩, h5⟩, h6⟩ := hc
    have hp : c.number.Prime :=
      prime_of_cert c.number c.base c.factors h1 h2 (fun f hf => hk f (h3 f hf)) h4 h5 h6
    exact List.forall_mem_cons.2 ⟨hp, ih _ (List.forall_mem_cons.2 ⟨hp, hk⟩) hcs⟩

/-- The primes the certificates start from. -/
def smallPrimes : List Nat :=
  [2, 3, 5, 7, 11, 17, 29, 31, 41, 53, 59, 97, 109, 149, 293, 461, 631, 797, 971, 1373, 1627,
   1871, 2011, 2621, 2657, 2731, 4051, 4423, 5323, 7723, 9349, 13441, 16699, 20113, 24809, 28181,
   41201, 85831, 96557, 120233]

theorem smallPrimes_prime : ∀ k ∈ smallPrimes, k.Prime := by
  simp only [smallPrimes, List.forall_mem_cons]
  norm_num

/-- The certificates of p, q and the primes they need. -/
def primeCerts : List PrimeCert :=
  [⟨1206781, 10,
     [2, 2, 3, 5, 20113]⟩,
   ⟨7240687, 3,
     [2, 3, 1206781]⟩,
   ⟨107590001, 3,
     [2, 2, 2, 2, 5, 5, 5, 5, 7, 29, 53]⟩,
   ⟨255515944373312847190720520512484175977, 3,
     [2, 2, 2, 7, 7, 11, 1627, 2657, 4423, 41201, 96557, 7240687, 107590001]⟩,
   ⟨13331831, 13,
     [2, 5, 971, 1373]⟩,
   ⟨173378833005251801, 6,
     [2, 2, 2, 5, 5, 2621, 24809, 13331831]⟩,
   ⟨22149492674086928081353, 5,
     [2, 2, 2, 3, 5323, 173378833005251801]⟩,
   ⟨132896956044521568488119, 6,
     [2, 3, 22149492674086928081353]⟩,
   ⟨205115282021455665897114700593932402728804164701536103180137503955397371, 10,
     [2, 3, 5, 29, 29, 31, 7723, 132896956044521568488119, 255515944373312847190720520512484175977]⟩,
   ⟨primeP, 3,
     [2, 3, 7, 13441, 205115282021455665897114700593932402728804164701536103180137503955397371]⟩,
   ⟨44706919, 6,
     [2, 3, 797, 9349]⟩,
   ⟨174723607534414371449, 3,
     [2, 2, 2, 17, 59, 4051, 120233, 44706919]⟩,
   ⟨4681609, 23,
     [2, 2, 2, 3, 97, 2011]⟩,
   ⟨107361793816595537, 3,
     [2, 2, 2, 2, 16699, 85831, 4681609]⟩,
   ⟨305873, 3,
     [2, 2, 2, 2, 7, 2731]⟩,
   ⟨1627771, 3,
     [2, 3, 5, 29, 1871]⟩,
   ⟨297159362677, 2,
     [2, 2, 3, 3, 11, 461, 1627771]⟩,
   ⟨545358713, 5,
     [2, 2, 2, 41, 59, 28181]⟩,
   ⟨29047611873442575647497758179, 2,
     [2, 293, 305873, 545358713, 297159362677]⟩,
   ⟨341948486974166000522343609283189, 2,
     [2, 2, 3, 3, 3, 109, 29047611873442575647497758179]⟩,
   ⟨orderQ, 7,
     [2, 2, 2, 2, 2, 2, 3, 149, 631, 107361793816595537, 174723607534414371449,
      341948486974166000522343609283189]⟩]

theorem primeCerts_check : PrimeCert.checkAll smallPrimes primeCerts = true := by decide +kernel

theorem primeCerts_prime : ∀ c ∈ primeCerts, c.number.Prime :=
  PrimeCert.prime_of_checkAll _ _ smallPrimes_prime primeCerts_check

/-- p is prime (R8). -/
theorem prime_p : Nat.Prime primeP := primeCerts_prime _ (List.mem_of_getElem? (i := 9) rfl)

/-- q is prime (R9). -/
theorem prime_q : Nat.Prime orderQ := primeCerts_prime _ (List.mem_of_getElem? (i := 20) rfl)

end Sys2Proof.Machine
end

