-- ==== Sys2Proof/Laws/Group.lean ====
section
/-! SUPPORT. The points of R211 denote the points of a Weierstrass curve of Mathlib over the integers
mod p, and `Point.add`, `Point.neg` and `Point.smul` denote its group operations. -/

namespace Sys2Proof.Machine

/-- The curve y^2 = x^3 + 7 mod p (R10). -/
def curve : WeierstrassCurve.Affine (ZMod primeP) := ⟨0, 0, 0, 0, 7⟩

/-- A point of the model denotes a point of the curve: O the neutral element, a pair of residues the
affine point with those coordinates. -/
def Point.Denotes : Point → curve.Point → Prop
  | .inf, .zero => True
  | .aff x y, .some u v _ => x < primeP ∧ y < primeP ∧ (x : ZMod primeP) = u ∧ (y : ZMod primeP) = v
  | _, _ => False

/-! ### Residues in the field -/

theorem cast_inj {a b : Nat} (ha : a < primeP) (hb : b < primeP) :
    (a : ZMod primeP) = b ↔ a = b := by
  rw [ZMod.natCast_eq_natCast_iff', Nat.mod_eq_of_lt ha, Nat.mod_eq_of_lt hb]

theorem cast_eq_zero {a : Nat} : (a : ZMod primeP) = 0 ↔ a % primeP = 0 := by
  rw [ZMod.natCast_eq_zero_iff, Nat.dvd_iff_mod_eq_zero]

theorem cast_mod (a : Nat) : ((a % primeP : Nat) : ZMod primeP) = a := ZMod.natCast_mod a primeP

theorem cast_subMod (a b : Nat) : ((subMod primeP a b : Nat) : ZMod primeP) = a - b := by
  have h : b % primeP ≤ primeP := (Nat.mod_lt _ primeP_pos).le
  rw [subMod, cast_mod, Nat.cast_add, Nat.cast_sub h, cast_mod, ZMod.natCast_self]
  ring

theorem cast_negMod {a : Nat} (h : a < primeP) : ((negMod primeP a : Nat) : ZMod primeP) = -a := by
  rw [negMod, cast_mod, Nat.cast_sub h.le, ZMod.natCast_self, zero_sub]

/-- Two points that denote one point are equal. -/
theorem Point.Denotes.inj {a b : Point} {P : curve.Point} (ha : a.Denotes P) (hb : b.Denotes P) :
    a = b := by
  cases a <;> cases b <;> cases P <;> simp only [Point.Denotes] at ha hb
  · rfl
  · obtain ⟨hx, hy, rfl, rfl⟩ := ha
    obtain ⟨hx', hy', h1, h2⟩ := hb
    rw [(cast_inj hx' hx).1 h1, (cast_inj hy' hy).1 h2]

/-- A point denotes one point only. -/
theorem Point.Denotes.unique {a : Point} {P Q : curve.Point} (hP : a.Denotes P)
    (hQ : a.Denotes Q) : P = Q := by
  cases a <;> cases P <;> cases Q <;> simp only [Point.Denotes] at hP hQ
  · rfl
  · obtain ⟨-, -, rfl, rfl⟩ := hP
    obtain ⟨-, -, rfl, rfl⟩ := hQ
    rfl

theorem Point.denotes_inf : Point.Denotes .inf (0 : curve.Point) := trivial

variable [Fact primeP.Prime]

/-- `finv` is the field's inverse (R167), with 0 for 0. -/
theorem cast_finv (v : Nat) : ((finv v : Nat) : ZMod primeP) = (v : ZMod primeP)⁻¹ := by
  rw [finv_eq, cast_mod, Nat.cast_pow]
  rcases eq_or_ne (v : ZMod primeP) 0 with h | h
  · rw [h, inv_zero, zero_pow (by decide)]
  · refine eq_inv_of_mul_eq_one_left ?_
    rw [← pow_succ, show primeP - 2 + 1 = primeP - 1 by decide]
    exact ZMod.pow_card_sub_one_eq_one h

/-! ### The curve equation -/

theorem onCurve_iff (x y : Nat) : onCurve x y = true ↔
    (y : ZMod primeP) ^ 2 = (x : ZMod primeP) ^ 3 + 7 := by
  rw [onCurve, beq_iff_eq, curveRhs]
  have := ZMod.natCast_eq_natCast_iff' (y * y) (x * x * x + 7) primeP
  rw [← this]
  push_cast
  rw [pow_two, pow_three']

theorem equation_iff (u v : ZMod primeP) : curve.Equation u v ↔ v ^ 2 = u ^ 3 + 7 := by
  rw [WeierstrassCurve.Affine.equation_iff]
  simp [curve]

theorem seven_ne_zero : (7 : ZMod primeP) ≠ 0 := by
  intro h
  exact absurd ((cast_eq_zero (a := 7)).1 (by exact_mod_cast h)) (by decide)

theorem small_ne_zero {n : Nat} (h0 : n % primeP ≠ 0) : (n : ZMod primeP) ≠ 0 :=
  mt cast_eq_zero.1 h0

/-- Every solution of the equation is a point: the curve is not singular (R3). -/
theorem nonsingular_iff (u v : ZMod primeP) : curve.Nonsingular u v ↔ v ^ 2 = u ^ 3 + 7 := by
  rw [← equation_iff]
  refine (WeierstrassCurve.Affine.equation_iff_nonsingular_of_Δ_ne_zero ?_).symm
  have h : curve.Δ = -((21168 : Nat) : ZMod primeP) := by
    simp only [WeierstrassCurve.Δ, WeierstrassCurve.b₂, WeierstrassCurve.b₄, WeierstrassCurve.b₆,
      WeierstrassCurve.b₈, curve]
    push_cast
    ring
  rw [h]
  exact neg_ne_zero.2 (small_ne_zero (by decide))

/-! ### Denotation -/

/-- A point is valid exactly when it denotes a point of the curve (R211). -/
theorem Point.valid_iff (a : Point) : a.valid = true ↔ ∃ P, a.Denotes P := by
  cases a with
  | inf => exact ⟨fun _ => ⟨.zero, trivial⟩, fun _ => rfl⟩
  | aff x y =>
    simp only [Point.valid, Bool.and_eq_true, decide_eq_true_eq, onCurve_iff]
    constructor
    · rintro ⟨⟨hx, hy⟩, h⟩
      exact ⟨.some x y ((nonsingular_iff _ _).2 h), hx, hy, rfl, rfl⟩
    · rintro ⟨P, h⟩
      cases P with
      | zero => exact h.elim
      | some u v hn =>
        obtain ⟨hx, hy, rfl, rfl⟩ := h
        exact ⟨⟨hx, hy⟩, (nonsingular_iff _ _).1 hn⟩

/-- The opposite denotes the opposite (R211, R219). -/
theorem Point.Denotes.neg {a : Point} {P : curve.Point} (h : a.Denotes P) :
    a.neg.Denotes (-P) := by
  cases a <;> cases P <;> simp only [Point.Denotes] at h
  · trivial
  · obtain ⟨hx, hy, rfl, rfl⟩ := h
    refine ⟨hx, negMod_lt _ primeP_pos, rfl, ?_⟩
    rw [cast_negMod hy]
    simp [WeierstrassCurve.Affine.negY, curve]

/-- A chord or tangent of the right slope leads to the sum. -/
theorem chord_denotes {l x1 y1 x2 : Nat} {y2 : ZMod primeP}
    (hl : (l : ZMod primeP) = curve.slope x1 x2 y1 y2)
    (h : curve.Nonsingular (curve.addX x1 x2 (curve.slope x1 x2 y1 y2))
      (curve.addY x1 x2 y1 (curve.slope x1 x2 y1 y2))) :
    (chord l x1 y1 x2).Denotes (.some _ _ h) := by
  refine ⟨subMod_lt _ _ primeP_pos, subMod_lt _ _ primeP_pos, ?_, ?_⟩
  · rw [cast_subMod, ← hl]
    simp only [WeierstrassCurve.Affine.addX, curve]
    push_cast
    ring
  · rw [cast_subMod, Nat.cast_mul, cast_subMod, cast_subMod, ← hl]
    simp only [WeierstrassCurve.Affine.addY, WeierstrassCurve.Affine.negAddY,
      WeierstrassCurve.Affine.negY, WeierstrassCurve.Affine.addX, curve]
    push_cast
    ring

/-- The sum denotes the sum (R211). -/
theorem Point.Denotes.add {a b : Point} {P Q : curve.Point} (ha : a.Denotes P)
    (hb : b.Denotes Q) : (a.add b).Denotes (P + Q) := by
  cases a with
  | inf =>
    obtain rfl : P = 0 := ha.unique Point.denotes_inf
    rw [zero_add]
    exact hb
  | aff x1 y1 =>
    cases b with
    | inf =>
      obtain rfl : Q = 0 := hb.unique Point.denotes_inf
      rw [add_zero]
      exact ha
    | aff x2 y2 =>
      cases P <;> cases Q <;> simp only [Point.Denotes] at ha hb
      rename_i u1 v1 h1 u2 v2 h2
      obtain ⟨hx1, hy1, rfl, rfl⟩ := ha
      obtain ⟨hx2, hy2, rfl, rfl⟩ := hb
      have hneg : curve.negY (x2 : ZMod primeP) y2 = -(y2 : ZMod primeP) := by
        simp [WeierstrassCurve.Affine.negY, curve]
      have hopp : (y1 : ZMod primeP) = curve.negY (x2 : ZMod primeP) y2 ↔
          (y1 + y2) % primeP = 0 := by
        rw [hneg, eq_neg_iff_add_eq_zero, ← Nat.cast_add, cast_eq_zero]
      simp only [Point.add]
      by_cases hx : x1 = x2
      · subst hx
        rw [if_pos rfl]
        by_cases hy : (y1 + y2) % primeP = 0
        · rw [if_pos hy, WeierstrassCurve.Affine.Point.add_of_Y_eq rfl (hopp.2 hy)]
          trivial
        · rw [if_neg hy, WeierstrassCurve.Affine.Point.add_of_Y_ne (mt hopp.1 hy)]
          refine chord_denotes ?_ _
          rw [WeierstrassCurve.Affine.slope_of_Y_ne rfl (mt hopp.1 hy), cast_mod, Nat.cast_mul,
            cast_finv, cast_mod, div_eq_mul_inv]
          simp only [WeierstrassCurve.Affine.negY, curve]
          push_cast
          congr 1
          · ring
          · congr 1
            ring
      · rw [if_neg hx, WeierstrassCurve.Affine.Point.add_of_X_ne (mt (cast_inj hx1 hx2).1 hx)]
        refine chord_denotes ?_ _
        rw [WeierstrassCurve.Affine.slope_of_X_ne (mt (cast_inj hx1 hx2).1 hx), cast_mod,
          Nat.cast_mul, cast_finv, cast_subMod, cast_subMod, div_eq_mul_inv, ← neg_sub,
          ← neg_sub (x1 : ZMod primeP), inv_neg, neg_mul_neg]

/-- The multiple denotes the multiple (R211). -/
theorem Point.Denotes.smul {a : Point} {P : curve.Point} (h : a.Denotes P) (k : Nat) :
    (a.smul k).Denotes (k • P) := by
  induction k with
  | zero =>
    rw [zero_nsmul]
    exact Point.denotes_inf
  | succ k ih =>
    rw [succ_nsmul]
    exact ih.add h

end Sys2Proof.Machine
end

