-- ==== Sys2Proof/Laws/State.lean ====
section
/-! SUPPORT. What each update of the state leaves in each field, by reduction, so that no later proof
unfolds a record update. -/

namespace Sys2Proof.Machine.State

section setFLaws
variable (s : State) (r : RegIdx) (v : Content FieldReg)

@[simp] theorem setF_qReg : (s.setF r v).qReg = s.qReg := rfl
@[simp] theorem setF_pReg : (s.setF r v).pReg = s.pReg := rfl
@[simp] theorem setF_t : (s.setF r v).t = s.t := rfl
@[simp] theorem setF_inFlight : (s.setF r v).inFlight = s.inFlight := rfl
@[simp] theorem setF_done : (s.setF r v).done = s.done := rfl
@[simp] theorem setF_ok : (s.setF r v).ok = s.ok := rfl
@[simp] theorem setF_err : (s.setF r v).err = s.err := rfl
@[simp] theorem setF_mem : (s.setF r v).mem = s.mem := rfl
@[simp] theorem setF_program : (s.setF r v).program = s.program := rfl
@[simp] theorem setF_pc : (s.setF r v).pc = s.pc := rfl
@[simp] theorem setF_faultMark : (s.setF r v).faultMark = s.faultMark := rfl
@[simp] theorem setF_host : (s.setF r v).host = s.host := rfl
@[simp] theorem setF_replies : (s.setF r v).replies = s.replies := rfl
@[simp] theorem setF_freeCount : (s.setF r v).freeCount = s.freeCount := rfl
@[simp] theorem setF_magLimit : (s.setF r v).magLimit = s.magLimit := rfl
@[simp] theorem setF_magMul : (s.setF r v).magMul = s.magMul := rfl
@[simp] theorem setF_getQ (x : RegIdx) : (s.setF r v).getQ x = s.getQ x := rfl
@[simp] theorem setF_getP (x : RegIdx) : (s.setF r v).getP x = s.getP x := rfl
@[simp] theorem setF_cell (x : Nat) : (s.setF r v).cell x = s.cell x := rfl
@[simp] theorem setF_busy : (s.setF r v).busy = s.busy := rfl
@[simp] theorem setF_cond (m : CondMode) : (s.setF r v).cond m = s.cond m := rfl

end setFLaws

section setQLaws
variable (s : State) (r : RegIdx) (v : Content Nat)

@[simp] theorem setQ_fReg : (s.setQ r v).fReg = s.fReg := rfl
@[simp] theorem setQ_pReg : (s.setQ r v).pReg = s.pReg := rfl
@[simp] theorem setQ_t : (s.setQ r v).t = s.t := rfl
@[simp] theorem setQ_inFlight : (s.setQ r v).inFlight = s.inFlight := rfl
@[simp] theorem setQ_done : (s.setQ r v).done = s.done := rfl
@[simp] theorem setQ_ok : (s.setQ r v).ok = s.ok := rfl
@[simp] theorem setQ_err : (s.setQ r v).err = s.err := rfl
@[simp] theorem setQ_mem : (s.setQ r v).mem = s.mem := rfl
@[simp] theorem setQ_program : (s.setQ r v).program = s.program := rfl
@[simp] theorem setQ_pc : (s.setQ r v).pc = s.pc := rfl
@[simp] theorem setQ_faultMark : (s.setQ r v).faultMark = s.faultMark := rfl
@[simp] theorem setQ_host : (s.setQ r v).host = s.host := rfl
@[simp] theorem setQ_replies : (s.setQ r v).replies = s.replies := rfl
@[simp] theorem setQ_freeCount : (s.setQ r v).freeCount = s.freeCount := rfl
@[simp] theorem setQ_magLimit : (s.setQ r v).magLimit = s.magLimit := rfl
@[simp] theorem setQ_magMul : (s.setQ r v).magMul = s.magMul := rfl
@[simp] theorem setQ_getF (x : RegIdx) : (s.setQ r v).getF x = s.getF x := rfl
@[simp] theorem setQ_getP (x : RegIdx) : (s.setQ r v).getP x = s.getP x := rfl
@[simp] theorem setQ_cell (x : Nat) : (s.setQ r v).cell x = s.cell x := rfl
@[simp] theorem setQ_busy : (s.setQ r v).busy = s.busy := rfl
@[simp] theorem setQ_cond (m : CondMode) : (s.setQ r v).cond m = s.cond m := rfl

end setQLaws

section setPLaws
variable (s : State) (r : RegIdx) (v : Content Point)

@[simp] theorem setP_fReg : (s.setP r v).fReg = s.fReg := rfl
@[simp] theorem setP_qReg : (s.setP r v).qReg = s.qReg := rfl
@[simp] theorem setP_t : (s.setP r v).t = s.t := rfl
@[simp] theorem setP_inFlight : (s.setP r v).inFlight = s.inFlight := rfl
@[simp] theorem setP_done : (s.setP r v).done = s.done := rfl
@[simp] theorem setP_ok : (s.setP r v).ok = s.ok := rfl
@[simp] theorem setP_err : (s.setP r v).err = s.err := rfl
@[simp] theorem setP_mem : (s.setP r v).mem = s.mem := rfl
@[simp] theorem setP_program : (s.setP r v).program = s.program := rfl
@[simp] theorem setP_pc : (s.setP r v).pc = s.pc := rfl
@[simp] theorem setP_faultMark : (s.setP r v).faultMark = s.faultMark := rfl
@[simp] theorem setP_host : (s.setP r v).host = s.host := rfl
@[simp] theorem setP_replies : (s.setP r v).replies = s.replies := rfl
@[simp] theorem setP_freeCount : (s.setP r v).freeCount = s.freeCount := rfl
@[simp] theorem setP_magLimit : (s.setP r v).magLimit = s.magLimit := rfl
@[simp] theorem setP_magMul : (s.setP r v).magMul = s.magMul := rfl
@[simp] theorem setP_getF (x : RegIdx) : (s.setP r v).getF x = s.getF x := rfl
@[simp] theorem setP_getQ (x : RegIdx) : (s.setP r v).getQ x = s.getQ x := rfl
@[simp] theorem setP_cell (x : Nat) : (s.setP r v).cell x = s.cell x := rfl
@[simp] theorem setP_busy : (s.setP r v).busy = s.busy := rfl
@[simp] theorem setP_cond (m : CondMode) : (s.setP r v).cond m = s.cond m := rfl

end setPLaws

section setTLaws
variable (s : State) (b : Bool)

@[simp] theorem setT_fReg : (s.setT b).fReg = s.fReg := rfl
@[simp] theorem setT_qReg : (s.setT b).qReg = s.qReg := rfl
@[simp] theorem setT_pReg : (s.setT b).pReg = s.pReg := rfl
@[simp] theorem setT_t : (s.setT b).t = b := rfl
@[simp] theorem setT_inFlight : (s.setT b).inFlight = s.inFlight := rfl
@[simp] theorem setT_done : (s.setT b).done = s.done := rfl
@[simp] theorem setT_ok : (s.setT b).ok = s.ok := rfl
@[simp] theorem setT_err : (s.setT b).err = s.err := rfl
@[simp] theorem setT_mem : (s.setT b).mem = s.mem := rfl
@[simp] theorem setT_program : (s.setT b).program = s.program := rfl
@[simp] theorem setT_pc : (s.setT b).pc = s.pc := rfl
@[simp] theorem setT_faultMark : (s.setT b).faultMark = s.faultMark := rfl
@[simp] theorem setT_host : (s.setT b).host = s.host := rfl
@[simp] theorem setT_replies : (s.setT b).replies = s.replies := rfl
@[simp] theorem setT_freeCount : (s.setT b).freeCount = s.freeCount := rfl
@[simp] theorem setT_magLimit : (s.setT b).magLimit = s.magLimit := rfl
@[simp] theorem setT_magMul : (s.setT b).magMul = s.magMul := rfl
@[simp] theorem setT_getF (x : RegIdx) : (s.setT b).getF x = s.getF x := rfl
@[simp] theorem setT_getQ (x : RegIdx) : (s.setT b).getQ x = s.getQ x := rfl
@[simp] theorem setT_getP (x : RegIdx) : (s.setT b).getP x = s.getP x := rfl
@[simp] theorem setT_cell (x : Nat) : (s.setT b).cell x = s.cell x := rfl
@[simp] theorem setT_busy : (s.setT b).busy = s.busy := rfl

end setTLaws

section writeLaws
variable (s : State) (a : Nat) (bs : List Byte)

@[simp] theorem write_fReg : (s.write a bs).fReg = s.fReg := rfl
@[simp] theorem write_qReg : (s.write a bs).qReg = s.qReg := rfl
@[simp] theorem write_pReg : (s.write a bs).pReg = s.pReg := rfl
@[simp] theorem write_t : (s.write a bs).t = s.t := rfl
@[simp] theorem write_inFlight : (s.write a bs).inFlight = s.inFlight := rfl
@[simp] theorem write_done : (s.write a bs).done = s.done := rfl
@[simp] theorem write_ok : (s.write a bs).ok = s.ok := rfl
@[simp] theorem write_err : (s.write a bs).err = s.err := rfl
@[simp] theorem write_mem : (s.write a bs).mem = writeBytes s.mem a bs := rfl
@[simp] theorem write_program : (s.write a bs).program = s.program := rfl
@[simp] theorem write_pc : (s.write a bs).pc = s.pc := rfl
@[simp] theorem write_faultMark : (s.write a bs).faultMark = s.faultMark := rfl
@[simp] theorem write_host : (s.write a bs).host = s.host := rfl
@[simp] theorem write_replies : (s.write a bs).replies = s.replies := rfl
@[simp] theorem write_freeCount : (s.write a bs).freeCount = s.freeCount := rfl
@[simp] theorem write_magLimit : (s.write a bs).magLimit = s.magLimit := rfl
@[simp] theorem write_magMul : (s.write a bs).magMul = s.magMul := rfl
@[simp] theorem write_getF (x : RegIdx) : (s.write a bs).getF x = s.getF x := rfl
@[simp] theorem write_getQ (x : RegIdx) : (s.write a bs).getQ x = s.getQ x := rfl
@[simp] theorem write_getP (x : RegIdx) : (s.write a bs).getP x = s.getP x := rfl
@[simp] theorem write_busy : (s.write a bs).busy = s.busy := rfl
@[simp] theorem write_cond (m : CondMode) : (s.write a bs).cond m = s.cond m := rfl

end writeLaws

section poisonLaws
variable (s : State) (a n : Nat)

@[simp] theorem poison_fReg : (s.poison a n).fReg = s.fReg := rfl
@[simp] theorem poison_qReg : (s.poison a n).qReg = s.qReg := rfl
@[simp] theorem poison_pReg : (s.poison a n).pReg = s.pReg := rfl
@[simp] theorem poison_t : (s.poison a n).t = s.t := rfl
@[simp] theorem poison_inFlight : (s.poison a n).inFlight = s.inFlight := rfl
@[simp] theorem poison_done : (s.poison a n).done = s.done := rfl
@[simp] theorem poison_ok : (s.poison a n).ok = s.ok := rfl
@[simp] theorem poison_err : (s.poison a n).err = s.err := rfl
@[simp] theorem poison_mem : (s.poison a n).mem = poisonBytes s.mem a n := rfl
@[simp] theorem poison_program : (s.poison a n).program = s.program := rfl
@[simp] theorem poison_pc : (s.poison a n).pc = s.pc := rfl
@[simp] theorem poison_faultMark : (s.poison a n).faultMark = s.faultMark := rfl
@[simp] theorem poison_host : (s.poison a n).host = s.host := rfl
@[simp] theorem poison_replies : (s.poison a n).replies = s.replies := rfl
@[simp] theorem poison_freeCount : (s.poison a n).freeCount = s.freeCount := rfl
@[simp] theorem poison_magLimit : (s.poison a n).magLimit = s.magLimit := rfl
@[simp] theorem poison_magMul : (s.poison a n).magMul = s.magMul := rfl
@[simp] theorem poison_getF (x : RegIdx) : (s.poison a n).getF x = s.getF x := rfl
@[simp] theorem poison_getQ (x : RegIdx) : (s.poison a n).getQ x = s.getQ x := rfl
@[simp] theorem poison_getP (x : RegIdx) : (s.poison a n).getP x = s.getP x := rfl
@[simp] theorem poison_busy : (s.poison a n).busy = s.busy := rfl
@[simp] theorem poison_cond (m : CondMode) : (s.poison a n).cond m = s.cond m := rfl

end poisonLaws

section completeLaws
variable (s : State) (k : Bool) (e : ErrCode)

@[simp] theorem complete_fReg : (s.complete k e).fReg = s.fReg := rfl
@[simp] theorem complete_qReg : (s.complete k e).qReg = s.qReg := rfl
@[simp] theorem complete_pReg : (s.complete k e).pReg = s.pReg := rfl
@[simp] theorem complete_t : (s.complete k e).t = s.t := rfl
@[simp] theorem complete_inFlight : (s.complete k e).inFlight = none := rfl
@[simp] theorem complete_done : (s.complete k e).done = true := rfl
@[simp] theorem complete_ok : (s.complete k e).ok = k := rfl
@[simp] theorem complete_err : (s.complete k e).err = e := rfl
@[simp] theorem complete_mem : (s.complete k e).mem = s.mem := rfl
@[simp] theorem complete_program : (s.complete k e).program = s.program := rfl
@[simp] theorem complete_pc : (s.complete k e).pc = s.pc + 1 := rfl
@[simp] theorem complete_faultMark : (s.complete k e).faultMark = s.faultMark := rfl
@[simp] theorem complete_host : (s.complete k e).host = s.host := rfl
@[simp] theorem complete_replies : (s.complete k e).replies = s.replies := rfl
@[simp] theorem complete_freeCount : (s.complete k e).freeCount = s.freeCount := rfl
@[simp] theorem complete_magLimit : (s.complete k e).magLimit = s.magLimit := rfl
@[simp] theorem complete_magMul : (s.complete k e).magMul = s.magMul := rfl
@[simp] theorem complete_getF (x : RegIdx) : (s.complete k e).getF x = s.getF x := rfl
@[simp] theorem complete_getQ (x : RegIdx) : (s.complete k e).getQ x = s.getQ x := rfl
@[simp] theorem complete_getP (x : RegIdx) : (s.complete k e).getP x = s.getP x := rfl
@[simp] theorem complete_cell (x : Nat) : (s.complete k e).cell x = s.cell x := rfl
@[simp] theorem complete_busy : (s.complete k e).busy = false := rfl
@[simp] theorem complete_cond (m : CondMode) : (s.complete k e).cond m = s.cond m := rfl

end completeLaws

section finishOkLaws
variable (s : State)

@[simp] theorem finishOk_fReg : (s.finishOk).fReg = s.fReg := rfl
@[simp] theorem finishOk_qReg : (s.finishOk).qReg = s.qReg := rfl
@[simp] theorem finishOk_pReg : (s.finishOk).pReg = s.pReg := rfl
@[simp] theorem finishOk_t : (s.finishOk).t = s.t := rfl
@[simp] theorem finishOk_inFlight : (s.finishOk).inFlight = none := rfl
@[simp] theorem finishOk_done : (s.finishOk).done = true := rfl
@[simp] theorem finishOk_ok : (s.finishOk).ok = true := rfl
@[simp] theorem finishOk_err : (s.finishOk).err = .none := rfl
@[simp] theorem finishOk_mem : (s.finishOk).mem = s.mem := rfl
@[simp] theorem finishOk_program : (s.finishOk).program = s.program := rfl
@[simp] theorem finishOk_pc : (s.finishOk).pc = s.pc + 1 := rfl
@[simp] theorem finishOk_faultMark : (s.finishOk).faultMark = s.faultMark := rfl
@[simp] theorem finishOk_host : (s.finishOk).host = s.host := rfl
@[simp] theorem finishOk_replies : (s.finishOk).replies = s.replies := rfl
@[simp] theorem finishOk_freeCount : (s.finishOk).freeCount = s.freeCount := rfl
@[simp] theorem finishOk_magLimit : (s.finishOk).magLimit = s.magLimit := rfl
@[simp] theorem finishOk_magMul : (s.finishOk).magMul = s.magMul := rfl
@[simp] theorem finishOk_getF (x : RegIdx) : (s.finishOk).getF x = s.getF x := rfl
@[simp] theorem finishOk_getQ (x : RegIdx) : (s.finishOk).getQ x = s.getQ x := rfl
@[simp] theorem finishOk_getP (x : RegIdx) : (s.finishOk).getP x = s.getP x := rfl
@[simp] theorem finishOk_cell (x : Nat) : (s.finishOk).cell x = s.cell x := rfl
@[simp] theorem finishOk_busy : (s.finishOk).busy = false := rfl
@[simp] theorem finishOk_cond (m : CondMode) : (s.finishOk).cond m = s.cond m := rfl

end finishOkLaws

section failWithLaws
variable (s : State) (e : ErrCode)

@[simp] theorem failWith_fReg : (s.failWith e).fReg = s.fReg := rfl
@[simp] theorem failWith_qReg : (s.failWith e).qReg = s.qReg := rfl
@[simp] theorem failWith_pReg : (s.failWith e).pReg = s.pReg := rfl
@[simp] theorem failWith_t : (s.failWith e).t = s.t := rfl
@[simp] theorem failWith_inFlight : (s.failWith e).inFlight = none := rfl
@[simp] theorem failWith_done : (s.failWith e).done = true := rfl
@[simp] theorem failWith_ok : (s.failWith e).ok = false := rfl
@[simp] theorem failWith_err : (s.failWith e).err = e := rfl
@[simp] theorem failWith_mem : (s.failWith e).mem = s.mem := rfl
@[simp] theorem failWith_program : (s.failWith e).program = s.program := rfl
@[simp] theorem failWith_pc : (s.failWith e).pc = s.pc + 1 := rfl
@[simp] theorem failWith_faultMark : (s.failWith e).faultMark = s.faultMark := rfl
@[simp] theorem failWith_host : (s.failWith e).host = s.host := rfl
@[simp] theorem failWith_replies : (s.failWith e).replies = s.replies := rfl
@[simp] theorem failWith_freeCount : (s.failWith e).freeCount = s.freeCount := rfl
@[simp] theorem failWith_magLimit : (s.failWith e).magLimit = s.magLimit := rfl
@[simp] theorem failWith_magMul : (s.failWith e).magMul = s.magMul := rfl
@[simp] theorem failWith_getF (x : RegIdx) : (s.failWith e).getF x = s.getF x := rfl
@[simp] theorem failWith_getQ (x : RegIdx) : (s.failWith e).getQ x = s.getQ x := rfl
@[simp] theorem failWith_getP (x : RegIdx) : (s.failWith e).getP x = s.getP x := rfl
@[simp] theorem failWith_cell (x : Nat) : (s.failWith e).cell x = s.cell x := rfl
@[simp] theorem failWith_busy : (s.failWith e).busy = false := rfl
@[simp] theorem failWith_cond (m : CondMode) : (s.failWith e).cond m = s.cond m := rfl

end failWithLaws

section acceptLaws
variable (s : State) (w : Word)

@[simp] theorem accept_fReg : (s.accept w).fReg = s.fReg := rfl
@[simp] theorem accept_qReg : (s.accept w).qReg = s.qReg := rfl
@[simp] theorem accept_pReg : (s.accept w).pReg = s.pReg := rfl
@[simp] theorem accept_t : (s.accept w).t = s.t := rfl
@[simp] theorem accept_inFlight : (s.accept w).inFlight = some w := rfl
@[simp] theorem accept_done : (s.accept w).done = false := rfl
@[simp] theorem accept_ok : (s.accept w).ok = s.ok := rfl
@[simp] theorem accept_err : (s.accept w).err = s.err := rfl
@[simp] theorem accept_mem : (s.accept w).mem = s.mem := rfl
@[simp] theorem accept_program : (s.accept w).program = s.program := rfl
@[simp] theorem accept_pc : (s.accept w).pc = s.pc := rfl
@[simp] theorem accept_faultMark : (s.accept w).faultMark = s.faultMark := rfl
@[simp] theorem accept_host : (s.accept w).host = s.host := rfl
@[simp] theorem accept_replies : (s.accept w).replies = s.replies := rfl
@[simp] theorem accept_freeCount : (s.accept w).freeCount = s.freeCount := rfl
@[simp] theorem accept_magLimit : (s.accept w).magLimit = s.magLimit := rfl
@[simp] theorem accept_magMul : (s.accept w).magMul = s.magMul := rfl
@[simp] theorem accept_getF (x : RegIdx) : (s.accept w).getF x = s.getF x := rfl
@[simp] theorem accept_getQ (x : RegIdx) : (s.accept w).getQ x = s.getQ x := rfl
@[simp] theorem accept_getP (x : RegIdx) : (s.accept w).getP x = s.getP x := rfl
@[simp] theorem accept_cell (x : Nat) : (s.accept w).cell x = s.cell x := rfl
@[simp] theorem accept_busy : (s.accept w).busy = true := rfl
@[simp] theorem accept_cond (m : CondMode) : (s.accept w).cond m = s.cond m := rfl

end acceptLaws

section replyLaws
variable (s : State) (r : HostReply) (n : Nat)

@[simp] theorem reply_fReg : (s.reply r n).fReg = s.fReg := rfl
@[simp] theorem reply_qReg : (s.reply r n).qReg = s.qReg := rfl
@[simp] theorem reply_pReg : (s.reply r n).pReg = s.pReg := rfl
@[simp] theorem reply_t : (s.reply r n).t = s.t := rfl
@[simp] theorem reply_inFlight : (s.reply r n).inFlight = s.inFlight := rfl
@[simp] theorem reply_done : (s.reply r n).done = s.done := rfl
@[simp] theorem reply_ok : (s.reply r n).ok = s.ok := rfl
@[simp] theorem reply_err : (s.reply r n).err = s.err := rfl
@[simp] theorem reply_mem : (s.reply r n).mem = s.mem := rfl
@[simp] theorem reply_program : (s.reply r n).program = s.program := rfl
@[simp] theorem reply_pc : (s.reply r n).pc = s.pc := rfl
@[simp] theorem reply_faultMark : (s.reply r n).faultMark = s.faultMark := rfl
@[simp] theorem reply_host : (s.reply r n).host = s.host := rfl
@[simp] theorem reply_replies : (s.reply r n).replies = r :: s.replies := rfl
@[simp] theorem reply_freeCount : (s.reply r n).freeCount = s.freeCount + n := rfl
@[simp] theorem reply_magLimit : (s.reply r n).magLimit = s.magLimit := rfl
@[simp] theorem reply_magMul : (s.reply r n).magMul = s.magMul := rfl
@[simp] theorem reply_getF (x : RegIdx) : (s.reply r n).getF x = s.getF x := rfl
@[simp] theorem reply_getQ (x : RegIdx) : (s.reply r n).getQ x = s.getQ x := rfl
@[simp] theorem reply_getP (x : RegIdx) : (s.reply r n).getP x = s.getP x := rfl
@[simp] theorem reply_cell (x : Nat) : (s.reply r n).cell x = s.cell x := rfl
@[simp] theorem reply_busy : (s.reply r n).busy = s.busy := rfl
@[simp] theorem reply_cond (m : CondMode) : (s.reply r n).cond m = s.cond m := rfl

end replyLaws

/-! ### Reading a register file after writing it (R18) -/

theorem regPos_inj {a b : RegIdx} : (regPos a).val = (regPos b).val ↔ a = b := by
  simp [regPos, BitVec.toNat_inj]

theorem getF_setF (s : State) (r x : RegIdx) (v : Content FieldReg) :
    (s.setF r v).getF x = if x = r then v else s.getF x := by
  simp only [getF, setF, Vector.get_eq_getElem, Vector.getElem_set, regPos_inj]
  rcases eq_or_ne x r with h | h
  · simp [h]
  · simp [h, h.symm]

theorem getQ_setQ (s : State) (r x : RegIdx) (v : Content Nat) :
    (s.setQ r v).getQ x = if x = r then v else s.getQ x := by
  simp only [getQ, setQ, Vector.get_eq_getElem, Vector.getElem_set, regPos_inj]
  rcases eq_or_ne x r with h | h
  · simp [h]
  · simp [h, h.symm]

theorem getP_setP (s : State) (r x : RegIdx) (v : Content Point) :
    (s.setP r v).getP x = if x = r then v else s.getP x := by
  simp only [getP, setP, Vector.get_eq_getElem, Vector.getElem_set, regPos_inj]
  rcases eq_or_ne x r with h | h
  · simp [h]
  · simp [h, h.symm]

@[simp] theorem getF_setF_self (s : State) (r : RegIdx) (v : Content FieldReg) :
    (s.setF r v).getF r = v := by simp [getF_setF]

@[simp] theorem getQ_setQ_self (s : State) (r : RegIdx) (v : Content Nat) :
    (s.setQ r v).getQ r = v := by simp [getQ_setQ]

@[simp] theorem getP_setP_self (s : State) (r : RegIdx) (v : Content Point) :
    (s.setP r v).getP r = v := by simp [getP_setP]

theorem getF_setF_other (s : State) {r x : RegIdx} (v : Content FieldReg) (h : x ≠ r) :
    (s.setF r v).getF x = s.getF x := by simp [getF_setF, h]

theorem getQ_setQ_other (s : State) {r x : RegIdx} (v : Content Nat) (h : x ≠ r) :
    (s.setQ r v).getQ x = s.getQ x := by simp [getQ_setQ, h]

theorem getP_setP_other (s : State) {r x : RegIdx} (v : Content Point) (h : x ≠ r) :
    (s.setP r v).getP x = s.getP x := by simp [getP_setP, h]

/-! ### The reset state (R52) -/

@[simp] theorem getF_reset (r : RegIdx) : State.reset.getF r = .bot := by
  simp [getF, State.reset, Vector.get_eq_getElem]

@[simp] theorem getQ_reset (r : RegIdx) : State.reset.getQ r = .bot := by
  simp [getQ, State.reset, Vector.get_eq_getElem]

@[simp] theorem getP_reset (r : RegIdx) : State.reset.getP r = .bot := by
  simp [getP, State.reset, Vector.get_eq_getElem]

end Sys2Proof.Machine.State
end

