-- ==== Sys2Proof/Laws/Ops.lean ====
section
/-! SUPPORT. What the operations on BUF and the operand forms can do, said once for each. -/

namespace Sys2Proof.Machine

/-! ### BUF: what a write, a poison and a read do (R75, R76) -/

theorem cellAt_putCell (m : List Host.Cell) (x y : Nat) (v : Byte) :
    cellAt (putCell m x v) y = if y = x then .val v else cellAt m y := by
  induction m with
  | nil =>
    rcases eq_or_ne y x with hy | hy
    · simp [putCell, cellAt, hy]
    · simp [putCell, cellAt, hy, hy.symm]
  | cons c m ih =>
    unfold putCell
    split
    · by_cases hy : y = x
      · simp [cellAt, hy]
      · simp [cellAt, hy, Ne.symm hy]
    · split
      · rename_i _ hx
        subst hx
        by_cases hy : y = c.1
        · simp [cellAt, hy]
        · simp [cellAt, hy, Ne.symm hy]
      · rename_i hlt hne
        by_cases hc : c.1 = y
        · have : y ≠ x := by omega
          simp [cellAt, hc, this]
        · simp [cellAt, hc, ih]

theorem cellAt_clearCell (m : List Host.Cell) (x y : Nat) :
    cellAt (clearCell m x) y = if y = x then .bot else cellAt m y := by
  induction m with
  | nil => simp [clearCell, cellAt]
  | cons c m ih =>
    unfold clearCell at ih ⊢
    by_cases hc : c.1 = x
    · rw [List.filter_cons_of_neg (by simp [hc]), ih]
      by_cases hy : y = x
      · simp [hy]
      · simp [cellAt, hy, show c.1 ≠ y by omega]
    · rw [List.filter_cons_of_pos (by simp [hc])]
      by_cases hy : c.1 = y
      · simp [cellAt, hy, show y ≠ x by omega]
      · simp [cellAt, hy, ih]

theorem mem_putCell {m : List Host.Cell} {x : Nat} {v : Byte} {c : Host.Cell}
    (h : c ∈ putCell m x v) : c = (x, v) ∨ c ∈ m := by
  induction m with
  | nil => simpa [putCell] using h
  | cons d m ih =>
    unfold putCell at h
    split at h
    · simpa using h
    · split at h
      · rcases List.mem_cons.1 h with h | h
        · exact .inl h
        · exact .inr (List.mem_cons_of_mem _ h)
      · rcases List.mem_cons.1 h with h | h
        · exact .inr (h ▸ List.mem_cons_self)
        · exact (ih h).imp id (List.mem_cons_of_mem _)

/-- A write keeps the canonical form. -/
theorem putCell_wf {m : List Host.Cell} {x : Nat} (v : Byte) (h : Memory.wf m)
    (hx : x < Config.bufSize) : Memory.wf (putCell m x v) := by
  constructor
  · obtain ⟨h, -⟩ := h
    induction m with
    | nil => simp [putCell]
    | cons c m ih =>
      obtain ⟨hc, hm⟩ := List.pairwise_cons.1 h
      unfold putCell
      split
      · rename_i hlt
        refine List.pairwise_cons.2 ⟨fun d hd => ?_, h⟩
        rcases List.mem_cons.1 hd with rfl | hd
        · exact hlt
        · exact lt_trans hlt (hc d hd)
      · split
        · rename_i _ heq
          exact List.pairwise_cons.2 ⟨fun d hd => by simpa [heq] using hc d hd, hm⟩
        · refine List.pairwise_cons.2 ⟨fun d hd => ?_, ih hm⟩
          rcases mem_putCell hd with rfl | hd
          · show c.1 < x
            omega
          · exact hc d hd
  · intro c hc
    rcases mem_putCell hc with rfl | hc
    · exact hx
    · exact h.2 c hc

/-- A poison keeps the canonical form. -/
theorem clearCell_wf {m : List Host.Cell} (x : Nat) (h : Memory.wf m) :
    Memory.wf (clearCell m x) :=
  ⟨h.1.filter _, fun c hc => h.2 c (List.mem_of_mem_filter hc)⟩

theorem writeBytes_wf {m : List Host.Cell} {a : Nat} {bs : List Byte} (h : Memory.wf m)
    (hx : a + bs.length ≤ Config.bufSize) : Memory.wf (writeBytes m a bs) := by
  induction bs generalizing m a with
  | nil => exact h
  | cons b bs ih =>
    simp only [List.length_cons] at hx
    exact ih (putCell_wf b h (by omega)) (by omega)

theorem poisonBytes_wf {m : List Host.Cell} (a n : Nat) (h : Memory.wf m) :
    Memory.wf (poisonBytes m a n) := by
  induction n generalizing m a with
  | zero => exact h
  | succ n ih => exact ih _ (clearCell_wf a h)

theorem reset_mem_wf : Memory.wf State.reset.mem := by decide

/-- MemWrite changes exactly its own bytes (R76). -/
theorem cellAt_writeBytes (m : List Host.Cell) (a x : Nat) (bs : List Byte) :
    cellAt (writeBytes m a bs) x =
      if h : a ≤ x ∧ x < a + bs.length then .val (bs[x - a]'(by omega)) else cellAt m x := by
  induction bs generalizing m a with
  | nil => rw [dif_neg (by simp)]; rfl
  | cons b bs ih =>
    rw [writeBytes, ih, cellAt_putCell]
    simp only [List.length_cons]
    rcases Nat.lt_trichotomy x a with h | h | h
    · rw [dif_neg (by omega), dif_neg (by omega), if_neg (by omega)]
    · subst h
      rw [dif_neg (by omega), dif_pos (by omega), if_pos rfl]
      simp
    · by_cases hx : x < a + 1 + bs.length
      · obtain ⟨k, rfl⟩ : ∃ k, x = a + 1 + k := ⟨x - (a + 1), by omega⟩
        rw [dif_pos ⟨by omega, hx⟩, dif_pos (by omega)]
        simp [show a + 1 + k - a = k + 1 by omega]
      · rw [dif_neg (by omega), dif_neg (by omega), if_neg (by omega)]

/-- MemPoison clears exactly its own bytes (R76). -/
theorem cellAt_poisonBytes (m : List Host.Cell) (a n x : Nat) :
    cellAt (poisonBytes m a n) x = if a ≤ x ∧ x < a + n then .bot else cellAt m x := by
  induction n generalizing m a with
  | zero => rw [if_neg (by omega)]; rfl
  | succ n ih =>
    rw [poisonBytes, ih, cellAt_clearCell]
    split_ifs <;> first | rfl | omega

/-- MemRead returns the bytes of its cells (R75). -/
theorem readBytes_val {m : List Host.Cell} {a n : Nat} {bs : List Byte} :
    readBytes m a n = .val bs ↔
      bs.length = n ∧ ∀ i (h : i < bs.length), cellAt m (a + i) = .val bs[i] := by
  induction n generalizing a bs with
  | zero =>
    simp only [readBytes, Content.val.injEq]
    exact ⟨by rintro rfl; simp, fun h => (List.length_eq_zero_iff.1 h.1).symm⟩
  | succ n ih =>
    constructor
    · intro h
      rw [readBytes] at h
      split at h
      · rename_i b bs' hb hbs
        cases h
        obtain ⟨hl, hc⟩ := ih.1 hbs
        refine ⟨by simp [hl], fun i hi => ?_⟩
        cases i with
        | zero => simpa using hb
        | succ i =>
          have := hc i (by simpa using hi)
          rw [show a + (i + 1) = a + 1 + i by omega]
          simpa using this
      · cases h
    · rintro ⟨hl, hc⟩
      cases bs with
      | nil => simp at hl
      | cons b bs =>
        have h0 : cellAt m a = .val b := hc 0 (Nat.succ_pos _)
        have h1 : readBytes m (a + 1) n = .val bs := ih.2 ⟨by simpa using hl, fun i hi => by
          have := hc (i + 1) (by simpa using hi)
          rw [show a + 1 + i = a + (i + 1) by omega]
          simpa using this⟩
        simp [readBytes, h0, h1]

/-- MemRead finds no value exactly where a cell of its region holds ⊥ (R75). -/
theorem readBytes_bot {m : List Host.Cell} {a n : Nat} :
    readBytes m a n = .bot ↔ ∃ x, a ≤ x ∧ x < a + n ∧ cellAt m x = .bot := by
  induction n generalizing a with
  | zero =>
    simp only [readBytes, reduceCtorEq, false_iff, not_exists]
    intro x
    omega
  | succ n ih =>
    rw [readBytes]
    cases ha : cellAt m a with
    | bot => simpa using ⟨a, le_refl a, by omega, ha⟩
    | val b =>
      cases hr : readBytes m (a + 1) n with
      | bot =>
        obtain ⟨x, h1, h2, h3⟩ := ih.1 hr
        simpa using ⟨x, by omega, by omega, h3⟩
      | val bs =>
        simp only [reduceCtorEq, false_iff, not_exists]
        rintro x ⟨h1, h2, h3⟩
        have hx : x ≠ a := by rintro rfl; simp [ha] at h3
        have := (ih (a := a + 1)).2 ⟨x, by omega, by omega, h3⟩
        rw [hr] at this
        cases this

/-! ### Operand forms: when they answer, and what -/

theorem withF_next {s t : State} {r : RegIdx} {k : FieldReg → Result} :
    withF s r k = .next t ↔ ∃ a, s.getF r = .val a ∧ k a = .next t := by
  unfold withF; cases s.getF r <;> simp

theorem withQ_next {s t : State} {r : RegIdx} {k : Nat → Result} :
    withQ s r k = .next t ↔ ∃ a, s.getQ r = .val a ∧ k a = .next t := by
  unfold withQ; cases s.getQ r <;> simp

theorem withP_next {s t : State} {r : RegIdx} {k : Point → Result} :
    withP s r k = .next t ↔ ∃ a, s.getP r = .val a ∧ k a = .next t := by
  unfold withP; cases s.getP r <;> simp

theorem withBytes_next {s t : State} {a n : Nat} {k : List Byte → Result} :
    withBytes s a n k = .next t ↔ ∃ bs, readBytes s.mem a n = .val bs ∧ k bs = .next t := by
  unfold withBytes; cases readBytes s.mem a n <;> simp

theorem require_next {c : Prop} [Decidable c] {f : Fault} {k : Result} {t : State} :
    require c f k = .next t ↔ c ∧ k = .next t := by
  unfold require; split <;> simp_all

theorem legal_next {s t : State} {c : Bool} {k : Result} :
    legal s c k = .next t ↔ (c = true ∧ k = .next t) ∨ (c = false ∧ t = s.illegal) := by
  cases c <;> simp [legal, eq_comm]

theorem withF_fault {s : State} {r : RegIdx} {k : FieldReg → Result} {f : Fault} :
    withF s r k = .fault f ↔
      (s.getF r = .bot ∧ f = .readNoValue) ∨ ∃ a, s.getF r = .val a ∧ k a = .fault f := by
  unfold withF; cases s.getF r <;> simp [eq_comm]

theorem withQ_fault {s : State} {r : RegIdx} {k : Nat → Result} {f : Fault} :
    withQ s r k = .fault f ↔
      (s.getQ r = .bot ∧ f = .readNoValue) ∨ ∃ a, s.getQ r = .val a ∧ k a = .fault f := by
  unfold withQ; cases s.getQ r <;> simp [eq_comm]

theorem withP_fault {s : State} {r : RegIdx} {k : Point → Result} {f : Fault} :
    withP s r k = .fault f ↔
      (s.getP r = .bot ∧ f = .readNoValue) ∨ ∃ a, s.getP r = .val a ∧ k a = .fault f := by
  unfold withP; cases s.getP r <;> simp [eq_comm]

theorem withBytes_fault {s : State} {a n : Nat} {k : List Byte → Result} {f : Fault} :
    withBytes s a n k = .fault f ↔
      (readBytes s.mem a n = .bot ∧ f = .readNoValue) ∨
        ∃ bs, readBytes s.mem a n = .val bs ∧ k bs = .fault f := by
  unfold withBytes; cases readBytes s.mem a n <;> simp [eq_comm]

theorem require_fault {c : Prop} [Decidable c] {f g : Fault} {k : Result} :
    require c f k = .fault g ↔ (¬c ∧ g = f) ∨ (c ∧ k = .fault g) := by
  unfold require; split <;> simp_all [eq_comm]

theorem legal_fault {s : State} {c : Bool} {k : Result} {f : Fault} :
    legal s c k = .fault f ↔ c = true ∧ k = .fault f := by
  cases c <;> simp [legal]

/-- The operand forms answer when their source holds a value. -/
theorem withF_val {s : State} {r : RegIdx} {k : FieldReg → Result} {a : FieldReg}
    (h : s.getF r = .val a) : withF s r k = k a := by simp [withF, h]

theorem withQ_val {s : State} {r : RegIdx} {k : Nat → Result} {a : Nat}
    (h : s.getQ r = .val a) : withQ s r k = k a := by simp [withQ, h]

theorem withP_val {s : State} {r : RegIdx} {k : Point → Result} {a : Point}
    (h : s.getP r = .val a) : withP s r k = k a := by simp [withP, h]

theorem withBytes_val {s : State} {a n : Nat} {k : List Byte → Result} {bs : List Byte}
    (h : readBytes s.mem a n = .val bs) : withBytes s a n k = k bs := by simp [withBytes, h]

theorem require_true {c : Prop} [Decidable c] {f : Fault} {k : Result} (h : c) :
    require c f k = k := by simp [require, h]

@[simp] theorem legal_true (s : State) (k : Result) : legal s true k = k := rfl
@[simp] theorem legal_false (s : State) (k : Result) : legal s false k = .next s.illegal := rfl

/-! ### Completion -/

theorem okAfter_finishOk (s : State) : OkAfter s s.finishOk := ⟨rfl, rfl, rfl, rfl, rfl, rfl⟩

theorem answered_answer (s : State) (b : Bool) : Answered s b (s.answer b) :=
  ⟨rfl, rfl, rfl, rfl, rfl, rfl⟩

theorem failAfter_failWith (s : State) (e : ErrCode) : FailAfter s e (s.failWith e) :=
  ⟨rfl, rfl, rfl, rfl, rfl, rfl⟩

/-- A verification ends in `ok` or in the failure of its first failing check. -/
theorem verdict_cases (s : State) (e : ErrCode) :
    (e = .none ∧ s.verdict e = s.finishOk) ∨ (e ≠ .none ∧ s.verdict e = s.failWith e) := by
  by_cases h : e = .none <;> simp [State.verdict, h]

/-! ### Host transactions -/

theorem whenIdle_next {s t : State} {k : Result} :
    whenIdle s k = .next t ↔ s.busy = false ∧ k = .next t := by
  cases h : s.busy <;> simp [whenIdle, h]

theorem hostFits_next {a n : Nat} {k : Result} {t : State} :
    hostFits a n k = .next t ↔ a + n ≤ Config.bufSize ∧ k = .next t := by
  unfold hostFits; split <;> simp_all

/-- Everything a host transaction that completes can do (R87, R88, R340). -/
theorem hostStep_cases {x : HostTxn} {s t : State} (h : hostStep x s = .next t) :
    (∃ a bs, x = .writeBuf a bs ∧ s.busy = false ∧ a + bs.length ≤ Config.bufSize ∧
      t = s.write a bs) ∨
    (∃ a n bs, x = .readBuf a n ∧ s.busy = false ∧ a + n ≤ Config.bufSize ∧
      readBytes s.mem a n = .val bs ∧ t = s.reply (.bytes bs) 0) ∨
    (x = .issue ∧ s.busy = false ∧
      ((s.nextWord = none ∧ t = s) ∨ ∃ w, s.nextWord = some w ∧ t = s.accept w)) ∨
    (x = .readStatus ∧ t = s.reply (.status s.statusRead) 1) ∨
    (x = .poll ∧
      ((s.inFlight = none ∧ t = s) ∨ ∃ w, s.inFlight = some w ∧ runWord w s = .next t)) ∨
    (x = .reset ∧ t = s.hardReset) := by
  cases x with
  | writeBuf a bs =>
    obtain ⟨hb, h⟩ := whenIdle_next.1 h
    obtain ⟨hr, h⟩ := hostFits_next.1 h
    cases h
    exact .inl ⟨a, bs, rfl, hb, hr, rfl⟩
  | readBuf a n =>
    obtain ⟨hb, h⟩ := whenIdle_next.1 h
    obtain ⟨hr, h⟩ := hostFits_next.1 h
    obtain ⟨bs, hm, h⟩ := withBytes_next.1 h
    cases h
    exact .inr (.inl ⟨a, n, bs, rfl, hb, hr, hm, rfl⟩)
  | issue =>
    obtain ⟨hb, h⟩ := whenIdle_next.1 h
    refine .inr (.inr (.inl ⟨rfl, hb, ?_⟩))
    split at h <;> cases h
    · exact .inl ⟨‹_›, rfl⟩
    · exact .inr ⟨_, ‹_›, rfl⟩
  | readStatus =>
    cases h
    exact .inr (.inr (.inr (.inl ⟨rfl, rfl⟩)))
  | poll =>
    refine .inr (.inr (.inr (.inr (.inl ⟨rfl, ?_⟩))))
    simp only [hostStep] at h
    split at h
    · cases h
      exact .inl ⟨‹_›, rfl⟩
    · exact .inr ⟨_, ‹_›, h⟩
  | reset =>
    cases h
    exact .inr (.inr (.inr (.inr (.inr ⟨rfl, rfl⟩))))

/-- Everything one step can do. -/
theorem coreStep_cases {s t : State} (h : coreStep s = .next t) :
    (∃ rest, s.host = .reset :: rest ∧ t = ({ s with host := rest }).hardReset) ∨
    (s.faultMark = none ∧ ∃ x rest, s.host = x :: rest ∧
      hostStep x { s with host := rest } = .next t) ∨
    (s.faultMark = none ∧ s.host = [] ∧ commandStep s = .next t) := by
  unfold coreStep at h
  split at h
  · unfold faultedStep at h
    split at h
    · rename_i rest hr
      exact .inl ⟨rest, hr, by simpa using h.symm⟩
    · simp at h
  · rename_i hf
    split at h
    · rename_i x rest hx
      exact .inr (.inl ⟨hf, x, rest, hx, h⟩)
    · rename_i hh
      exact .inr (.inr ⟨hf, hh, h⟩)

end Sys2Proof.Machine
end

