-- ==== Sys2Proof/Laws/PerInstr.lean ====
section
/-! SUPPORT. Per-instruction laws. Family EncodeMatch: the word of a command agrees with its own row
of the opcode map on the opcode bits and on every must-be-zero bit (R102, R111). -/

namespace Sys2Proof.Laws.EncodeMatch

/-- The format of a command's row (R111). -/
def format : Instr → Format
  | .floads _ _ => .m
  | .floadr _ _ => .m
  | .fstore _ _ => .m
  | .fadd _ _ _ => .r3
  | .fsub _ _ _ => .r3
  | .fmul _ _ _ => .r3
  | .fsqr _ _ => .r2
  | .fnegc _ _ _ => .rc
  | .fmuls _ _ _ => .ri
  | .fnorm _ _ => .r2
  | .fnormw _ _ => .r2
  | .fiszero _ => .t1
  | .feq _ _ => .t2
  | .feqv _ _ => .t2
  | .fsqrt _ _ => .r2
  | .qloadc _ _ => .m
  | .qloadv _ _ => .m
  | .qloadr _ _ => .m
  | .qstore _ _ => .m
  | .qadd _ _ _ => .r3
  | .qmul _ _ _ => .r3
  | .qnegc _ _ _ => .rc
  | .qinv _ _ => .r2
  | .qiszero _ => .t1
  | .qislehalf _ => .t1
  | .pdbl _ _ => .r2
  | .padd _ _ _ => .r3
  | .pneg _ _ => .r2
  | .peq _ _ => .t2
  | .pisinf _ => .t1
  | .pdecomp _ _ _ => .rs
  | .pload _ _ => .m
  | .paff _ _ _ => .r3
  | .pmul _ _ _ => .r3
  | .pmulg _ _ => .r2
  | .pmul2v _ _ _ _ _ => .d
  | .pmulg2v _ _ _ _ => .dg
  | .sign _ _ _ => .b3
  | .signls _ _ _ => .b3
  | .verify _ _ _ => .b3
  | .verifyls _ _ _ => .b3
  | .signorm _ _ => .b2
  | .pku2r _ _ => .b2
  | .pkr2u _ _ => .b2
  | .pkc2r _ _ => .b2
  | .pkr2c _ _ => .b2

/-- The opcode of a command's row (R111). -/
def opcode : Instr → Byte
  | .floads _ _ => 0x10#8
  | .floadr _ _ => 0x11#8
  | .fstore _ _ => 0x12#8
  | .fadd _ _ _ => 0x13#8
  | .fsub _ _ _ => 0x14#8
  | .fmul _ _ _ => 0x15#8
  | .fsqr _ _ => 0x16#8
  | .fnegc _ _ _ => 0x17#8
  | .fmuls _ _ _ => 0x18#8
  | .fnorm _ _ => 0x19#8
  | .fnormw _ _ => 0x1A#8
  | .fiszero _ => 0x1B#8
  | .feq _ _ => 0x1C#8
  | .feqv _ _ => 0x1D#8
  | .fsqrt _ _ => 0x1E#8
  | .qloadc _ _ => 0x20#8
  | .qloadv _ _ => 0x21#8
  | .qloadr _ _ => 0x22#8
  | .qstore _ _ => 0x23#8
  | .qadd _ _ _ => 0x24#8
  | .qmul _ _ _ => 0x25#8
  | .qnegc _ _ _ => 0x26#8
  | .qinv _ _ => 0x27#8
  | .qiszero _ => 0x28#8
  | .qislehalf _ => 0x29#8
  | .pdbl _ _ => 0x30#8
  | .padd _ _ _ => 0x31#8
  | .pneg _ _ => 0x32#8
  | .peq _ _ => 0x33#8
  | .pisinf _ => 0x34#8
  | .pdecomp _ _ _ => 0x35#8
  | .pload _ _ => 0x36#8
  | .paff _ _ _ => 0x37#8
  | .pmul _ _ _ => 0x40#8
  | .pmulg _ _ => 0x41#8
  | .pmul2v _ _ _ _ _ => 0x42#8
  | .pmulg2v _ _ _ _ => 0x43#8
  | .sign _ _ _ => 0x50#8
  | .signls _ _ _ => 0x51#8
  | .verify _ _ _ => 0x52#8
  | .verifyls _ _ _ => 0x53#8
  | .signorm _ _ => 0x54#8
  | .pku2r _ _ => 0x55#8
  | .pkr2u _ _ => 0x56#8
  | .pkc2r _ _ => 0x57#8
  | .pkr2c _ _ => 0x58#8

/-- The word of the command agrees with its row: step 2 of decoding passes (R109). -/
def Statement (i : Instr) : Prop :=
  opField (encode i) = opcode i ∧ encode i &&& (format i).mask = opcode i ++ 0#24

theorem pattern_mkWord (op : Byte) : (op ++ 0#24 : Word) = mkWord op 0#8 0#8 0#8 := by
  revert op; decide

theorem mask_r3 : Format.mask .r3 = mkWord 0xFF#8 0xF0#8 0xF0#8 0xF0#8 := by decide
theorem mask_r2 : Format.mask .r2 = mkWord 0xFF#8 0xF0#8 0xF0#8 0xFF#8 := by decide
theorem mask_rc : Format.mask .rc = mkWord 0xFF#8 0xF0#8 0xF0#8 0xFC#8 := by decide
theorem mask_ri : Format.mask .ri = mkWord 0xFF#8 0xF0#8 0xF0#8 0x00#8 := by decide
theorem mask_rs : Format.mask .rs = mkWord 0xFF#8 0xF0#8 0xF0#8 0xFE#8 := by decide
theorem mask_t2 : Format.mask .t2 = mkWord 0xFF#8 0xFF#8 0xF0#8 0xF0#8 := by decide
theorem mask_t1 : Format.mask .t1 = mkWord 0xFF#8 0xFF#8 0xF0#8 0xFF#8 := by decide
theorem mask_m : Format.mask .m = mkWord 0xFF#8 0xF0#8 0x00#8 0xFF#8 := by decide
theorem mask_d : Format.mask .d = mkWord 0xFF#8 0xF0#8 0x00#8 0x00#8 := by decide
theorem mask_dg : Format.mask .dg = mkWord 0xFF#8 0xF0#8 0x0F#8 0x00#8 := by decide
theorem mask_b3 : Format.mask .b3 = mkWord 0xFF#8 0x00#8 0x00#8 0x00#8 := by decide
theorem mask_b2 : Format.mask .b2 = mkWord 0xFF#8 0x00#8 0x00#8 0xFF#8 := by decide

theorem byte_and_ones (b : Byte) : b &&& 0xFF#8 = b := by revert b; decide

theorem floads (rd : RegIdx) (off : Byte) : Statement (.floads rd off) := by
  simp [Statement, encode, format, opcode, mask_m, mkWord_and, pattern_mkWord, byte_and_ones]

theorem floadr (rd : RegIdx) (off : Byte) : Statement (.floadr rd off) := by
  simp [Statement, encode, format, opcode, mask_m, mkWord_and, pattern_mkWord, byte_and_ones]

theorem fstore (rs : RegIdx) (off : Byte) : Statement (.fstore rs off) := by
  simp [Statement, encode, format, opcode, mask_m, mkWord_and, pattern_mkWord, byte_and_ones]

theorem fadd (rd rs1 rs2 : RegIdx) : Statement (.fadd rd rs1 rs2) := by
  simp [Statement, encode, format, opcode, mask_r3, mkWord_and, pattern_mkWord, byte_and_ones]

theorem fsub (rd rs1 rs2 : RegIdx) : Statement (.fsub rd rs1 rs2) := by
  simp [Statement, encode, format, opcode, mask_r3, mkWord_and, pattern_mkWord, byte_and_ones]

theorem fmul (rd rs1 rs2 : RegIdx) : Statement (.fmul rd rs1 rs2) := by
  simp [Statement, encode, format, opcode, mask_r3, mkWord_and, pattern_mkWord, byte_and_ones]

theorem fsqr (rd rs : RegIdx) : Statement (.fsqr rd rs) := by
  simp [Statement, encode, format, opcode, mask_r2, mkWord_and, pattern_mkWord, byte_and_ones]

theorem fnegc (rd rs : RegIdx) (cm : CondMode) : Statement (.fnegc rd rs cm) := by
  simp [Statement, encode, format, opcode, mask_rc, mkWord_and, pattern_mkWord, byte_and_ones]

theorem fmuls (rd rs : RegIdx) (imm : Byte) : Statement (.fmuls rd rs imm) := by
  simp [Statement, encode, format, opcode, mask_ri, mkWord_and, pattern_mkWord, byte_and_ones]

theorem fnorm (rd rs : RegIdx) : Statement (.fnorm rd rs) := by
  simp [Statement, encode, format, opcode, mask_r2, mkWord_and, pattern_mkWord, byte_and_ones]

theorem fnormw (rd rs : RegIdx) : Statement (.fnormw rd rs) := by
  simp [Statement, encode, format, opcode, mask_r2, mkWord_and, pattern_mkWord, byte_and_ones]

theorem fiszero (rs : RegIdx) : Statement (.fiszero rs) := by
  simp [Statement, encode, format, opcode, mask_t1, mkWord_and, pattern_mkWord, byte_and_ones]

theorem feq (rs1 rs2 : RegIdx) : Statement (.feq rs1 rs2) := by
  simp [Statement, encode, format, opcode, mask_t2, mkWord_and, pattern_mkWord, byte_and_ones]

theorem feqv (rs1 rs2 : RegIdx) : Statement (.feqv rs1 rs2) := by
  simp [Statement, encode, format, opcode, mask_t2, mkWord_and, pattern_mkWord, byte_and_ones]

theorem fsqrt (rd rs : RegIdx) : Statement (.fsqrt rd rs) := by
  simp [Statement, encode, format, opcode, mask_r2, mkWord_and, pattern_mkWord, byte_and_ones]

theorem qloadc (rd : RegIdx) (off : Byte) : Statement (.qloadc rd off) := by
  simp [Statement, encode, format, opcode, mask_m, mkWord_and, pattern_mkWord, byte_and_ones]

theorem qloadv (rd : RegIdx) (off : Byte) : Statement (.qloadv rd off) := by
  simp [Statement, encode, format, opcode, mask_m, mkWord_and, pattern_mkWord, byte_and_ones]

theorem qloadr (rd : RegIdx) (off : Byte) : Statement (.qloadr rd off) := by
  simp [Statement, encode, format, opcode, mask_m, mkWord_and, pattern_mkWord, byte_and_ones]

theorem qstore (rs : RegIdx) (off : Byte) : Statement (.qstore rs off) := by
  simp [Statement, encode, format, opcode, mask_m, mkWord_and, pattern_mkWord, byte_and_ones]

theorem qadd (rd rs1 rs2 : RegIdx) : Statement (.qadd rd rs1 rs2) := by
  simp [Statement, encode, format, opcode, mask_r3, mkWord_and, pattern_mkWord, byte_and_ones]

theorem qmul (rd rs1 rs2 : RegIdx) : Statement (.qmul rd rs1 rs2) := by
  simp [Statement, encode, format, opcode, mask_r3, mkWord_and, pattern_mkWord, byte_and_ones]

theorem qnegc (rd rs : RegIdx) (cm : CondMode) : Statement (.qnegc rd rs cm) := by
  simp [Statement, encode, format, opcode, mask_rc, mkWord_and, pattern_mkWord, byte_and_ones]

theorem qinv (rd rs : RegIdx) : Statement (.qinv rd rs) := by
  simp [Statement, encode, format, opcode, mask_r2, mkWord_and, pattern_mkWord, byte_and_ones]

theorem qiszero (rs : RegIdx) : Statement (.qiszero rs) := by
  simp [Statement, encode, format, opcode, mask_t1, mkWord_and, pattern_mkWord, byte_and_ones]

theorem qislehalf (rs : RegIdx) : Statement (.qislehalf rs) := by
  simp [Statement, encode, format, opcode, mask_t1, mkWord_and, pattern_mkWord, byte_and_ones]

theorem pdbl (rd rs : RegIdx) : Statement (.pdbl rd rs) := by
  simp [Statement, encode, format, opcode, mask_r2, mkWord_and, pattern_mkWord, byte_and_ones]

theorem padd (rd rs1 rs2 : RegIdx) : Statement (.padd rd rs1 rs2) := by
  simp [Statement, encode, format, opcode, mask_r3, mkWord_and, pattern_mkWord, byte_and_ones]

theorem pneg (rd rs : RegIdx) : Statement (.pneg rd rs) := by
  simp [Statement, encode, format, opcode, mask_r2, mkWord_and, pattern_mkWord, byte_and_ones]

theorem peq (rs1 rs2 : RegIdx) : Statement (.peq rs1 rs2) := by
  simp [Statement, encode, format, opcode, mask_t2, mkWord_and, pattern_mkWord, byte_and_ones]

theorem pisinf (rs : RegIdx) : Statement (.pisinf rs) := by
  simp [Statement, encode, format, opcode, mask_t1, mkWord_and, pattern_mkWord, byte_and_ones]

theorem pdecomp (rd rs : RegIdx) (odd : Bool) : Statement (.pdecomp rd rs odd) := by
  simp [Statement, encode, format, opcode, mask_rs, mkWord_and, pattern_mkWord, byte_and_ones]

theorem pload (rd : RegIdx) (off : Byte) : Statement (.pload rd off) := by
  simp [Statement, encode, format, opcode, mask_m, mkWord_and, pattern_mkWord, byte_and_ones]

theorem paff (rdx rdy rs : RegIdx) : Statement (.paff rdx rdy rs) := by
  simp [Statement, encode, format, opcode, mask_r3, mkWord_and, pattern_mkWord, byte_and_ones]

theorem pmul (rd rs1 rs2 : RegIdx) : Statement (.pmul rd rs1 rs2) := by
  simp [Statement, encode, format, opcode, mask_r3, mkWord_and, pattern_mkWord, byte_and_ones]

theorem pmulg (rd rs : RegIdx) : Statement (.pmulg rd rs) := by
  simp [Statement, encode, format, opcode, mask_r2, mkWord_and, pattern_mkWord, byte_and_ones]

theorem pmul2v (rd qs1 ps1 qs2 ps2 : RegIdx) : Statement (.pmul2v rd qs1 ps1 qs2 ps2) := by
  simp [Statement, encode, format, opcode, mask_d, mkWord_and, pattern_mkWord, byte_and_ones]

theorem pmulg2v (rd qs1 qs2 ps2 : RegIdx) : Statement (.pmulg2v rd qs1 qs2 ps2) := by
  simp [Statement, encode, format, opcode, mask_dg, mkWord_and, pattern_mkWord, byte_and_ones]

theorem sign (offA offB offC : Byte) : Statement (.sign offA offB offC) := by
  simp [Statement, encode, format, opcode, mask_b3, mkWord_and, pattern_mkWord, byte_and_ones]

theorem signls (offA offB offC : Byte) : Statement (.signls offA offB offC) := by
  simp [Statement, encode, format, opcode, mask_b3, mkWord_and, pattern_mkWord, byte_and_ones]

theorem verify (offA offB offC : Byte) : Statement (.verify offA offB offC) := by
  simp [Statement, encode, format, opcode, mask_b3, mkWord_and, pattern_mkWord, byte_and_ones]

theorem verifyls (offA offB offC : Byte) : Statement (.verifyls offA offB offC) := by
  simp [Statement, encode, format, opcode, mask_b3, mkWord_and, pattern_mkWord, byte_and_ones]

theorem signorm (offIn offOut : Byte) : Statement (.signorm offIn offOut) := by
  simp [Statement, encode, format, opcode, mask_b2, mkWord_and, pattern_mkWord, byte_and_ones]

theorem pku2r (offIn offOut : Byte) : Statement (.pku2r offIn offOut) := by
  simp [Statement, encode, format, opcode, mask_b2, mkWord_and, pattern_mkWord, byte_and_ones]

theorem pkr2u (offIn offOut : Byte) : Statement (.pkr2u offIn offOut) := by
  simp [Statement, encode, format, opcode, mask_b2, mkWord_and, pattern_mkWord, byte_and_ones]

theorem pkc2r (offIn offOut : Byte) : Statement (.pkc2r offIn offOut) := by
  simp [Statement, encode, format, opcode, mask_b2, mkWord_and, pattern_mkWord, byte_and_ones]

theorem pkr2c (offIn offOut : Byte) : Statement (.pkr2c offIn offOut) := by
  simp [Statement, encode, format, opcode, mask_b2, mkWord_and, pattern_mkWord, byte_and_ones]

end Sys2Proof.Laws.EncodeMatch
end

