-- ==== Sys2Proof/Laws/Roots.lean ====
section
/-! SUPPORT. The suggested square root keeps R171's promise: p is prime and p mod 4 = 3. -/

namespace Sys2Proof.Machine

/-- Fermat's little theorem for p, on residues (R167). -/
theorem pow_p_sub_one {v : Nat} (h : v % primeP ≠ 0) : v ^ (primeP - 1) % primeP = 1 := by
  have := Nat.ModEq.pow_totient
    (((Nat.Prime.coprime_iff_not_dvd prime_p).2 fun hd => h (Nat.mod_eq_zero_of_dvd hd)).symm)
  rw [Nat.totient_prime prime_p] at this
  exact Eq.trans this (Nat.mod_eq_of_lt (by decide))

/-- A square's principal root squares back to it (R171). -/
theorem principalRoot_sq {v c : Nat} (h : c * c % primeP = v) :
    principalRoot v * principalRoot v % primeP = v := by
  rw [principalRoot_eq, ← Nat.mul_mod, ← pow_add, ← two_mul, ← h, ← pow_two, Nat.pow_mod]
  simp only [Nat.mod_mod]
  rw [← Nat.pow_mod, ← pow_mul]
  by_cases hc : c % primeP = 0
  · rw [Nat.pow_mod, hc, Nat.zero_pow (by decide), pow_two, Nat.mul_mod, hc]
  · rw [show 2 * (2 * ((primeP + 1) / 4)) = (primeP - 1) + 2 by decide, pow_add, Nat.mul_mod,
      pow_p_sub_one hc, one_mul, Nat.mod_mod]

/-- The suggested instance of SQRT_CANDIDATE keeps the contract (R171). -/
theorem sqrtContract_principalRoot : SqrtContract principalRoot :=
  ⟨fun v _ => principalRoot_lt v, fun _ _ _ => principalRoot_sq⟩

/-- An abscissa whose principal candidate does not square back has no point (R226). -/
theorem no_point_of_not_root {x : Nat}
    (h : principalRoot (curveRhs x) * principalRoot (curveRhs x) % primeP ≠ curveRhs x) (y : Nat) :
    onCurve x y = false := by
  by_contra hy
  exact h (principalRoot_sq (c := y) (by simpa [onCurve] using hy))

end Sys2Proof.Machine
end

