-- ==== Sys2Proof/Tests/Slice0.lean ====
section
/-! SUPPORT. Tests: ill-formed commands, every command's word written out from the spec's encoding,
the spec's test vectors on small states, and a witness for the hypotheses of each statement. -/

set_option Elab.async false

namespace Sys2Proof.Tests

open Machine

/-! ### Helpers -/

/-- The outcome is a next state with the property. -/
def ends (r : Result) (p : State → Bool) : Bool :=
  match r with
  | .next t => p t
  | _ => false

/-- The outcome is the fault. -/
def faults (r : Result) (f : Fault) : Bool :=
  match r with
  | .fault g => g == f
  | _ => false

/-- The next state of an outcome, or the reset state. -/
def after (r : Result) : State :=
  match r with
  | .next t => t
  | _ => State.reset

/-- The next state of an outcome is what `after` gives. -/
theorem next_after {r : Result} (h : ends r (fun _ => true) = true) : r = .next (after r) := by
  cases r <;> simp_all [ends, after]

/-- The reset state with field registers F1 and F2 (the spec's section 2.1). -/
def withFields (a b : FieldReg) : State := (State.reset.setF 1#4 (.val a)).setF 2#4 (.val b)
/-- The reset state with scalar registers Q1 and Q2 (section 2.2). -/
def withScalars (k l : Nat) : State := (State.reset.setQ 1#4 (.val k)).setQ 2#4 (.val l)
/-- The reset state with point registers P1 and P2 (section 2.3). -/
def withPoints (a b : Point) : State := (State.reset.setP 1#4 (.val a)).setP 2#4 (.val b)
/-- Scalars and points together (section 2.4). -/
def withMul (k l : Nat) (a b : Point) : State :=
  ((withPoints a b).setQ 1#4 (.val k)).setQ 2#4 (.val l)
/-- The reset state with bytes in BUF from offset 0. -/
def withBuf (bs : List Byte) : State := State.reset.write 0 bs
/-- A reduced and a loose field value. -/
def red (v : Nat) : FieldReg := ⟨v, 1, .reduced⟩
def loose (v m : Nat) : FieldReg := ⟨v, m, .loose⟩
/-- 32 bytes of 0x11 and of 0x22, the examples A and B of `spec/95_test_vectors.md`. -/
def exA : Nat := 0x1111111111111111111111111111111111111111111111111111111111111111
def exB : Nat := 0x2222222222222222222222222222222222222222222222222222222222222222
/-- The generator's coordinates (R11), and 2G, 3G and -G (section 2.3). -/
def gx : Nat := 0x79BE667EF9DCBBAC55A06295CE870B07029BFCDB2DCE28D959F2815B16F81798
def gy : Nat := 0x483ADA7726A3C4655DA4FBFC0E1108A8FD17B448A68554199C47D08FFB10D4B8
def twoG : Point :=
  .aff 0xC6047F9441ED7D6D3045406E95C07CD85C778E4B8CEF3CA7ABAC09B95C709EE5
    0x1AE168FEA63DC339A3C58419466CEAEEF7F632653266D0E1236431A950CFE52A
def threeG : Point :=
  .aff 0xF9308A019258C31049344F85F89D5229B531C845836F99B08601F113BCE036F9
    0x388F7B0F632DE8140FE337E62A37F3566500A99934C2231B6CB9FD7584B8E672
def fourG : Point :=
  .aff 0xE493DBF1C10D80F3581E4904930B1404CC6C13900EE0758474FA94ABE8C4CD13
    0x51ED993EA0D455B75642E2098EA51448D967AE33BFBDFE40CFE97BDC47739922
def minusG : Point :=
  .aff gx 0xB7C52588D95C3B9AA25B0403F1EEF75702E84BB7597AABE663B82F6F04EF2777

/-! ### Ill-formed commands (R74, R109): one for each check and format -/

theorem test_illformed_paff : ¬ (Instr.paff 1#4 1#4 2#4).WellFormed := by decide
theorem test_illformed_load : ¬ (Instr.floads 0#4 0xE1#8).WellFormed := by decide
theorem test_illformed_store : ¬ (Instr.qstore 1#4 0xE1#8).WellFormed := by decide
theorem test_illformed_pload : ¬ (Instr.pload 0#4 0xC1#8).WellFormed := by decide
theorem test_illformed_b3 : ¬ (Instr.sign 0xE1#8 0#8 0#8).WellFormed ∧
    ¬ (Instr.signls 0#8 0xC1#8 0#8).WellFormed ∧ ¬ (Instr.verify 0#8 0#8 0xC1#8).WellFormed ∧
    ¬ (Instr.verifyls 0xE1#8 0#8 0#8).WellFormed := by decide
theorem test_illformed_b2 : ¬ (Instr.signorm 0xC1#8 0#8).WellFormed ∧
    ¬ (Instr.pku2r 0xC0#8 0#8).WellFormed ∧ ¬ (Instr.pkr2u 0#8 0xC0#8).WellFormed ∧
    ¬ (Instr.pkc2r 0xE0#8 0#8).WellFormed ∧ ¬ (Instr.pkr2c 0#8 0xE0#8).WellFormed := by decide
theorem test_wellformed_edges : (Instr.floads 0#4 0xE0#8).WellFormed ∧
    (Instr.pload 0#4 0xC0#8).WellFormed ∧ (Instr.pkr2u 0#8 0xBF#8).WellFormed ∧
    (Instr.pkr2c 0#8 0xDF#8).WellFormed ∧ (Instr.pkc2r 0xDF#8 0xC0#8).WellFormed ∧
    (Instr.pku2r 0xBF#8 0#8).WellFormed := by decide

/-! ### Decoding: each word is R101's fields op, a, b, c of R102's format, or a word of the spec -/

/-- 0x10 to 0x1E: R117 and the words of section 2.1. -/
theorem test_decode_field :
    decode 0x10002000#32 = .ok (.floads 0#4 0x20#8) ∧
    decode 0x110F4000#32 = .ok (.floadr 15#4 0x40#8) ∧
    decode 0x12024000#32 = .ok (.fstore 2#4 0x40#8) ∧
    decode 0x13030102#32 = .ok (.fadd 3#4 1#4 2#4) ∧
    decode 0x14030201#32 = .ok (.fsub 3#4 2#4 1#4) ∧
    decode 0x15030102#32 = .ok (.fmul 3#4 1#4 2#4) ∧
    decode 0x16030100#32 = .ok (.fsqr 3#4 1#4) ∧
    decode 0x17030100#32 = .ok (.fnegc 3#4 1#4 .nv) ∧
    decode 0x17030101#32 = .ok (.fnegc 3#4 1#4 .al) ∧
    decode 0x17030102#32 = .ok (.fnegc 3#4 1#4 .ift) ∧
    decode 0x17030103#32 = .ok (.fnegc 3#4 1#4 .ifnt) ∧
    decode 0x180301FF#32 = .ok (.fmuls 3#4 1#4 255#8) ∧
    decode 0x19010100#32 = .ok (.fnorm 1#4 1#4) ∧
    decode 0x1A010100#32 = .ok (.fnormw 1#4 1#4) ∧
    decode 0x1B000100#32 = .ok (.fiszero 1#4) ∧
    decode 0x1C000102#32 = .ok (.feq 1#4 2#4) ∧
    decode 0x1D000102#32 = .ok (.feqv 1#4 2#4) ∧
    decode 0x1E030100#32 = .ok (.fsqrt 3#4 1#4) := by
  decide

/-- 0x20 to 0x29: the words of section 2.2. -/
theorem test_decode_scalar :
    decode 0x20002000#32 = .ok (.qloadc 0#4 0x20#8) ∧
    decode 0x2105E000#32 = .ok (.qloadv 5#4 0xE0#8) ∧
    decode 0x22030000#32 = .ok (.qloadr 3#4 0#8) ∧
    decode 0x2301E000#32 = .ok (.qstore 1#4 0xE0#8) ∧
    decode 0x24030102#32 = .ok (.qadd 3#4 1#4 2#4) ∧
    decode 0x25040200#32 = .ok (.qmul 4#4 2#4 0#4) ∧
    decode 0x26030103#32 = .ok (.qnegc 3#4 1#4 .ifnt) ∧
    decode 0x27050100#32 = .ok (.qinv 5#4 1#4) ∧
    decode 0x28000200#32 = .ok (.qiszero 2#4) ∧
    decode 0x29000100#32 = .ok (.qislehalf 1#4) := by
  decide

/-- 0x30 to 0x37: the words of section 2.3. -/
theorem test_decode_point :
    decode 0x30020100#32 = .ok (.pdbl 2#4 1#4) ∧
    decode 0x31030201#32 = .ok (.padd 3#4 2#4 1#4) ∧
    decode 0x32020100#32 = .ok (.pneg 2#4 1#4) ∧
    decode 0x33000102#32 = .ok (.peq 1#4 2#4) ∧
    decode 0x34000100#32 = .ok (.pisinf 1#4) ∧
    decode 0x35000100#32 = .ok (.pdecomp 0#4 1#4 false) ∧
    decode 0x35000101#32 = .ok (.pdecomp 0#4 1#4 true) ∧
    decode 0x3600C000#32 = .ok (.pload 0#4 0xC0#8) ∧
    decode 0x37000102#32 = .ok (.paff 0#4 1#4 2#4) := by
  decide

/-- 0x40 to 0x43: the words of section 2.4. -/
theorem test_decode_pointmul :
    decode 0x40020102#32 = .ok (.pmul 2#4 1#4 2#4) ∧
    decode 0x41000100#32 = .ok (.pmulg 0#4 1#4) ∧
    decode 0x42001122#32 = .ok (.pmul2v 0#4 1#4 1#4 2#4 2#4) ∧
    decode 0x42001112#32 = .ok (.pmul2v 0#4 1#4 1#4 1#4 2#4) ∧
    decode 0x43001022#32 = .ok (.pmulg2v 0#4 1#4 2#4 2#4) := by
  decide

/-- 0x50 to 0x58: the words of section 2.5. -/
theorem test_decode_ecdsa :
    decode 0x50002060#32 = .ok (.sign 0#8 0x20#8 0x60#8) ∧
    decode 0x51002060#32 = .ok (.signls 0#8 0x20#8 0x60#8) ∧
    decode 0x52002060#32 = .ok (.verify 0#8 0x20#8 0x60#8) ∧
    decode 0x53002060#32 = .ok (.verifyls 0#8 0x20#8 0x60#8) ∧
    decode 0x54004000#32 = .ok (.signorm 0#8 0x40#8) ∧
    decode 0x55008000#32 = .ok (.pku2r 0#8 0x80#8) ∧
    decode 0x5600BF00#32 = .ok (.pkr2u 0#8 0xBF#8) ∧
    decode 0x57004000#32 = .ok (.pkc2r 0#8 0x40#8) ∧
    decode 0x58004000#32 = .ok (.pkr2c 0#8 0x40#8) := by
  decide

/-- The illegal words of R110 and R117, and V-M6b. -/
theorem test_decode_illegal :
    decode 0x00000000#32 = .error .reservedOpcode ∧ decode 0xFFFFFFFF#32 = .error .reservedOpcode ∧
    decode 0x1F000000#32 = .error .reservedOpcode ∧ decode 0x13130102#32 = .error .mustBeZero ∧
    decode 0x160301FF#32 = .error .mustBeZero ∧ decode 0x43001122#32 = .error .mustBeZero ∧
    decode 0x37010102#32 = .error (.illFormed .equalDestinations) ∧
    decode 0x1000E100#32 = .error (.illFormed .bufRange) := by
  decide

/-! ### The Field family: vectors of `spec/95_test_vectors.md` 2.1 -/

/-- V-F1: p - 1 loads. -/
theorem test_floads_max : ends (runWord 0x10000000#32 (withBuf (int2be32 (primeP - 1))))
    (fun t => decide (t.getF 0#4 = .val (red (primeP - 1))) && decide (t.statusWord = 0x06#32)) = true := by
  decide +kernel

/-- V-F2: p fails. -/
theorem test_floads_p : ends (runWord 0x10000000#32 (withBuf (int2be32 primeP)))
    (fun t => decide (t.getF 0#4 = .bot) && decide (t.statusWord = 0x22#32)) = true := by
  decide +kernel

/-- V-F4. -/
theorem test_floadr_ones : ends (runWord 0x11000000#32 (withBuf (List.replicate 32 0xFF#8)))
    (fun t => decide (t.getF 0#4 = .val (loose 0x1000003D0 1))) = true := by
  decide +kernel

/-- V-F5. -/
theorem test_floadr_p : ends (runWord 0x11000000#32 (withBuf (int2be32 primeP)))
    (fun t => decide (t.getF 0#4 = .val (loose 0 1))) = true := by
  decide +kernel

/-- V-F6: the bytes from 0x40 on. -/
theorem test_fstore : ends (runWord 0x12024000#32 (withFields (red 7) (red 1)))
    (fun t => decide (readBytes t.mem 0x40 32 = .val (List.replicate 31 0#8 ++ [1#8]))) = true := by
  decide +kernel

/-- V-F7. -/
theorem test_fstore_loose : faults (runWord 0x12024000#32 (withFields (red 7) (loose 1 1))) .notNormalized = true := by
  decide +kernel

/-- V-F8. -/
theorem test_fadd : ends (runWord 0x13030102#32 (withFields (red exA) (red (primeP - 1))))
    (fun t => decide (t.getF 3#4 = .val (loose (exA - 1) 2)) && decide (t.statusWord = 0x06#32)) = true := by
  decide +kernel

/-- V-F9: one register as source and destination, to the limit of the budget. -/
theorem test_fadd_in_place : ends (runWord 0x13010101#32 (withFields (loose (primeP - 1) 16) (red 0)))
    (fun t => decide (t.getF 1#4 = .val (loose (primeP - 2) 32))) = true := by
  decide +kernel

/-- V-F12. -/
theorem test_fsub_swapped : ends (runWord 0x14030201#32 (withFields (red exA) (red (primeP - 1))))
    (fun t => decide (t.getF 3#4 = .val (loose 0xEEEEEEEEEEEEEEEEEEEEEEEEEEEEEEEEEEEEEEEEEEEEEEEEEEEEEEEDEEEEEB1D 3))) = true := by
  decide +kernel

/-- V-F13: 0 - 1. -/
theorem test_fsub_wraps : ends (runWord 0x14030102#32 (withFields (red 0) (red 1)))
    (fun t => decide (t.getF 3#4 = .val (loose (primeP - 1) 3))) = true := by
  decide +kernel

/-- V-F14. -/
theorem test_fmul : ends (runWord 0x15030102#32 (withFields (red exA) (red (primeP - 1))))
    (fun t => decide (t.getF 3#4 = .val (loose 0xEEEEEEEEEEEEEEEEEEEEEEEEEEEEEEEEEEEEEEEEEEEEEEEEEEEEEEEDEEEEEB1E 1))) = true := by
  decide +kernel

/-- V-F16. -/
theorem test_fmul_over : faults (runWord 0x15030102#32 (withFields (loose exA 9) (red 0))) .fieldOverflow = true := by
  decide +kernel

/-- V-F18. -/
theorem test_fsqr : ends (runWord 0x16030100#32 (withFields (red exA) (red 0)))
    (fun t => decide (t.getF 3#4 = .val (loose 0x2468ACF13579BE02468ACF13579BE02468ACF13579BE02468BF258C7AE148AE0 1))) = true := by
  decide +kernel

/-- V-F21: T = 0. -/
theorem test_fnegc_ifnt : ends (runWord 0x17030103#32 (withFields (red exA) (red 0)))
    (fun t => decide (t.getF 3#4 = .val (loose 0xEEEEEEEEEEEEEEEEEEEEEEEEEEEEEEEEEEEEEEEEEEEEEEEEEEEEEEEDEEEEEB1E 2))) = true := by
  decide +kernel

/-- V-F20: T = 0. -/
theorem test_fnegc_ift : ends (runWord 0x17030102#32 (withFields (red exA) (red 0)))
    (fun t => decide (t.getF 3#4 = .val (loose exA 2))) = true := by
  decide +kernel

/-- V-F24. -/
theorem test_fmuls : ends (runWord 0x18030115#32 (withFields (red exA) (red 0)))
    (fun t => decide (t.getF 3#4 = .val (loose 0x6666666666666666666666666666666666666666666666666666666766666A36 21))) = true := by
  decide +kernel

/-- V-F26. -/
theorem test_fmuls_zero : ends (runWord 0x18030100#32 (withFields (loose exA 5) (red 0)))
    (fun t => decide (t.getF 3#4 = .val (loose 0 1))) = true := by
  decide +kernel

/-- V-F28. -/
theorem test_fnorm : ends (runWord 0x19010100#32 (withFields (loose 5 3) (red 0)))
    (fun t => decide (t.getF 1#4 = .val (red 5))) = true := by
  decide +kernel

/-- V-F29. -/
theorem test_fnormw : ends (runWord 0x1A010100#32 (withFields (loose 5 9) (red 0)))
    (fun t => decide (t.getF 1#4 = .val (loose 5 1))) = true := by
  decide +kernel

/-- V-F30. -/
theorem test_fiszero : ends (runWord 0x1B000100#32 (withFields (red 0) (red 1)))
    (fun t => decide (t.statusWord = 0x0E#32)) = true := by
  decide +kernel

/-- V-F31: T = 1 before. -/
theorem test_fiszero_clears : ends (runWord 0x1B000100#32 ((withFields (red 7) (red 1)).setT true))
    (fun t => decide (t.statusWord = 0x06#32)) = true := by
  decide +kernel

/-- V-F33. -/
theorem test_feq : ends (runWord 0x1C000102#32 (withFields (red 7) (red 7)))
    (fun t => decide (t.statusWord = 0x0E#32)) = true := by
  decide +kernel

/-- V-F34: T = 1 before. -/
theorem test_feqv : ends (runWord 0x1D000102#32 ((withFields (red 7) (red 8)).setT true))
    (fun t => decide (t.statusWord = 0x06#32)) = true := by
  decide +kernel

/-- V-F36 and its note: 4 has the roots 2 and p - 2, and the implementation returns one. -/
theorem test_fsqrt_four : ends (runWord 0x1E030100#32 (withFields (red 4) (red 0)))
    (fun t => decide (t.getF 3#4 = .val (loose 2 1)) ||
      decide (t.getF 3#4 = .val (loose (primeP - 2) 1))) = true := by
  have h : sqrtCandidate 4 = 2 ∨ sqrtCandidate 4 = primeP - 2 := by
    have hr : principalRoot 4 = 2 := by decide +kernel
    unfold sqrtCandidate
    rw [hr, if_pos (by decide)]
    split
    · exact .inr (by decide)
    · exact .inl rfl
  have hd : decode 0x1E030100#32 = .ok (.fsqrt 3#4 1#4) := by decide
  have hf : (withFields (red 4) (red 0)).getF 1#4 = .val (red 4) := by decide
  have e : runWord 0x1E030100#32 (withFields (red 4) (red 0)) =
      .next ((withFields (red 4) (red 0)).setLoose 3#4 (sqrtCandidate 4) 1).finishOk := by
    simp only [runWord, hd, exec, execFsqrt, withF_val hf]
    exact require_true (by decide)
  rw [e]
  rcases h with h | h <;> rw [h] <;> decide +kernel

/-! ### The Scalar family: vectors of 2.2 -/

/-- V-Q3. -/
theorem test_qloadc_max : ends (runWord 0x20000000#32 (withBuf (int2be32 (orderQ - 1))))
    (fun t => decide (t.getQ 0#4 = .val (orderQ - 1))) = true := by
  decide +kernel

/-- V-Q1. -/
theorem test_qloadc_zero : ends (runWord 0x20000000#32 (withBuf (int2be32 0)))
    (fun t => decide (t.getQ 0#4 = .bot) && decide (t.statusWord = 0x12#32)) = true := by
  decide +kernel

/-- R182: the bytes of q fail. -/
theorem test_qloadv_q : ends (runWord 0x21000000#32 (withBuf (int2be32 orderQ)))
    (fun t => decide (t.getQ 0#4 = .bot) && decide (t.statusWord = 0x12#32)) = true := by
  decide +kernel

/-- V-Q6. -/
theorem test_qloadv_max : ends (runWord 0x21000000#32 (withBuf (int2be32 (orderQ - 1))))
    (fun t => decide (t.getQ 0#4 = .val (orderQ - 1))) = true := by
  decide +kernel

/-- V-Q7. -/
theorem test_qloadr : ends (runWord 0x22000000#32 (withBuf (List.replicate 32 0xFF#8)))
    (fun t => decide (t.getQ 0#4 = .val (0x14551231950B75FC4402DA1732FC9BEBE))) = true := by
  decide +kernel

/-- V-Q10: the last byte was never written. -/
theorem test_qloadr_short : faults (runWord 0x22000000#32 (withBuf (List.replicate 31 0#8))) .readNoValue = true := by
  decide +kernel

/-- V-Q11: up to the last cell. -/
theorem test_qstore : ends (runWord 0x2301E000#32 (withScalars 1 0))
    (fun t => decide (readBytes t.mem 0xE0 32 = .val (List.replicate 31 0#8 ++ [1#8]))) = true := by
  decide +kernel

/-- V-Q12: one byte too far, nothing is written. -/
theorem test_qstore_range : ends (runWord 0x2301E100#32 (withScalars 1 0))
    (fun t => decide (t.mem = []) && decide (t.statusWord = 0x72#32)) = true := by
  decide +kernel

/-- V-Q13. -/
theorem test_qadd : ends (runWord 0x24030102#32 (withScalars (orderQ - 1) 2))
    (fun t => decide (t.getQ 3#4 = .val (1))) = true := by
  decide +kernel

/-- V-Q17. -/
theorem test_qmul : ends (runWord 0x25030101#32 (withScalars exB 0))
    (fun t => decide (t.getQ 3#4 = .val (0xD66CC8C2F13D8EB74980FEAEB9F3B750F0651310E4C28C4C6A6566E4B9EC1306))) = true := by
  decide +kernel

/-- V-Q16. -/
theorem test_qmul_max : ends (runWord 0x25030102#32 (withScalars (orderQ - 1) (orderQ - 1)))
    (fun t => decide (t.getQ 3#4 = .val (1))) = true := by
  decide +kernel

/-- V-Q20. -/
theorem test_qnegc : ends (runWord 0x26030101#32 (withScalars exB 0))
    (fun t => decide (t.getQ 3#4 = .val (0xDDDDDDDDDDDDDDDDDDDDDDDDDDDDDDDC988CBAC48D267E199DB03C6AAE141F1F))) = true := by
  decide +kernel

/-- V-Q22: T = 1. -/
theorem test_qnegc_ift : ends (runWord 0x26030102#32 ((withScalars 1 0).setT true))
    (fun t => decide (t.getQ 3#4 = .val (orderQ - 1))) = true := by
  decide +kernel

/-- V-Q26. -/
theorem test_qinv : ends (runWord 0x27030100#32 (withScalars exB 0))
    (fun t => decide (t.getQ 3#4 = .val (0xC4637F95646F941DE39BBCEB2B77F2D01A47DF0B41D999BB9309124DAAF9E55C))) = true := by
  decide +kernel

/-- V-Q29. -/
theorem test_qinv_zero : faults (runWord 0x27030100#32 (withScalars 0 0)) .invertZero = true := by
  decide +kernel

/-- V-Q30. -/
theorem test_qiszero : ends (runWord 0x28000100#32 (withScalars 0 0))
    (fun t => decide (t.statusWord = 0x0E#32)) = true := by
  decide +kernel

/-- V-Q32. -/
theorem test_qislehalf : ends (runWord 0x29000100#32 (withScalars halfQ 0))
    (fun t => decide (t.statusWord = 0x0E#32)) = true := by
  decide +kernel

/-- V-Q33: T = 1 before. -/
theorem test_qislehalf_above : ends (runWord 0x29000100#32 ((withScalars (halfQ + 1) 0).setT true))
    (fun t => decide (t.statusWord = 0x06#32)) = true := by
  decide +kernel

/-! ### The Point family: vectors of 2.3 -/

/-- V-P1. -/
theorem test_pdbl : ends (runWord 0x30020100#32 (withPoints genG .inf))
    (fun t => decide (t.getP 2#4 = .val (twoG))) = true := by
  decide +kernel

/-- V-P3. -/
theorem test_padd : ends (runWord 0x31030102#32 (withPoints genG twoG))
    (fun t => decide (t.getP 3#4 = .val (threeG))) = true := by
  decide +kernel

/-- V-P6. -/
theorem test_padd_opposite : ends (runWord 0x31030102#32 (withPoints genG minusG))
    (fun t => decide (t.getP 3#4 = .val (.inf))) = true := by
  decide +kernel

/-- V-P9. -/
theorem test_pneg : ends (runWord 0x32020100#32 (withPoints genG .inf))
    (fun t => decide (t.getP 2#4 = .val (minusG))) = true := by
  decide +kernel

/-- V-P12: T = 1 before. -/
theorem test_peq : ends (runWord 0x33000102#32 ((withPoints genG minusG).setT true))
    (fun t => decide (t.statusWord = 0x06#32)) = true := by
  decide +kernel

/-- V-P13. -/
theorem test_peq_inf : ends (runWord 0x33000102#32 (withPoints .inf .inf))
    (fun t => decide (t.statusWord = 0x0E#32)) = true := by
  decide +kernel

/-- V-P15. -/
theorem test_pisinf : ends (runWord 0x34000100#32 (withPoints .inf .inf))
    (fun t => decide (t.statusWord = 0x0E#32)) = true := by
  decide +kernel

/-- V-P17. -/
theorem test_pisinf_no_value : faults (runWord 0x34000100#32 (State.reset)) .readNoValue = true := by
  decide +kernel

/-- V-P19. -/
theorem test_pdecomp_odd : ends (runWord 0x35000101#32 (withFields (red gx) (red 0)))
    (fun t => decide (t.getP 0#4 = .val (minusG))) = true := by
  decide +kernel

/-- V-P20. -/
theorem test_pdecomp_zero : ends (runWord 0x35000100#32 (withFields (red 0) (red 0)))
    (fun t => decide (t.getP 0#4 = .bot) && decide (t.statusWord = 0x22#32)) = true := by
  decide +kernel

/-- V-P25. -/
theorem test_pload : ends (runWord 0x36000000#32 (withBuf (int2be32 gx ++ int2be32 gy)))
    (fun t => decide (t.getP 0#4 = .val (genG))) = true := by
  decide +kernel

/-- V-P26. -/
theorem test_pload_off_curve : ends (runWord 0x36000000#32 (withBuf (int2be32 gx ++ int2be32 (gy + 1))))
    (fun t => decide (t.getP 0#4 = .bot) && decide (t.statusWord = 0x22#32)) = true := by
  decide +kernel

/-- V-P30. -/
theorem test_paff : ends (runWord 0x37000102#32 (withPoints .inf threeG))
    (fun t => decide (t.getF 0#4 = .val (red 0xF9308A019258C31049344F85F89D5229B531C845836F99B08601F113BCE036F9)) &&
      decide (t.getF 1#4 = .val (red 0x388F7B0F632DE8140FE337E62A37F3566500A99934C2231B6CB9FD7584B8E672))) = true := by
  decide +kernel

/-- V-P31. -/
theorem test_paff_inf : ends (runWord 0x37000102#32 (withPoints .inf .inf))
    (fun t => decide (t.getF 0#4 = .bot) && decide (t.getF 1#4 = .bot) && decide (t.statusWord = 0x22#32)) = true := by
  decide +kernel

/-! ### The PointMul family: vectors of 2.4 -/

/-- V-M4: twice 2G. -/
theorem test_pmul : ends (runWord 0x40000102#32 (withMul 2 0 .inf twoG))
    (fun t => decide (t.getP 0#4 = .val (fourG))) = true := by
  decide +kernel

/-- V-M1. -/
theorem test_pmulg : ends (runWord 0x41000100#32 (withMul 3 0 .inf .inf))
    (fun t => decide (t.getP 0#4 = .val (threeG))) = true := by
  decide +kernel

/-- V-M2. -/
theorem test_pmulg_zero : ends (runWord 0x41000100#32 (withMul 0 0 .inf .inf))
    (fun t => decide (t.getP 0#4 = .val (.inf))) = true := by
  decide +kernel

/-- V-M5. -/
theorem test_pmul2v : ends (runWord 0x42001122#32 (withMul 1 2 genG genG))
    (fun t => decide (t.getP 0#4 = .val (threeG))) = true := by
  decide +kernel

/-- V-M5a: the sum is O. -/
theorem test_pmul2v_inf : ends (runWord 0x42001112#32 (withMul 7 0 genG minusG))
    (fun t => decide (t.getP 0#4 = .val (.inf))) = true := by
  decide +kernel

/-- V-M6. -/
theorem test_pmulg2v : ends (runWord 0x43001022#32 (withMul 1 1 .inf twoG))
    (fun t => decide (t.getP 0#4 = .val (threeG))) = true := by
  decide +kernel

/-! ### The Ecdsa family: vectors of 2.5 -/

/-- The layout of the sign vectors: digest at 0x00, private key at 0x20, nonce at 0x40. -/
def signBuf (z d k : Nat) : State := withBuf (int2be32 z ++ int2be32 d ++ int2be32 k)
/-- The layout of the verify vectors: digest at 0x00, raw key at 0x20, signature at 0x60. -/
def verifyBuf (z x y r v : Nat) : State :=
  withBuf (int2be32 z ++ (int2be32 x ++ int2be32 y) ++ (int2be32 r ++ int2be32 v))
/-- The digest and the signature of V-S1, made with d = 1 and k = 1. -/
def digest1 : Nat := 0xE3B0C44298FC1C149AFBF4C8996FB92427AE41E4649B934CA495991B7852B855
def sig1 : Nat := 0x5D6F2AC192D8D7C0F09C575E67F6C42C6F9B61D8E3211BEA3EB5BBE9BF148EAC
/-- The two halves of V-S2: as SIGN leaves the second, and as SIGNLS does. -/
def r2 : Nat := 0x432310E32CB80EB6503A26CE83CC165C783B870845FB8AAD6D970889FCD7A6C8
def high2 : Nat := 0xD443EFEC387E37ED59BDB68EF59F22804910F5C725452D131F7703E3BED73FAE
def low2 : Nat := 0x2BBC1013C781C812A64249710A60DD7E719DE71F8A037328A05B5AA9115F0193

/-- V-S1. -/
theorem test_sign : ends (runWord 0x50002060#32 (signBuf digest1 1 1))
    (fun t => decide (t.statusWord = 0x06#32) &&
      decide (readBytes t.mem 0x60 64 = .val (int2be32 gx ++ int2be32 sig1))) = true := by
  decide +kernel

/-- V-S6: s = 0. -/
theorem test_sign_degenerate : ends (runWord 0x50002060#32 (signBuf 0x8641998106234453AA5F9D6A3178F4F7B812E00B817A776265DFDD31B93E29A9 1 1))
    (fun t => decide (t.statusWord = 0x32#32) && decide (readBytes t.mem 0x60 64 = .bot)) = true := by
  decide +kernel

/-- V-S1 under SIGNLS: s is low already. -/
theorem test_signls : ends (runWord 0x51002060#32 (signBuf digest1 1 1))
    (fun t => decide (t.statusWord = 0x06#32) &&
      decide (readBytes t.mem 0x60 64 = .val (int2be32 gx ++ int2be32 sig1))) = true := by
  decide +kernel

/-- V-S8: both the key and the nonce are bad. -/
theorem test_signls_key : ends (runWord 0x51002060#32 (signBuf digest1 orderQ 0))
    (fun t => decide (t.statusWord = 0x12#32)) = true := by
  decide +kernel

/-- V-V8: the abscissa of the sum is q + 2 and r is 2. -/
theorem test_verify_edge : ends (runWord 0x52002060#32 (verifyBuf
    0x4B688DF40BCEDBE641DDB16FF0A1842D9C67EA1C3BF63F3E0471BAA664531D1A
    0xAD4F8FED5B507A5270FC8618CB3DA4C01F87706A269E02A0DAB1575F7BE9ED42
    0x620050BCF9226FF932873AF0AD828017707D715EDA7B2EE6EB2A8CEE421219E0 2
    0x1234567890ABCDEF1234567890ABCDEF1234567890ABCDEF1234567890ABCDEF))
    (fun t => decide (t.statusWord = 0x06#32)) = true := by
  decide +kernel

/-- V-V9: the key is off the curve and r is 0: the key is checked first. -/
theorem test_verify_order : ends (runWord 0x52002060#32 (verifyBuf digest1 gx (gy + 1) 0 sig1))
    (fun t => decide (t.statusWord = 0x22#32)) = true := by
  decide +kernel

/-- V-V9a: a high s and a bad key: s is checked first. -/
theorem test_verifyls_high : ends (runWord 0x53002060#32 (verifyBuf digest1 0 0 r2 high2))
    (fun t => decide (t.statusWord = 0x62#32)) = true := by
  decide +kernel

/-- V-N1. -/
theorem test_signorm_high : ends (runWord 0x54004000#32 (withBuf (int2be32 r2 ++ int2be32 high2)))
    (fun t => decide (t.statusWord = 0x06#32) && decide (readBytes t.mem 0x40 64 = .val (int2be32 r2 ++ int2be32 low2))) = true := by
  decide +kernel

/-- V-N4. -/
theorem test_signorm_zero : ends (runWord 0x54004000#32 (withBuf (int2be32 r2 ++ int2be32 0)))
    (fun t => decide (t.statusWord = 0x12#32) && decide (readBytes t.mem 0x40 64 = .bot)) = true := by
  decide +kernel

/-- V-K1. -/
theorem test_pku2r : ends (runWord 0x55008000#32 (withBuf (4#8 :: (int2be32 gx ++ int2be32 gy))))
    (fun t => decide (t.statusWord = 0x06#32) && decide (readBytes t.mem 0x80 64 = .val (int2be32 gx ++ int2be32 gy))) = true := by
  decide +kernel

/-- V-K2. -/
theorem test_pku2r_tag : ends (runWord 0x55008000#32 (withBuf (2#8 :: (int2be32 gx ++ int2be32 gy))))
    (fun t => decide (t.statusWord = 0x42#32)) = true := by
  decide +kernel

/-- V-K6: the output ends in the last cell. -/
theorem test_pkr2u : ends (runWord 0x5600BF00#32 (withBuf (int2be32 gx ++ int2be32 gy)))
    (fun t => decide (t.statusWord = 0x06#32) && decide (readBytes t.mem 0xBF 65 = .val (4#8 :: (int2be32 gx ++ int2be32 gy)))) = true := by
  decide +kernel

/-- V-K5. -/
theorem test_pkr2u_range : ends (runWord 0x5600C000#32 (withBuf (int2be32 gx ++ int2be32 gy)))
    (fun t => decide (t.statusWord = 0x72#32) && decide (readBytes t.mem 0xC0 1 = .bot)) = true := by
  decide +kernel

/-- V-K7. -/
theorem test_pkc2r : ends (runWord 0x57004000#32 (withBuf (2#8 :: int2be32 gx)))
    (fun t => decide (t.statusWord = 0x06#32) && decide (readBytes t.mem 0x40 64 = .val (int2be32 gx ++ int2be32 gy))) = true := by
  decide +kernel

/-- V-K10a: wrong tag and x out of range. -/
theorem test_pkc2r_order : ends (runWord 0x57004000#32 (withBuf (0#8 :: int2be32 primeP)))
    (fun t => decide (t.statusWord = 0x42#32)) = true := by
  decide +kernel

/-- V-K12: 16G has an odd ordinate. -/
theorem test_pkr2c : ends (runWord 0x58004000#32 (withBuf
    (int2be32 0xE60FCE93B59E9EC53011AABC21C23E97B2A31369B87A5AE9C44EE89E2A6DEC0A ++
      int2be32 0xF7E3507399E595929DB99F34F57937101296891E44D23F0BE1F32CCE69616821)))
    (fun t => decide (readBytes t.mem 0x40 33 = .val (3#8 ::
      int2be32 0xE60FCE93B59E9EC53011AABC21C23E97B2A31369B87A5AE9C44EE89E2A6DEC0A))) = true := by
  decide +kernel

/-- V-K11. -/
theorem test_pkr2c_even : ends (runWord 0x58004000#32 (withBuf (int2be32 gx ++ int2be32 gy)))
    (fun t => decide (readBytes t.mem 0x40 33 = .val (2#8 :: int2be32 gx))) = true := by
  decide +kernel

/-! ### Witnesses: states and operands that meet the hypotheses of each statement, clause by clause -/

theorem test_witness_DecodeUndoesEncode : (Instr.floads 15#4 0xE0#8).WellFormed ∧
    (Instr.paff 0#4 15#4 2#4).WellFormed := by decide

theorem test_witness_LegalWordsAreEncodings :
    decode 0x2301E000#32 = .ok (.qstore 1#4 0xE0#8) := by decide

theorem test_witness_ReservedWordsAreIllegal :
    (opField 0x0F000000#32).toNat / 16 = 0 ∧ 6 ≤ (opField 0x60000000#32).toNat / 16 ∧
    (opField 0x1F000000#32).toNat = 0x1F ∧
    (0x2A ≤ (opField 0x2A000000#32).toNat ∧ (opField 0x2F000000#32).toNat ≤ 0x2F) ∧
    (0x38 ≤ (opField 0x38000000#32).toNat ∧ (opField 0x3F000000#32).toNat ≤ 0x3F) ∧
    (0x44 ≤ (opField 0x44000000#32).toNat ∧ (opField 0x4F000000#32).toNat ≤ 0x4F) ∧
    (0x59 ≤ (opField 0x59000000#32).toNat ∧ (opField 0x5F000000#32).toNat ≤ 0x5F) ∧
    (∃ row ∈ rows, opField 0x160301FF#32 = row.op ∧
      0x160301FF#32 &&& row.format.mask ≠ row.pattern) ∧
    decode 0x1000E100#32 = .error (.illFormed .bufRange) :=
  ⟨by decide, by decide, by decide, by decide, by decide, by decide, by decide,
    ⟨⟨0x16#8, .r2, fun w => .fsqr (regA w) (regB w)⟩, by simp [rows, fieldRows], by decide,
      by decide⟩, by decide⟩

theorem test_witness_IllFormedCommandsDoNothing : ¬ (Instr.paff 3#4 3#4 0#4).WellFormed ∧
    ¬ (Instr.pkr2u 0#8 0xC0#8).WellFormed := by decide

/-- A host that has loaded FADD F3, F1, F2; and the same word in flight. -/
def loaded : State := { withFields (red 5) (red 7) with program := [0x13030102#32] }
def flying : State := loaded.accept 0x13030102#32

theorem test_witness_StepRunsDecodedCommand :
    (loaded.faultMark = none ∧ loaded.host = [] ∧ loaded.inFlight = none ∧
      loaded.program[loaded.pc]? = some 0x13030102#32) ∧
    (flying.faultMark = none ∧ flying.host = [] ∧ flying.inFlight = some 0x13030102#32) ∧
    decode 0x13030102#32 = .ok (.fadd 3#4 1#4 2#4) ∧
    decode 0x00000000#32 = .error .reservedOpcode ∧
    (State.reset.faultMark = none ∧ State.reset.host = [] ∧ State.reset.inFlight = none ∧
      State.reset.program[State.reset.pc]? = none) := by decide

theorem test_witness_FieldLoadsAndStore :
    (0xE0#8).toNat + 32 ≤ 256 ∧
    readBytes (withBuf (int2be32 (primeP - 1))).mem 0 32 = .val (int2be32 (primeP - 1)) ∧
    be2int (int2be32 (primeP - 1)) < primeP ∧
    readBytes (withBuf (int2be32 primeP)).mem 0 32 = .val (int2be32 primeP) ∧
    primeP ≤ be2int (int2be32 primeP) ∧
    (withFields (red (primeP - 1)) (loose 0 1)).getF 1#4 = .val (red (primeP - 1)) ∧
    (red (primeP - 1)).val < primeP ∧ (red (primeP - 1)).norm = .reduced ∧
    (withFields (red 0) (loose 0 1)).getF 2#4 = .val (loose 0 1) ∧
    (loose 0 1).norm = .loose := by decide +kernel

theorem test_witness_FieldAddAndSub :
    (withFields (loose 1 16) (loose 2 17)).getF 1#4 = .val (loose 1 16) ∧
    (withFields (loose 1 16) (loose 2 17)).getF 2#4 = .val (loose 2 17) ∧
    (loose 1 16).mag + (loose 1 16).mag ≤ State.reset.magLimit ∧
    State.reset.magLimit < (loose 1 16).mag + (loose 2 17).mag ∧
    (loose 1 16).mag + (loose 1 15).mag + 1 ≤ State.reset.magLimit ∧
    State.reset.magLimit < (loose 1 16).mag + (loose 1 16).mag + 1 := by decide

theorem test_witness_FieldMultiplications :
    (withFields (loose 3 8) (loose 4 9)).getF 1#4 = .val (loose 3 8) ∧
    (withFields (loose 3 8) (loose 4 9)).getF 2#4 = .val (loose 4 9) ∧
    (loose 3 8).mag ≤ State.reset.magMul ∧ State.reset.magMul < (loose 4 9).mag ∧
    max 1 ((loose 3 8).mag * (4#8).toNat) ≤ State.reset.magLimit ∧
    max 1 ((loose 3 8).mag * (0#8).toNat) ≤ State.reset.magLimit ∧
    State.reset.magLimit < max 1 ((loose 3 8).mag * (5#8).toNat) := by decide

theorem test_witness_FieldNegateAndNormalize :
    (withFields (loose 0 31) (loose 1 32)).getF 1#4 = .val (loose 0 31) ∧
    (withFields (loose 0 31) (loose 1 32)).getF 2#4 = .val (loose 1 32) ∧
    (loose 0 31).val < primeP ∧ (loose 0 31).mag + 1 ≤ State.reset.magLimit ∧
    State.reset.magLimit < (loose 1 32).mag + 1 ∧
    Negates (State.reset.setT true) .ift ∧ Negates State.reset .ifnt ∧ Negates State.reset .al ∧
    ¬ Negates State.reset .ift ∧ ¬ Negates (State.reset.setT true) .ifnt ∧
    ¬ Negates State.reset .nv := by
  refine ⟨by decide, by decide, by decide, by decide, by decide, rfl, rfl, trivial, ?_, ?_, id⟩ <;>
    (unfold Negates; decide)

theorem test_witness_FieldSquareRoot :
    (withFields (loose 4 8) (loose 7 9)).getF 1#4 = .val (loose 4 8) ∧
    (withFields (loose 4 8) (loose 7 9)).getF 2#4 = .val (loose 7 9) ∧
    (loose 4 8).val < primeP ∧ (loose 4 8).mag ≤ State.reset.magMul ∧
    State.reset.magMul < (loose 7 9).mag ∧ (∃ y, y * y % primeP = (loose 4 8).val) :=
  ⟨by decide, by decide, by decide, by decide, by decide, 2, by decide⟩

theorem test_witness_FieldPredicates :
    (withFields (red 0) (loose 0 1)).getF 1#4 = .val (red 0) ∧
    (withFields (red 0) (loose 0 1)).getF 2#4 = .val (loose 0 1) ∧
    (red 0).norm = .reduced ∧ (loose 0 1).norm = .loose := by decide

theorem test_witness_FieldBudgetIsStatic :
    (∀ i ∈ [Instr.fadd 3#4 1#4 2#4, .fnorm 3#4 3#4, .feq 3#4 1#4, .fnegc 3#4 3#4 .ift],
      i.ofFieldRegisters = true) ∧
    (∀ r, SameTags ((withFields (red 5) (red 7)).getF r)
      (((withFields (red 6) (red 0)).setT true).getF r)) ∧
    ends (execAll [.fadd 3#4 1#4 2#4, .fnorm 3#4 3#4, .feq 3#4 1#4, .fnegc 3#4 3#4 .ift]
      (withFields (red 5) (red 7))) (fun t => decide (t.getF 3#4 = .val (loose 12 2))) = true ∧
    faults (execAll [.fadd 3#4 1#4 2#4, .feq 3#4 1#4] (withFields (red 5) (red 7)))
      .notNormalized = true ∧
    faults (execAll [.fadd 0#4 1#4 3#4] (withFields (red 5) (red 7))) .readNoValue = true := by
  refine ⟨by decide, fun r => ?_, by decide, by decide, by decide⟩
  have : ∀ r, SameTags ((withFields (red 5) (red 7)).getF r)
      (((withFields (red 6) (red 0)).setT true).getF r) ↔
      (((withFields (red 5) (red 7)).getF r = .bot ∧
        ((withFields (red 6) (red 0)).setT true).getF r = .bot) ∨
       ∃ a b, (withFields (red 5) (red 7)).getF r = .val a ∧
        ((withFields (red 6) (red 0)).setT true).getF r = .val b ∧
        a.mag = b.mag ∧ a.norm = b.norm) := by
    intro r
    cases (withFields (red 5) (red 7)).getF r <;>
      cases ((withFields (red 6) (red 0)).setT true).getF r <;> simp [SameTags]
  rw [this]
  by_cases h1 : r = 1#4
  · subst h1; exact .inr ⟨red 5, red 6, by decide, by decide, rfl, rfl⟩
  · by_cases h2 : r = 2#4
    · subst h2; exact .inr ⟨red 7, red 0, by decide, by decide, rfl, rfl⟩
    · have hr : ∀ r, r ≠ 1#4 → r ≠ 2#4 → (withFields (red 5) (red 7)).getF r = .bot ∧
          ((withFields (red 6) (red 0)).setT true).getF r = .bot := by decide
      exact .inl (hr r h1 h2)

theorem test_witness_ScalarLoads :
    (0xE0#8).toNat + 32 ≤ 256 ∧
    readBytes (withBuf (int2be32 1)).mem 0 32 = .val (int2be32 1) ∧ be2int (int2be32 1) = 1 ∧
    readBytes (withBuf (int2be32 (orderQ - 1))).mem 0 32 = .val (int2be32 (orderQ - 1)) ∧
    be2int (int2be32 (orderQ - 1)) < orderQ ∧
    readBytes (withBuf (int2be32 0)).mem 0 32 = .val (int2be32 0) ∧ be2int (int2be32 0) = 0 ∧
    readBytes (withBuf (int2be32 orderQ)).mem 0 32 = .val (int2be32 orderQ) ∧
    orderQ ≤ be2int (int2be32 orderQ) := by decide +kernel

theorem test_witness_ScalarStoreAddMul : (0xE0#8).toNat + 32 ≤ 256 ∧
    (withScalars (orderQ - 1) 0).getQ 1#4 = .val (orderQ - 1) ∧ orderQ - 1 < orderQ ∧
    (withScalars (orderQ - 1) 0).getQ 2#4 = .val 0 := by decide

theorem test_witness_ScalarNegate :
    (withScalars 0 (orderQ - 1)).getQ 1#4 = .val 0 ∧ 0 < orderQ ∧
    (withScalars 0 (orderQ - 1)).getQ 2#4 = .val (orderQ - 1) ∧ orderQ - 1 < orderQ := by decide

theorem test_witness_ScalarInverse :
    (withScalars 0 (orderQ - 1)).getQ 1#4 = .val 0 ∧
    (withScalars 0 (orderQ - 1)).getQ 2#4 = .val (orderQ - 1) ∧ orderQ - 1 < orderQ ∧
    orderQ - 1 ≠ 0 := by decide

theorem test_witness_ScalarPredicates : (withScalars 0 halfQ).getQ 1#4 = .val 0 ∧
    (withScalars 0 halfQ).getQ 2#4 = .val halfQ ∧ halfQ = (orderQ - 1) / 2 := by decide

theorem test_witness_LowSNormalization :
    (withScalars (halfQ + 1) 0).getQ 1#4 = .val (halfQ + 1) ∧ halfQ + 1 < orderQ ∧
    halfQ + 1 ≠ 0 := by decide

theorem test_witness_PointGroupCommands :
    (withPoints genG minusG).getP 1#4 = .val genG ∧
    (withPoints genG minusG).getP 2#4 = .val minusG := by decide

theorem test_witness_AdditionIsChordAndTangent :
    IsCurvePoint gx gy ∧ (gx = gx ∧ (gy + (primeP - gy)) % primeP = 0) ∧
    IsCurvePoint gx (primeP - gy) ∧ ¬ (gx = gx ∧ (gy + gy) % primeP = 0) := by
  unfold IsCurvePoint
  decide +kernel

theorem test_witness_PointsFormAGroup :
    genG.valid = true ∧ twoG.valid = true ∧ minusG.valid = true ∧ Point.inf.valid = true ∧
    IsCurvePoint gx gy := by
  unfold IsCurvePoint
  decide +kernel

theorem test_witness_PointPredicates :
    (withPoints .inf genG).getP 1#4 = .val .inf ∧ (withPoints .inf genG).getP 2#4 = .val genG := by
  decide

theorem test_witness_PointDecompression :
    (withFields (red gx) (loose gx 1)).getF 1#4 = .val (red gx) ∧ (red gx).norm = .reduced ∧
    (red gx).val < primeP ∧ gy < primeP ∧ onCurve (red gx).val gy = true ∧ parity gy = false ∧
    parity (primeP - gy) = true ∧ onCurve (red gx).val (primeP - gy) = true ∧
    (∀ y, onCurve (red 0).val y = false) ∧
    (withFields (red gx) (loose gx 1)).getF 2#4 = .val (loose gx 1) :=
  ⟨by decide, by decide, by decide, by decide, by decide +kernel, by decide, by decide,
    by decide +kernel, no_point_of_not_root (by decide +kernel), by decide⟩

theorem test_witness_DecompressionIgnoresRootChoice :
    SqrtContract principalRoot ∧ primeP - 1 < primeP :=
  ⟨sqrtContract_principalRoot, by decide⟩

theorem test_witness_PointLoad :
    (0xC0#8).toNat + 64 ≤ 256 ∧
    readBytes (withBuf (int2be32 gx ++ int2be32 gy)).mem 0 32 = .val (int2be32 gx) ∧
    readBytes (withBuf (int2be32 gx ++ int2be32 gy)).mem 32 32 = .val (int2be32 gy) ∧
    IsCurvePoint (be2int (int2be32 gx)) (be2int (int2be32 gy)) ∧
    ¬ IsCurvePoint (be2int (int2be32 primeP)) (be2int (int2be32 gy)) := by
  unfold IsCurvePoint
  decide +kernel

theorem test_witness_PointToAffine : (0#4 : RegIdx) ≠ 1#4 ∧
    (withPoints .inf genG).getP 2#4 = .val (.aff gx gy) ∧
    (withPoints .inf genG).getP 1#4 = .val .inf := by decide

theorem test_witness_PointMulCompletes :
    ((withScalars 15 0).getQ 1#4 = .val 15 ∧ ∀ r, (withScalars 15 0).getP r = .bot) ∧
    (withMul 0 (orderQ - 1) .inf genG).getQ 1#4 = .val 0 ∧
    (withMul 0 (orderQ - 1) .inf genG).getQ 2#4 = .val (orderQ - 1) ∧
    (withMul 0 (orderQ - 1) .inf genG).getP 1#4 = .val .inf ∧
    (withMul 0 (orderQ - 1) .inf genG).getP 2#4 = .val genG := by decide

theorem test_witness_PointMulIsScalarMultiplication :
    ((withScalars 15 0).getQ 1#4 = .val 15 ∧ ∀ r, (withScalars 15 0).getP r = .bot) ∧
    (withMul 0 (orderQ - 1) .inf genG).getQ 1#4 = .val 0 ∧
    (withMul 0 (orderQ - 1) .inf genG).getQ 2#4 = .val (orderQ - 1) ∧
    (withMul 0 (orderQ - 1) .inf genG).getP 1#4 = .val .inf ∧
    (withMul 0 (orderQ - 1) .inf genG).getP 2#4 = .val genG ∧ 0 < orderQ ∧ orderQ - 1 < orderQ ∧
    Point.inf.valid = true ∧ genG.valid = true := by decide +kernel

theorem test_witness_MaskedScanIsIndex :
    15 < 16 ∧ ∀ j, (([.inf, genG] : List Point).getD j .inf).InRange := by
  refine ⟨by decide, fun j => ?_⟩
  rcases j with _ | _ | j
  · trivial
  · exact ⟨by decide, by decide⟩
  · trivial

theorem test_witness_TablesHoldMultiples : genG.valid = true ∧ 15 < 16 := by decide +kernel

theorem test_witness_ScalarMultiplicationIsLinear :
    genG.valid = true ∧ 1 + (orderQ - 2) < orderQ ∧ orderQ - 1 < orderQ := by decide +kernel

theorem test_witness_NonceGivesAffinePoint : 0 < orderQ - 1 ∧ orderQ - 1 < orderQ := by decide

/-- Both cases of the second clause occur: V-S1 and V-S6 (`test_sign`, `test_sign_degenerate`). -/
theorem test_witness_SignOutcomes :
    (0xE0#8).toNat + 32 ≤ 256 ∧ (0xC0#8).toNat + 64 ≤ 256 ∧
    readBytes (signBuf digest1 1 orderQ).mem 0 32 = .val (int2be32 digest1) ∧
    readBytes (signBuf digest1 1 orderQ).mem 32 32 = .val (int2be32 1) ∧
    readBytes (signBuf digest1 1 orderQ).mem 64 32 = .val (int2be32 orderQ) ∧
    IsScalar (int2be32 1) ∧ IsScalar (int2be32 (orderQ - 1)) ∧ ¬ IsScalar (int2be32 orderQ) ∧
    ¬ IsScalar (int2be32 0) := by
  unfold IsScalar
  decide +kernel

/-- Both cases of the second clause occur: V-S1 and V-S6 (`test_sign`, `test_sign_degenerate`). -/
theorem test_witness_SignLowSOutcomes :
    (0xE0#8).toNat + 32 ≤ 256 ∧ (0xC0#8).toNat + 64 ≤ 256 ∧
    readBytes (signBuf digest1 0 1).mem 0 32 = .val (int2be32 digest1) ∧
    readBytes (signBuf digest1 0 1).mem 32 32 = .val (int2be32 0) ∧
    readBytes (signBuf digest1 0 1).mem 64 32 = .val (int2be32 1) ∧
    IsScalar (int2be32 1) ∧ ¬ IsScalar (int2be32 0) := by
  unfold IsScalar
  decide +kernel

/-- The last line of clauses: R' = O for the key -G with z = r = v = 1; a match, V-V11; and a mismatch
for the key G with z = 0 and r = v = 1. -/
theorem test_witness_VerifyOutcomes :
    readBytes (verifyBuf digest1 gx gy 1 sig1).mem 0 32 = .val (int2be32 digest1) ∧
    readBytes (verifyBuf digest1 gx gy 1 sig1).mem 32 32 = .val (int2be32 gx) ∧
    readBytes (verifyBuf digest1 gx gy 1 sig1).mem 64 32 = .val (int2be32 gy) ∧
    readBytes (verifyBuf digest1 gx gy 1 sig1).mem 96 32 = .val (int2be32 1) ∧
    readBytes (verifyBuf digest1 gx gy 1 sig1).mem 128 32 = .val (int2be32 sig1) ∧
    IsCurvePoint (be2int (int2be32 gx)) (be2int (int2be32 gy)) ∧
    ¬ IsCurvePoint (be2int (int2be32 gx)) (be2int (int2be32 (gy + 1))) ∧
    IsScalar (int2be32 1) ∧ IsScalar (int2be32 sig1) ∧ ¬ IsScalar (int2be32 orderQ) ∧
    (1 * 1 % orderQ = 1 ∧ pointMulG2 (1 * 1 % orderQ) (1 * 1 % orderQ) minusG = .inf) ∧
    (gx * qinv gx % orderQ = 1 ∧
      pointMulG2 (0 * qinv gx % orderQ) (gx * qinv gx % orderQ) minusG = minusG ∧
      gx % orderQ = gx) ∧
    (pointMulG2 (0 * 1 % orderQ) (1 * 1 % orderQ) genG = genG ∧ gx % orderQ ≠ 1) := by
  unfold IsScalar IsCurvePoint
  decide +kernel

theorem test_witness_VerifyLowSOutcomes :
    readBytes (verifyBuf digest1 gx gy 1 halfQ).mem 0 32 = .val (int2be32 digest1) ∧
    readBytes (verifyBuf digest1 gx gy 1 halfQ).mem 32 64 =
      .val (int2be32 gx ++ int2be32 gy) ∧
    readBytes (verifyBuf digest1 gx gy 1 halfQ).mem 96 32 = .val (int2be32 1) ∧
    readBytes (verifyBuf digest1 gx gy 1 halfQ).mem 128 32 = .val (int2be32 halfQ) ∧
    ¬ IsScalar (int2be32 0) ∧
    (IsScalar (int2be32 halfQ) ∧ be2int (int2be32 halfQ) ≤ (orderQ - 1) / 2) ∧
    (IsScalar (int2be32 (halfQ + 1)) ∧ (orderQ - 1) / 2 < be2int (int2be32 (halfQ + 1))) := by
  unfold IsScalar
  decide +kernel

theorem test_witness_XmatchIsReduction : orderQ + 2 < primeP ∧ 0 < primeP - 1 ∧
    primeP - 1 < primeP ∧ 0 < 2 ∧ 2 < orderQ ∧ (orderQ + 2) % orderQ = 2 := by decide

theorem test_witness_SignatureNormalization :
    (0xC0#8).toNat + 64 ≤ 256 ∧
    readBytes (withBuf (int2be32 r2 ++ int2be32 high2)).mem 0 32 = .val (int2be32 r2) ∧
    readBytes (withBuf (int2be32 r2 ++ int2be32 high2)).mem 32 32 = .val (int2be32 high2) ∧
    IsScalar (int2be32 high2) ∧ ¬ IsScalar (int2be32 orderQ) ∧ ¬ IsScalar (int2be32 0) := by
  unfold IsScalar
  decide +kernel

theorem test_witness_KeyFormats :
    (0xBF#8).toNat + 65 ≤ 256 ∧ (0xC0#8).toNat + 64 ≤ 256 ∧ (0xDF#8).toNat + 33 ≤ 256 ∧
    readBytes (withBuf (4#8 :: (int2be32 gx ++ int2be32 gy))).mem 0 65 =
      .val (4#8 :: (int2be32 gx ++ int2be32 gy)) ∧
    readBytes (withBuf (5#8 :: (int2be32 gx ++ int2be32 gy))).mem 0 65 =
      .val (5#8 :: (int2be32 gx ++ int2be32 gy)) ∧ (5#8 : Byte) ≠ 4#8 ∧
    readBytes (withBuf (int2be32 gx ++ int2be32 gy)).mem 0 64 =
      .val (int2be32 gx ++ int2be32 gy) ∧
    readBytes (withBuf (int2be32 gx ++ int2be32 gy)).mem 0 32 = .val (int2be32 gx) ∧
    readBytes (withBuf (int2be32 gx ++ int2be32 gy)).mem 32 32 = .val (int2be32 gy) := by
  decide +kernel

theorem test_witness_KeyDecompression :
    readBytes (withBuf (2#8 :: int2be32 gx)).mem 0 33 = .val (2#8 :: int2be32 gx) ∧
    (1#8 ≠ 2#8 ∧ 1#8 ≠ 3#8) ∧ (4#8 ≠ 2#8 ∧ 4#8 ≠ 3#8) ∧
    ¬ (∃ y, IsCurvePoint (be2int (int2be32 primeP)) y) ∧
    ¬ (∃ y, IsCurvePoint (be2int (int2be32 0)) y) ∧
    (gy % 2 = 0 ∧ IsCurvePoint (be2int (int2be32 gx)) gy) ∧
    ((primeP - gy) % 2 = 1 ∧ IsCurvePoint (be2int (int2be32 gx)) (primeP - gy)) := by
  refine ⟨by decide +kernel, by decide, by decide, ?_, ?_, ?_, ?_⟩
  · rintro ⟨y, h, -⟩
    exact absurd h (by decide +kernel)
  · rintro ⟨y, -, -, h⟩
    rw [no_point_of_not_root (by decide +kernel)] at h
    cases h
  all_goals
    unfold IsCurvePoint
    decide +kernel

theorem test_witness_CompressionRoundTrip :
    IsCurvePoint gx gy ∧ (0xDF#8).toNat + 33 ≤ 256 ∧ (0xC0#8).toNat + 64 ≤ 256 ∧
    readBytes (withBuf (int2be32 gx ++ int2be32 gy)).mem (0#8).toNat 64 =
      .val (int2be32 gx ++ int2be32 gy) := by
  unfold IsCurvePoint
  decide +kernel

/-- V-S1 with the public key at 0xC0. -/
def signThenVerify : State := (signBuf digest1 1 1).write 0xC0 (int2be32 gx ++ int2be32 gy)

theorem test_witness_SignThenVerify :
    (0xC0#8).toNat + 64 ≤ 256 ∧ (0x20#8).toNat + 64 ≤ 256 ∧
    (0#8).toNat + 32 ≤ (0x60#8).toNat ∧ (0x60#8).toNat + 64 ≤ (0xC0#8).toNat ∧
    readBytes signThenVerify.mem 0x20 32 = .val (int2be32 1) ∧
    pointMulG (be2int (int2be32 1)) = .aff gx gy ∧
    readBytes signThenVerify.mem 0xC0 64 = .val (int2be32 gx ++ int2be32 gy) ∧
    ends (exec (.sign 0#8 0x20#8 0x60#8) signThenVerify) (fun t => t.ok) = true ∧
    ends (exec (.signls 0#8 0x20#8 0x60#8) signThenVerify) (fun t => t.ok) = true := by
  decide +kernel

theorem test_witness_EcdsaUsesBufAlone :
    (Instr.pkr2u 0#8 0x80#8).ofEcdsa = true ∧
    (signBuf 0 1 1).mem = ((signBuf 0 1 1).setQ 3#4 (.val 7)).mem ∧
    ends (exec (.pkr2u 0#8 0x80#8) (signBuf 0 1 1)) (fun t => t.ok) = true ∧
    faults (exec (.pkr2u 0xC0#8 0x80#8) (signBuf 0 1 1)) .readNoValue = true := by
  decide +kernel

theorem test_witness_ReadingNoValueFaults : (Instr.fadd 0#4 1#4 3#4).WellFormed ∧
    ReadsNoValue (.fadd 0#4 1#4 3#4) (withFields (red 1) (red 1)) ∧
    ReadsNoValue (.qinv 0#4 3#4) (withScalars 1 1) ∧ ReadsNoValue (.pisinf 0#4) State.reset ∧
    ReadsNoValue (.floads 0#4 0#8) (withBuf (List.replicate 31 0#8)) :=
  ⟨by decide, .inl ⟨3#4, by decide, by decide⟩, .inr (.inl ⟨3#4, by decide, by decide⟩),
    .inr (.inr (.inl ⟨0#4, by decide, by decide⟩)),
    .inr (.inr (.inr ⟨(0, 32), by decide, 31, by decide, by decide, by decide⟩))⟩

theorem test_witness_FaultsOnlyWhereNamed :
    exec (.qinv 3#4 1#4) (withScalars 0 0) = .fault .invertZero ∧
    exec (.pisinf 0#4) State.reset = .fault .readNoValue := ⟨rfl, rfl⟩

theorem test_witness_FailuresOnlyAsListed :
    ends (exec (.floads 0#4 0#8) (withBuf (int2be32 primeP))) (fun t => !t.ok) = true ∧
    ends (exec (.floads 0#4 0xE1#8) State.reset) (fun t => !t.ok) = true := by decide +kernel

theorem test_witness_FailureLeavesNoValue :
    ends (exec (.signorm 0#8 0x40#8) (withBuf (int2be32 r2 ++ int2be32 0)))
      (fun t => !t.ok && decide (t.err ≠ .illegalCommand)) = true ∧
    ends (exec (.floads 0#4 0xE1#8) State.reset)
      (fun t => !t.ok && decide (t.err = .illegalCommand)) = true := by decide +kernel

theorem test_witness_RegisterFrame :
    ends (exec (.fadd 3#4 1#4 2#4) (withFields (red 1) (red 2))) (fun t => t.ok) = true ∧
    (1#4 : RegIdx) ∉ (Instr.fadd 3#4 1#4 2#4).footprint.dstF ∧
    (Instr.fadd 3#4 1#4 2#4).footprint.writesT = false := by decide

theorem test_witness_MemoryFrame :
    ends (exec (.qstore 1#4 0x20#8) (withScalars 1 0)) (fun t => t.ok) = true ∧
    OutsideAll (Instr.qstore 1#4 0x20#8).footprint.writes 0x1F ∧
    OutsideAll (Instr.qstore 1#4 0x20#8).footprint.writes 0x40 := by
  unfold OutsideAll
  decide +kernel

theorem test_witness_StoreThenLoad : (0xE0#8).toNat + 32 ≤ 256 ∧
    (withFields (red (primeP - 1)) (red 0)).getF 1#4 = .val ⟨primeP - 1, 1, .reduced⟩ ∧
    primeP - 1 < primeP ∧ (withScalars (orderQ - 1) 0).getQ 1#4 = .val (orderQ - 1) ∧
    orderQ - 1 < orderQ := by decide

theorem test_witness_StatusLayout : flying.busy = true ∧ loaded.busy = false := by decide

/-- A core whose BUF holds one byte, with one host transaction pending. -/
def hosted (x : HostTxn) : State := { withBuf [9#8] with host := [x] }

/-- R87, R75: the host is returned the cells it reads. -/
theorem test_host_read :
    ends (step (hosted (.readBuf 0 1))) (fun t => decide (t.replies = [.bytes [9#8]])) = true := by
  decide

/-- U1 of `spec/93_implementation_defined.md`: a host read of a cell without a value. -/
theorem test_host_read_no_value :
    faults (step (hosted (.readBuf 0 2))) .readNoValue = true := by decide

theorem test_witness_HostTransactions :
    (hosted .poll).faultMark = none ∧ (hosted .poll).busy = false ∧ (hosted .poll).inFlight = none ∧
    (hosted (.writeBuf 0xFF [1#8])).host = .writeBuf 0xFF [1#8] :: [] ∧ 0xFF + [1#8].length ≤ 256 ∧
    256 < 0xFF + [1#8, 2#8].length ∧
    (hosted (.readBuf 0 1)).host = .readBuf 0 1 :: [] ∧ 0 + 1 ≤ 256 ∧
    (∀ i b, [9#8][i]? = some b → (hosted (.readBuf 0 1)).cell (0 + i) = .val b) ∧
    (hosted (.readBuf 0xFF 1)).cell 0xFF = .bot ∧ 0xFF + 1 ≤ 256 ∧
    ({ loaded with host := [.issue] } : State).busy = false ∧
    ({ loaded with host := [.issue] } : State).program[({ loaded with host := [.issue] } : State).pc]?
      = some 0x13030102#32 ∧
    flying.busy = true ∧
    ({ flying with host := [.poll] } : State).inFlight = some 0x13030102#32 := by
  refine ⟨by decide, by decide, by decide, by decide, by decide, by decide, by decide, by decide,
    fun i b h => ?_, by decide, by decide, by decide, by decide, by decide, by decide⟩
  cases i with
  | zero => cases h; decide
  | succ i => simp at h

theorem test_witness_ResetState :
    ({ flying with host := [.reset] } : State).host = .reset :: [] ∧
    ({ loaded with faultMark := some .invertZero } : State).host.head? ≠ some .reset := by decide

theorem test_witness_StepKeepsInvariant :
    loaded.Wf ∧ step loaded = .next (after (step loaded)) := by
  refine ⟨⟨by decide, ?_, ?_, ?_, by decide, by decide, by decide⟩, next_after (by decide)⟩
  · intro r a h
    by_cases h1 : r = 1#4
    · subst h1
      obtain rfl : red 5 = a := by simpa using (show Content.val (red 5) = .val a from h)
      exact ⟨by decide, by decide, by decide⟩
    · by_cases h2 : r = 2#4
      · subst h2
        obtain rfl : red 7 = a := by simpa using (show Content.val (red 7) = .val a from h)
        exact ⟨by decide, by decide, by decide⟩
      · have hr : ∀ r, r ≠ 1#4 → r ≠ 2#4 → loaded.getF r = .bot := by decide
        simp [hr r h1 h2] at h
  · intro r k h
    have hr : ∀ r, loaded.getQ r = .bot := by decide
    simp [hr r] at h
  · intro r a h
    have hr : ∀ r, loaded.getP r = .bot := by decide
    simp [hr r] at h

/-- PADD P3, P1, P2 over G and 2G is the next word. -/
def pointsLoaded : State := { withPoints genG twoG with program := [0x31030102#32] }

theorem pointsLoaded_cases (r : RegIdx) (a : Point) (h : pointsLoaded.getP r = .val a) :
    a = genG ∨ a = twoG := by
  by_cases h1 : r = 1#4
  · subst h1
    exact .inl (by simpa using (show Content.val a = .val genG from h.symm))
  · by_cases h2 : r = 2#4
    · subst h2
      exact .inr (by simpa using (show Content.val a = .val twoG from h.symm))
    · have hr : ∀ r, r ≠ 1#4 → r ≠ 2#4 → pointsLoaded.getP r = .bot := by decide
      simp [hr r h1 h2] at h

theorem test_witness_StepKeepsPointsOnCurve :
    pointsLoaded.Wf ∧ pointsLoaded.PointsOnCurve ∧
      step pointsLoaded = .next (after (step pointsLoaded)) := by
  refine ⟨⟨by decide, ?_, ?_, ?_, by decide, by decide, by decide⟩, ?_,
    next_after (by decide +kernel)⟩
  · intro r a h
    have hr : ∀ r, pointsLoaded.getF r = .bot := by decide
    simp [hr r] at h
  · intro r k h
    have hr : ∀ r, pointsLoaded.getQ r = .bot := by decide
    simp [hr r] at h
  · intro r a h
    rcases pointsLoaded_cases r a h with rfl | rfl
    · exact ⟨by decide, by decide⟩
    · exact ⟨by decide, by decide⟩
  · intro r a h
    rcases pointsLoaded_cases r a h with rfl | rfl <;> decide +kernel

theorem test_witness_FaultsAreMarked :
    faults (step (hosted (.readBuf 0 2))) .readNoValue = true ∧
    step loaded = .next (after (step loaded)) := ⟨by decide, next_after (by decide)⟩

end Sys2Proof.Tests
end

section
/-! PROOFS. What a command that completes can do, said once for all 46: it updates its own
destinations, then reports in STATUS and advances pc (R20, R100, R300, R301). -/

namespace Sys2Proof.Machine

/-! ### BUF: what an update leaves outside its region, and what is read back (R75, R76) -/

theorem State.cell_write_outside (s : State) {a x : Nat} {bs : List Byte}
    (h : x < a ∨ a + bs.length ≤ x) : (s.write a bs).cell x = s.cell x := by
  unfold State.cell
  rw [State.write_mem, cellAt_writeBytes, dif_neg (by omega)]

theorem State.cell_poison_outside (s : State) {a n x : Nat} (h : x < a ∨ a + n ≤ x) :
    (s.poison a n).cell x = s.cell x := by
  unfold State.cell
  rw [State.poison_mem, cellAt_poisonBytes, if_neg (by omega)]

theorem readBytes_writeBytes (m : List Host.Cell) (a : Nat) (bs : List Byte) :
    readBytes (writeBytes m a bs) a bs.length = .val bs := by
  refine readBytes_val.2 ⟨rfl, fun i hi => ?_⟩
  rw [cellAt_writeBytes, dif_pos (by omega)]
  simp

/-! ### Updates inside a footprint -/

/-- `u` is reached from `s` by writing destinations of the footprint alone: registers, T if it is
one, and the whole of an output region, with bytes or with ⊥. -/
inductive UpdatesWithin (fp : Footprint) (s : State) : State → Prop where
  | refl : UpdatesWithin fp s s
  | setF {u : State} {r : RegIdx} {v : Content FieldReg} :
      UpdatesWithin fp s u → r ∈ fp.dstF → UpdatesWithin fp s (u.setF r v)
  | setQ {u : State} {r : RegIdx} {v : Content Nat} :
      UpdatesWithin fp s u → r ∈ fp.dstQ → UpdatesWithin fp s (u.setQ r v)
  | setP {u : State} {r : RegIdx} {v : Content Point} :
      UpdatesWithin fp s u → r ∈ fp.dstP → UpdatesWithin fp s (u.setP r v)
  | setT {u : State} {b : Bool} :
      UpdatesWithin fp s u → fp.writesT = true → UpdatesWithin fp s (u.setT b)
  | write {u : State} {a : Nat} {bs : List Byte} :
      UpdatesWithin fp s u → (a, bs.length) ∈ fp.writes → UpdatesWithin fp s (u.write a bs)
  | poison {u : State} {a n : Nat} :
      UpdatesWithin fp s u → (a, n) ∈ fp.writes → UpdatesWithin fp s (u.poison a n)

namespace UpdatesWithin

variable {fp : Footprint} {s u : State}

theorem getF_eq (h : UpdatesWithin fp s u) {r : RegIdx} (hr : r ∉ fp.dstF) :
    u.getF r = s.getF r := by
  induction h with
  | refl => rfl
  | setF _ hd ih => exact (State.getF_setF_other _ _ (ne_of_mem_of_not_mem hd hr).symm).trans ih
  | setQ _ _ ih | setP _ _ ih | setT _ _ ih | write _ _ ih | poison _ _ ih => exact ih

theorem getQ_eq (h : UpdatesWithin fp s u) {r : RegIdx} (hr : r ∉ fp.dstQ) :
    u.getQ r = s.getQ r := by
  induction h with
  | refl => rfl
  | setQ _ hd ih => exact (State.getQ_setQ_other _ _ (ne_of_mem_of_not_mem hd hr).symm).trans ih
  | setF _ _ ih | setP _ _ ih | setT _ _ ih | write _ _ ih | poison _ _ ih => exact ih

theorem getP_eq (h : UpdatesWithin fp s u) {r : RegIdx} (hr : r ∉ fp.dstP) :
    u.getP r = s.getP r := by
  induction h with
  | refl => rfl
  | setP _ hd ih => exact (State.getP_setP_other _ _ (ne_of_mem_of_not_mem hd hr).symm).trans ih
  | setF _ _ ih | setQ _ _ ih | setT _ _ ih | write _ _ ih | poison _ _ ih => exact ih

theorem t_eq (h : UpdatesWithin fp s u) (ht : fp.writesT = false) : u.t = s.t := by
  induction h with
  | refl => rfl
  | setT _ hT _ => exact absurd hT (by simp [ht])
  | setF _ _ ih | setQ _ _ ih | setP _ _ ih | write _ _ ih | poison _ _ ih => exact ih

theorem cell_eq (h : UpdatesWithin fp s u) {x : Nat} (hx : OutsideAll fp.writes x) :
    u.cell x = s.cell x := by
  induction h with
  | refl => rfl
  | write _ hw ih => exact (State.cell_write_outside _ (hx _ hw)).trans ih
  | poison _ hw ih => exact (State.cell_poison_outside _ (hx _ hw)).trans ih
  | setF _ _ ih | setQ _ _ ih | setP _ _ ih | setT _ _ ih => exact ih

/-- No update touches pc, the host's side, the fault mark or the open parameters. -/
theorem model_eq (h : UpdatesWithin fp s u) :
    u.pc = s.pc ∧ u.program = s.program ∧ u.host = s.host ∧ u.replies = s.replies ∧
      u.faultMark = s.faultMark ∧ u.freeCount = s.freeCount ∧
      u.magLimit = s.magLimit ∧ u.magMul = s.magMul := by
  induction h with
  | refl => simp
  | setF _ _ ih | setQ _ _ ih | setP _ _ ih | setT _ _ ih | write _ _ ih | poison _ _ ih =>
    exact ih

end UpdatesWithin

/-! ### Outcomes inside a footprint -/

/-- The outcome is a fault, or a completion after updates inside the footprint whose OK is 1 exactly
with ERR = 0 (R19, R43). It is never a refusal. -/
inductive ReportsWithin (fp : Footprint) (s : State) : Result → Prop where
  | fault (f : Fault) : ReportsWithin fp s (.fault f)
  | complete {u : State} {k : Bool} {e : ErrCode} :
      UpdatesWithin fp s u → (k = true ↔ e = .none) → ReportsWithin fp s (.next (u.complete k e))

section forms

variable {fp : Footprint} {s u : State} {r : RegIdx} {a n : Nat}

theorem ReportsWithin.ok (h : UpdatesWithin fp s u) : ReportsWithin fp s (.next u.finishOk) :=
  .complete h (by decide)

theorem ReportsWithin.fail {e : ErrCode} (h : UpdatesWithin fp s u) (he : e ≠ .none) :
    ReportsWithin fp s (.next (u.failWith e)) :=
  .complete h (by simp [he])

theorem ReportsWithin.answer (b : Bool) (hT : fp.writesT = true) :
    ReportsWithin fp s (.next (s.answer b)) :=
  .ok (.setT .refl hT)

theorem ReportsWithin.stored {bs : List Byte} (hn : bs.length = n) (hw : (a, n) ∈ fp.writes) :
    ReportsWithin fp s (.next (s.write a bs).finishOk) :=
  .ok (.write .refl (hn ▸ hw))

theorem ReportsWithin.failRegion {e : ErrCode} (hw : (a, n) ∈ fp.writes) (he : e ≠ .none) :
    ReportsWithin fp s (.next (s.failRegion a n e)) :=
  .fail (.poison .refl hw) he

theorem ReportsWithin.verdict (e : ErrCode) : ReportsWithin fp s (.next (s.verdict e)) := by
  obtain ⟨_, hv⟩ | ⟨he, hv⟩ := verdict_cases s e
  · exact hv ▸ .ok .refl
  · exact hv ▸ .fail .refl he

theorem withF_reportsWithin {k : FieldReg → Result} (h : ∀ v, ReportsWithin fp s (k v)) :
    ReportsWithin fp s (withF s r k) := by
  unfold withF
  cases s.getF r with
  | bot => exact .fault _
  | val v => exact h v

theorem withQ_reportsWithin {k : Nat → Result} (h : ∀ v, ReportsWithin fp s (k v)) :
    ReportsWithin fp s (withQ s r k) := by
  unfold withQ
  cases s.getQ r with
  | bot => exact .fault _
  | val v => exact h v

theorem withP_reportsWithin {k : Point → Result} (h : ∀ v, ReportsWithin fp s (k v)) :
    ReportsWithin fp s (withP s r k) := by
  unfold withP
  cases s.getP r with
  | bot => exact .fault _
  | val v => exact h v

theorem withBytes_reportsWithin {k : List Byte → Result}
    (h : ∀ bs, bs.length = n → ReportsWithin fp s (k bs)) :
    ReportsWithin fp s (withBytes s a n k) := by
  unfold withBytes
  cases hm : readBytes s.mem a n with
  | bot => exact .fault _
  | val bs => exact h bs (readBytes_val.1 hm).1

theorem require_reportsWithin {c : Prop} [Decidable c] {f : Fault} {k : Result}
    (h : ReportsWithin fp s k) : ReportsWithin fp s (require c f k) := by
  unfold require
  split
  · exact h
  · exact .fault f

theorem legal_reportsWithin {c : Bool} {k : Result} (h : ReportsWithin fp s k) :
    ReportsWithin fp s (legal s c k) := by
  cases c with
  | true => exact h
  | false => exact .fail .refl (by decide)

end forms

/-! ### Lengths of what the Ecdsa family writes (R78) -/

theorem signatureBytes_length (r v : Nat) : (signatureBytes r v).length = 64 := by
  simp [signatureBytes, int2be32_length]

theorem compressBytes_length {w : List Byte} (h : w.length = 64) :
    (compressBytes w).length = 33 := by
  simp [compressBytes, h]

/-- The raw key of a compressed one has 64 bytes, or there is none and a failure code says why
(R282). -/
theorem decompressBytes_cases (cmp : List Byte) :
    (∃ raw, decompressBytes cmp = .ok raw ∧ raw.length = 64) ∨
      ∃ e, decompressBytes cmp = .error e ∧ e ≠ .none := by
  unfold decompressBytes
  dsimp only
  split_ifs
  · exact .inr ⟨_, rfl, by decide⟩
  · exact .inr ⟨_, rfl, by decide⟩
  · split
    · exact .inl ⟨_, rfl, by simp [int2be32_length]⟩
    · exact .inr ⟨_, rfl, by decide⟩

/-! ### Every command stays inside its footprint -/

section commands

variable {fp : Footprint} {s : State} {r : RegIdx}

theorem fieldEqual_reportsWithin (rs1 rs2 : RegIdx) (hT : fp.writesT = true) :
    ReportsWithin fp s (fieldEqual rs1 rs2 s) :=
  withF_reportsWithin fun _ => withF_reportsWithin fun _ =>
    require_reportsWithin (.answer _ hT)

theorem loadChecked_reportsWithin (off : Byte) (hd : r ∈ fp.dstQ) :
    ReportsWithin fp s (loadChecked r off s) :=
  legal_reportsWithin <| withBytes_reportsWithin fun bs _ => by
    cases checked bs with
    | none => exact .fail (.setQ .refl hd) (by decide)
    | some v => exact .ok (.setQ .refl hd)

theorem execPload_reportsWithin (off : Byte) (hd : r ∈ fp.dstP) :
    ReportsWithin fp s (execPload r off s) :=
  legal_reportsWithin <| withBytes_reportsWithin fun bs _ => by
    cases rawPoint bs with
    | none => exact .fail (.setP .refl hd) (by decide)
    | some a => exact .ok (.setP .refl hd)

theorem execPdecomp_reportsWithin (rs : RegIdx) (odd : Bool) (hd : r ∈ fp.dstP) :
    ReportsWithin fp s (execPdecomp r rs odd s) :=
  withF_reportsWithin fun x => require_reportsWithin <| by
    cases decompress x.val odd with
    | none => exact .fail (.setP .refl hd) (by decide)
    | some a => exact .ok (.setP .refl hd)

theorem execFloads_reportsWithin (off : Byte) (hd : r ∈ fp.dstF) :
    ReportsWithin fp s (execFloads r off s) :=
  legal_reportsWithin <| withBytes_reportsWithin fun bs _ => by
    split_ifs
    · exact .fail (.setF .refl hd) (by decide)
    · exact .ok (.setF .refl hd)

theorem execPaff_reportsWithin {rdx rdy : RegIdx} (rs : RegIdx) (hx : rdx ∈ fp.dstF)
    (hy : rdy ∈ fp.dstF) : ReportsWithin fp s (execPaff rdx rdy rs s) :=
  legal_reportsWithin <| withP_reportsWithin fun a => by
    cases a with
    | inf => exact .fail (.setF (.setF .refl hx) hy) (by decide)
    | aff x y => exact .ok (.setF (.setF .refl hx) hy)

theorem signWith_reportsWithin (norm : Nat → Nat) (a b c : Byte)
    (hw : (c.toNat, 64) ∈ fp.writes) : ReportsWithin fp s (signWith norm a b c s) :=
  legal_reportsWithin <| withBytes_reportsWithin fun zb _ => withBytes_reportsWithin fun db _ =>
    withBytes_reportsWithin fun kb _ => by
      split
      · dsimp only
        split_ifs
        · exact .failRegion hw (by decide)
        · exact .stored (signatureBytes_length _ _) hw
      · exact .failRegion hw (by decide)

theorem verifyWith_reportsWithin (check : List Byte → List Byte → List Byte → ErrCode)
    (a b c : Byte) : ReportsWithin fp s (verifyWith check a b c s) :=
  legal_reportsWithin <| withBytes_reportsWithin fun _ _ => withBytes_reportsWithin fun _ _ =>
    withBytes_reportsWithin fun _ _ => .verdict _

theorem execSignorm_reportsWithin (a b : Byte) (hw : (b.toNat, 64) ∈ fp.writes) :
    ReportsWithin fp s (execSignorm a b s) :=
  legal_reportsWithin <| withBytes_reportsWithin fun sig hl => by
    cases checked (sig.drop 32) with
    | none => exact .failRegion hw (by decide)
    | some v => exact .stored (by simp [hl, int2be32_length]) hw

theorem execPku2r_reportsWithin (a b : Byte) (hw : (b.toNat, 64) ∈ fp.writes) :
    ReportsWithin fp s (execPku2r a b s) :=
  legal_reportsWithin <| withBytes_reportsWithin fun u hl => by
    split_ifs
    · exact .failRegion hw (by decide)
    · exact .stored (by simp [hl]) hw

theorem execPkc2r_reportsWithin (a b : Byte) (hw : (b.toNat, 64) ∈ fp.writes) :
    ReportsWithin fp s (execPkc2r a b s) :=
  legal_reportsWithin <| withBytes_reportsWithin fun cmp _ => by
    obtain ⟨raw, hr, hl⟩ | ⟨e, hr, he⟩ := decompressBytes_cases cmp
    · rw [hr]; exact .stored hl hw
    · rw [hr]; exact .failRegion hw he

end commands

/-- Everything a command can do, in every state: fault, or update its own destinations and report.
Both outcomes of R109's checks are among the completions. -/
theorem exec_reportsWithin (i : Instr) (s : State) : ReportsWithin i.footprint s (exec i s) := by
  cases i with
  | floads _ off => exact execFloads_reportsWithin off List.mem_cons_self
  | floadr =>
    exact legal_reportsWithin <| withBytes_reportsWithin fun _ _ =>
      .ok (.setF .refl List.mem_cons_self)
  | fstore =>
    exact legal_reportsWithin <| withF_reportsWithin fun _ => require_reportsWithin <|
      .stored (int2be32_length _) List.mem_cons_self
  | fadd | fsub | fmul =>
    exact withF_reportsWithin fun _ => withF_reportsWithin fun _ => require_reportsWithin <|
      .ok (.setF .refl List.mem_cons_self)
  | fsqr | fnegc | fmuls | fsqrt =>
    exact withF_reportsWithin fun _ => require_reportsWithin <|
      .ok (.setF .refl List.mem_cons_self)
  | fnorm | fnormw =>
    exact withF_reportsWithin fun _ => .ok (.setF .refl List.mem_cons_self)
  | fiszero => exact withF_reportsWithin fun _ => require_reportsWithin (.answer _ rfl)
  | feq rs1 rs2 | feqv rs1 rs2 => exact fieldEqual_reportsWithin rs1 rs2 rfl
  | qloadc _ off | qloadv _ off => exact loadChecked_reportsWithin off List.mem_cons_self
  | qloadr =>
    exact legal_reportsWithin <| withBytes_reportsWithin fun _ _ =>
      .ok (.setQ .refl List.mem_cons_self)
  | qstore =>
    exact legal_reportsWithin <| withQ_reportsWithin fun _ =>
      .stored (int2be32_length _) List.mem_cons_self
  | qadd | qmul =>
    exact withQ_reportsWithin fun _ => withQ_reportsWithin fun _ =>
      .ok (.setQ .refl List.mem_cons_self)
  | qnegc => exact withQ_reportsWithin fun _ => .ok (.setQ .refl List.mem_cons_self)
  | qinv =>
    exact withQ_reportsWithin fun _ => require_reportsWithin <|
      .ok (.setQ .refl List.mem_cons_self)
  | qiszero | qislehalf => exact withQ_reportsWithin fun _ => .answer _ rfl
  | pdbl | pneg => exact withP_reportsWithin fun _ => .ok (.setP .refl List.mem_cons_self)
  | padd =>
    exact withP_reportsWithin fun _ => withP_reportsWithin fun _ =>
      .ok (.setP .refl List.mem_cons_self)
  | peq => exact withP_reportsWithin fun _ => withP_reportsWithin fun _ => .answer _ rfl
  | pisinf => exact withP_reportsWithin fun _ => .answer _ rfl
  | pdecomp rd rs odd => exact execPdecomp_reportsWithin (r := rd) rs odd List.mem_cons_self
  | pload _ off => exact execPload_reportsWithin off List.mem_cons_self
  | paff _ _ rs =>
    exact execPaff_reportsWithin rs List.mem_cons_self (List.mem_cons_of_mem _ List.mem_cons_self)
  | pmul =>
    exact withQ_reportsWithin fun _ => withP_reportsWithin fun _ =>
      .ok (.setP .refl List.mem_cons_self)
  | pmulg => exact withQ_reportsWithin fun _ => .ok (.setP .refl List.mem_cons_self)
  | pmul2v =>
    exact withQ_reportsWithin fun _ => withP_reportsWithin fun _ => withQ_reportsWithin fun _ =>
      withP_reportsWithin fun _ => .ok (.setP .refl List.mem_cons_self)
  | pmulg2v =>
    exact withQ_reportsWithin fun _ => withQ_reportsWithin fun _ => withP_reportsWithin fun _ =>
      .ok (.setP .refl List.mem_cons_self)
  | sign a b c => exact signWith_reportsWithin id a b c List.mem_cons_self
  | signls a b c => exact signWith_reportsWithin lowS a b c List.mem_cons_self
  | verify a b c => exact verifyWith_reportsWithin verifyBytes a b c
  | verifyls a b c => exact verifyWith_reportsWithin verifyLowS a b c
  | signorm a b => exact execSignorm_reportsWithin a b List.mem_cons_self
  | pku2r a b => exact execPku2r_reportsWithin a b List.mem_cons_self
  | pkr2u =>
    exact legal_reportsWithin <| withBytes_reportsWithin fun _ hl =>
      .stored (by simp [hl]) List.mem_cons_self
  | pkc2r a b => exact execPkc2r_reportsWithin a b List.mem_cons_self
  | pkr2c =>
    exact legal_reportsWithin <| withBytes_reportsWithin fun _ hl =>
      .stored (compressBytes_length hl) List.mem_cons_self

/-- A command that completes has updated its own destinations before it reported. -/
theorem exec_next {i : Instr} {s t : State} (h : exec i s = .next t) :
    ∃ u k e, UpdatesWithin i.footprint s u ∧ (k = true ↔ e = .none) ∧ t = u.complete k e := by
  have hr := exec_reportsWithin i s
  rw [h] at hr
  cases hr with
  | complete hu hk => exact ⟨_, _, _, hu, hk, rfl⟩

end Sys2Proof.Machine

open Sys2Proof.Machine

/-- Settles O46: a completion reports, and its updates leave pc for the report to advance. -/
theorem everyCommandReports : Obligations.EveryCommandReports := by
  unfold Obligations.EveryCommandReports
  intro i s
  cases hr : exec i s with
  | next t =>
    obtain ⟨u, k, e, hu, hk, rfl⟩ := exec_next hr
    obtain ⟨hpc, -⟩ := hu.model_eq
    refine .inl ⟨_, rfl, rfl, rfl, by simp [hpc], ?_⟩
    cases k with
    | true => exact .inl ⟨rfl, hk.1 rfl⟩
    | false => exact .inr ⟨rfl, fun he => Bool.false_ne_true (hk.2 he)⟩
  | fault f => exact .inr ⟨f, rfl⟩
  | refused r => exact nomatch hr ▸ exec_reportsWithin i s

/-- Settles O51: the updates of a command stay inside its footprint, and its report touches no
register, not T and nothing of the host. -/
theorem registerFrame : Obligations.RegisterFrame := by
  unfold Obligations.RegisterFrame
  intro i s t h
  obtain ⟨u, k, e, hu, -, rfl⟩ := exec_next h
  obtain ⟨-, hmodel⟩ := hu.model_eq
  exact ⟨fun _ => hu.getF_eq, fun _ => hu.getQ_eq, fun _ => hu.getP_eq, hu.t_eq, hmodel⟩

/-- Settles O52: the updates of a command stay inside its footprint, and its report writes no cell. -/
theorem memoryFrame : Obligations.MemoryFrame := by
  unfold Obligations.MemoryFrame
  intro i s t h x hx
  obtain ⟨u, k, e, hu, -, rfl⟩ := exec_next h
  exact hu.cell_eq hx
end

section
/-! PROOFS. The stores and the loads that undo them, on values in range (R141, R143, R183, R184). -/

namespace Sys2Proof.Machine

theorem fits_eq_true {off : Byte} {n : Nat} (h : off.toNat + n ≤ 256) : fits off n = true :=
  decide_eq_true h

theorem execAll_cons_next {i : Instr} {s u : State} (h : exec i s = .next u) (is : List Instr) :
    execAll (i :: is) s = execAll is u := by
  rw [execAll, h]

section transfers

variable {s : State} {rs rd : RegIdx} {off : Byte} {v m : Nat}

/-- What 32 bytes stored at an offset read as, once the store has reported. -/
theorem readBytes_stored (s : State) (a v : Nat) :
    readBytes ((s.write a (int2be32 v)).finishOk).mem a 32 = .val (int2be32 v) := by
  simpa [int2be32_length] using readBytes_writeBytes s.mem a (int2be32 v)

theorem exec_fstore (hoff : off.toNat + 32 ≤ 256) (hs : s.getF rs = .val ⟨v, m, .reduced⟩) :
    exec (.fstore rs off) s = .next (s.write off.toNat (int2be32 v)).finishOk := by
  simp [exec, execFstore, fits_eq_true hoff, withF_val hs, require]

theorem exec_floads (hoff : off.toNat + 32 ≤ 256) (hv : v < primeP)
    (hm : readBytes s.mem off.toNat 32 = .val (int2be32 v)) :
    exec (.floads rd off) s = .next (s.setF rd (.val ⟨v, 1, .reduced⟩)).finishOk := by
  have hint : be2int (int2be32 v) = v := be2int_int2be32 (hv.trans primeP_lt)
  simp [exec, execFloads, fits_eq_true hoff, withBytes_val hm, hint, hv.not_ge]

theorem exec_qstore (hoff : off.toNat + 32 ≤ 256) (hs : s.getQ rs = .val v) :
    exec (.qstore rs off) s = .next (s.write off.toNat (int2be32 v)).finishOk := by
  simp [exec, execQstore, fits_eq_true hoff, withQ_val hs]

theorem exec_qloadr (hoff : off.toNat + 32 ≤ 256) (hv : v < orderQ)
    (hm : readBytes s.mem off.toNat 32 = .val (int2be32 v)) :
    exec (.qloadr rd off) s = .next (s.setQ rd (.val v)).finishOk := by
  have hint : be2int (int2be32 v) = v :=
    be2int_int2be32 (hv.trans (orderQ_lt.trans primeP_lt))
  simp [exec, execQloadr, fits_eq_true hoff, withBytes_val hm, reduced, hint, Nat.mod_eq_of_lt hv]

end transfers

end Sys2Proof.Machine

open Sys2Proof.Machine

/-- Settles O53: the load reads back the bytes stored, and `be2int` undoes `int2be32` on them. -/
theorem storeThenLoad : Obligations.StoreThenLoad := by
  unfold Obligations.StoreThenLoad
  refine ⟨fun s rs rd off v hoff hs hv => ?_, fun s rs rd off k hoff hs hk => ?_⟩
  · refine ⟨((s.write off.toNat (int2be32 v)).finishOk.setF rd (.val ⟨v, 1, .reduced⟩)).finishOk,
      ?_, rfl, by simp⟩
    rw [execAll_cons_next (exec_fstore hoff hs),
      execAll_cons_next (exec_floads hoff hv (readBytes_stored s _ v)), execAll]
  · refine ⟨((s.write off.toNat (int2be32 k)).finishOk.setQ rd (.val k)).finishOk,
      ?_, rfl, by simp⟩
    rw [execAll_cons_next (exec_qstore hoff hs),
      execAll_cons_next (exec_qloadr hoff hk (readBytes_stored s _ k)), execAll]
end

section
/-! PROOFS. What one step can do, and the fault mark and the reset it respects (R50 to R52). -/

namespace Sys2Proof.Machine

/-! ### Equations of the step -/

section equations

variable {s t : State} {w : Word}

theorem runWord_ok {i : Instr} (h : decode w = .ok i) : runWord w s = exec i s := by
  rw [runWord, h]

theorem runWord_error {e : DecodeError} (h : decode w = .error e) :
    runWord w s = .next s.illegal := by
  rw [runWord, h]

/-- A word that runs to its end leaves what its command leaves, or is illegal (R109). -/
theorem runWord_next (h : runWord w s = .next t) : (∃ i, exec i s = .next t) ∨ t = s.illegal := by
  cases hd : decode w with
  | ok i => exact .inl ⟨i, runWord_ok hd ▸ h⟩
  | error e => exact .inr (by simpa [runWord_error hd, eq_comm] using h)

theorem step_command (hm : s.faultMark = none) (hh : s.host = []) : step s = commandStep s := by
  simp [step, coreStep, hm, hh]

theorem commandStep_word (h : s.inFlight = some w ∨ (s.inFlight = none ∧ s.nextWord = some w)) :
    commandStep s = runWord w s := by
  obtain hw | ⟨hi, hw⟩ := h <;> simp [commandStep, *]

theorem commandStep_idle (hi : s.inFlight = none) (hw : s.nextWord = none) :
    commandStep s = .next s := by
  simp [commandStep, hi, hw]

/-- A reset is obeyed in every state, marked or not (R342). -/
theorem step_reset {rest : List HostTxn} (h : s.host = .reset :: rest) :
    step s = .next ({ s with host := rest }).hardReset := by
  cases hm : s.faultMark <;> simp [step, coreStep, faultedStep, hostStep, hm, h]

/-- A marked state gives its fault again, unless the host resets the core (R51). -/
theorem step_marked {f : Fault} (hm : s.faultMark = some f) (hh : s.host.head? ≠ some .reset) :
    step s = .fault f := by
  simp only [step, coreStep, hm]
  unfold faultedStep
  split
  · rename_i h
    simp [h] at hh
  · rfl

end equations

/-! ### Everything a step can do -/

/-- What a step can make of the state in which the host has taken its transaction: reset it, or, with
no fault marked, run a word, move bytes or a word between host and core, or leave it. -/
inductive Moves (s : State) : State → Prop where
  | reset : Moves s s.hardReset
  | run {w : Word} {t : State} : s.faultMark = none → runWord w s = .next t → Moves s t
  | write {a : Nat} {bs : List Byte} :
      s.faultMark = none → a + bs.length ≤ Config.bufSize → Moves s (s.write a bs)
  | reply {r : HostReply} {n : Nat} : s.faultMark = none → Moves s (s.reply r n)
  | accept {w : Word} : s.faultMark = none → Moves s (s.accept w)
  | idle : s.faultMark = none → Moves s s

theorem hostStep_moves {x : HostTxn} {s t : State} (hm : s.faultMark = none)
    (h : hostStep x s = .next t) : Moves s t := by
  obtain ⟨a, bs, -, -, hfit, rfl⟩ | ⟨_, _, _, -, -, -, -, rfl⟩ |
    ⟨-, -, ⟨-, rfl⟩ | ⟨_, -, rfl⟩⟩ | ⟨-, rfl⟩ | ⟨-, ⟨-, rfl⟩ | ⟨_, -, hrun⟩⟩ | ⟨-, rfl⟩ :=
    hostStep_cases h
  · exact .write hm hfit
  · exact .reply hm
  · exact .idle hm
  · exact .accept hm
  · exact .reply hm
  · exact .idle hm
  · exact .run hm hrun
  · exact .reset

theorem commandStep_moves {s t : State} (hm : s.faultMark = none) (h : commandStep s = .next t) :
    Moves s t := by
  unfold commandStep at h
  split at h
  · exact .run hm h
  · split at h
    · exact .run hm h
    · cases h
      exact .idle hm

theorem step_moves {s t : State} (h : step s = .next t) :
    ∃ rest, Moves { s with host := rest } t := by
  obtain ⟨rest, -, rfl⟩ | ⟨hm, x, rest, -, hx⟩ | ⟨hm, -, hc⟩ := coreStep_cases h
  · exact ⟨rest, .reset⟩
  · exact ⟨rest, hostStep_moves hm hx⟩
  · exact ⟨s.host, commandStep_moves hm hc⟩

theorem exec_faultMark {i : Instr} {s t : State} (h : exec i s = .next t) :
    t.faultMark = s.faultMark := by
  obtain ⟨u, k, e, hu, -, rfl⟩ := exec_next h
  obtain ⟨-, -, -, -, hmark, -⟩ := hu.model_eq
  exact hmark

theorem Moves.faultMark_eq_none {s t : State} (h : Moves s t) : t.faultMark = none := by
  cases h with
  | reset => rfl
  | run hm hrun =>
    obtain ⟨i, hx⟩ | rfl := runWord_next hrun
    · exact (exec_faultMark hx).trans hm
    · exact hm
  | write hm _ | reply hm | accept hm | idle hm => exact hm

/-! ### The reset state (R52) -/

/-- A reset gives the core's reset state, from whatever state (R340, R342). -/
theorem State.hardReset_atReset (s : State) : s.hardReset.AtReset where
  field := State.getF_reset
  scalar := State.getQ_reset
  point := State.getP_reset
  flag := rfl
  status := show packStatus false false false false 0#4 = 0#32 by decide
  buf _ := rfl
  pc := rfl
  mark := rfl

/-! ### The host's load of a word (log entry 8) -/

theorem getElem?_placeWord (program : List Word) (pc : Nat) (w : Word) :
    (placeWord program pc w)[pc]? = some w := by
  have hlen : (program.take pc ++ List.replicate (pc - program.length) 0#32).length = pc := by
    simp only [List.length_append, List.length_take, List.length_replicate]
    omega
  rw [placeWord, List.getElem?_append_right hlen.le, hlen, Nat.sub_self, List.getElem?_cons_zero]

theorem State.nextWord_withFetchWord (s : State) (w : Word) :
    (s.withFetchWord 32 w.toNat).nextWord = some w := by
  have hw : BitVec.ofNat 32 (w.toNat % 2 ^ 32) = w := by
    rw [Nat.mod_eq_of_lt w.isLt, BitVec.ofNat_toNat, BitVec.setWidth_eq]
  exact (getElem?_placeWord _ _ _).trans (congrArg some hw)

end Sys2Proof.Machine

open Sys2Proof Sys2Proof.Machine

/-- Settles O6: without marks and transactions a step is `commandStep`, which runs the word in
flight, else the word at pc, where `withFetchWord` places its word. -/
theorem stepRunsDecodedCommand : Obligations.StepRunsDecodedCommand := by
  unfold Obligations.StepRunsDecodedCommand
  refine ⟨fun s w hm hh hw => ?_, fun s hm hh hi hw => ?_, fun s w i hd => ?_⟩
  · have hstep : step s = runWord w s := (step_command hm hh).trans (commandStep_word hw)
    exact ⟨fun i hd => hstep.trans (runWord_ok hd), fun e hd => hstep.trans (runWord_error hd)⟩
  · exact (step_command hm hh).trans (commandStep_idle hi hw)
  · have hw := s.nextWord_withFetchWord w
    rw [step_command rfl rfl, commandStep_word (.inr ⟨rfl, hw⟩), runWord_ok hd]

/-- Settles O60: a step that faults has no reset before it, so the marked state faults alike; and
every move of a step that completes leaves the mark clear. -/
theorem faultsAreMarked : Obligations.FaultsAreMarked := by
  unfold Obligations.FaultsAreMarked
  refine ⟨fun s f h => ?_, fun s t h => ?_⟩
  · have hreset : s.host.head? ≠ some .reset := by
      intro hh
      obtain ⟨rest, hrest⟩ := List.head?_eq_some_iff.1 hh
      simp [step_reset hrest] at h
    rw [h]
    exact ⟨rfl, rfl, step_marked rfl hreset⟩
  · obtain ⟨rest, hmove⟩ := step_moves h
    exact ⟨by rw [h]; rfl, hmove.faultMark_eq_none⟩

/-- Settles O56: the reset state is the reset of itself, a reset is obeyed in every state, and no
other step of a marked state does anything. -/
theorem resetState : Obligations.ResetState := by
  unfold Obligations.ResetState
  refine ⟨State.reset.hardReset_atReset, fun s rest h => ?_, fun s f => step_marked⟩
  exact ⟨_, step_reset h, State.hardReset_atReset _, rfl, rfl⟩
end

section
/-! PROOFS. Sets of points that every operation of the model stays in, and the tables (R211, R226,
R241, R243). -/

namespace Sys2Proof.Machine

/-! ### The masked scan is a direct index (R241) -/

theorem limbs_lt {a : Point} (h : a.InRange) :
    a.limbs.1 < 2 ^ 256 ∧ a.limbs.2.1 < 2 ^ 256 ∧ a.limbs.2.2 < 2 ^ 256 := by
  cases a with
  | inf => decide
  | aff x y => exact ⟨h.1.trans primeP_lt, h.2.trans primeP_lt, Nat.one_lt_two_pow (by decide)⟩

theorem ofLimbs_limbs (a : Point) : ofLimbs a.limbs = a := by cases a <;> rfl

/-- A turn of the scan at another entry than the one asked for changes nothing. -/
theorem scanStep_other (tab : List Point) {w j : Nat} (r : Nat × Nat × Nat) (h : j ≠ w) :
    scanStep tab w r j = r := by
  simp [scanStep, lookupMask, h]

/-- The turn of the scan at the entry asked for takes its limbs. -/
theorem scanStep_self {tab : List Point} {w : Nat} (h : (tab.getD w .inf).InRange) :
    scanStep tab w (0, 0, 0) w = (tab.getD w .inf).limbs := by
  obtain ⟨hx, hy, hz⟩ := limbs_lt h
  simp only [scanStep, lookupMask, beq_self_eq_true, if_true, Nat.zero_or,
    Nat.and_two_pow_sub_one_eq_mod, Nat.mod_eq_of_lt hx, Nat.mod_eq_of_lt hy, Nat.mod_eq_of_lt hz]

theorem foldl_scanStep_other (tab : List Point) {w : Nat} (js : List Nat) (r : Nat × Nat × Nat)
    (h : w ∉ js) : js.foldl (scanStep tab w) r = r := by
  induction js generalizing r with
  | nil => rfl
  | cons j js ih =>
    obtain ⟨hj, hjs⟩ := List.ne_and_not_mem_of_not_mem_cons h
    rw [List.foldl_cons, scanStep_other tab r (Ne.symm hj), ih r hjs]

theorem selectEntry_eq_indexEntry {tab : List Point} {w : Nat} (hw : w < 16)
    (h : (tab.getD w .inf).InRange) : selectEntry tab w = indexEntry tab w := by
  obtain ⟨before, after, hsplit⟩ := List.append_of_mem (List.mem_range.2 hw)
  have hnodup : (w :: (before ++ after)).Nodup :=
    List.nodup_middle.1 (hsplit ▸ List.nodup_range (n := 16))
  obtain ⟨hnot, -⟩ := List.nodup_cons.1 hnodup
  obtain ⟨hbefore, hafter⟩ := not_or.1 (mt List.mem_append.2 hnot)
  have hscan : (List.range 16).foldl (scanStep tab w) (0, 0, 0) = (tab.getD w .inf).limbs := by
    rw [hsplit, List.foldl_append, foldl_scanStep_other tab before _ hbefore, List.foldl_cons,
      scanStep_self h, foldl_scanStep_other tab after _ hafter]
  rw [selectEntry, hscan, ofLimbs_limbs, indexEntry]

/-! ### Closed sets of points -/

/-- The set of points is closed under the group operations of R211, holds every point of the curve
and holds only coordinates in range. The points in range are one, the points of the curve another. -/
structure ClosedPoints (V : Point → Prop) : Prop where
  inRange {a : Point} : V a → a.InRange
  valid {a : Point} : a.valid = true → V a
  add {a b : Point} : V a → V b → V (a.add b)
  neg {a : Point} : V a → V a.neg

theorem chord_inRange (l x1 y1 x2 : Nat) : (chord l x1 y1 x2).InRange :=
  ⟨subMod_lt _ _ primeP_pos, subMod_lt _ _ primeP_pos⟩

theorem Point.InRange.add {a b : Point} (ha : a.InRange) (hb : b.InRange) :
    (a.add b).InRange := by
  cases a with
  | inf => exact hb
  | aff x1 y1 =>
    cases b with
    | inf => exact ha
    | aff x2 y2 =>
      simp only [Point.add]
      split_ifs
      · trivial
      · exact chord_inRange _ _ _ _
      · exact chord_inRange _ _ _ _

theorem Point.InRange.neg {a : Point} (h : a.InRange) : a.neg.InRange := by
  cases a with
  | inf => trivial
  | aff x y => exact ⟨h.1, negMod_lt _ primeP_pos⟩

theorem Point.inRange_of_valid {a : Point} (h : a.valid = true) : a.InRange := by
  cases a with
  | inf => trivial
  | aff x y =>
    simp only [Point.valid, Bool.and_eq_true, decide_eq_true_eq] at h
    exact h.1

theorem Point.valid_add {a b : Point} (ha : a.valid = true) (hb : b.valid = true) :
    (a.add b).valid = true := by
  have : Fact primeP.Prime := ⟨prime_p⟩
  obtain ⟨P, hP⟩ := a.valid_iff.1 ha
  obtain ⟨Q, hQ⟩ := b.valid_iff.1 hb
  exact (Point.valid_iff _).2 ⟨_, hP.add hQ⟩

theorem Point.valid_neg {a : Point} (h : a.valid = true) : a.neg.valid = true := by
  have : Fact primeP.Prime := ⟨prime_p⟩
  obtain ⟨P, hP⟩ := a.valid_iff.1 h
  exact (Point.valid_iff _).2 ⟨_, hP.neg⟩

theorem closedPoints_inRange : ClosedPoints Point.InRange where
  inRange := id
  valid := Point.inRange_of_valid
  add := Point.InRange.add
  neg := Point.InRange.neg

theorem closedPoints_valid : ClosedPoints (fun a => a.valid = true) where
  inRange := Point.inRange_of_valid
  valid := id
  add := Point.valid_add
  neg := Point.valid_neg

/-! ### Points from bytes and from an abscissa -/

theorem rawPoint_valid {bs : List Byte} {a : Point} (h : rawPoint bs = some a) :
    a.valid = true := by
  simp only [rawPoint, Option.ite_none_right_eq_some, Option.some.injEq] at h
  obtain ⟨hv, rfl⟩ := h
  exact hv

/-- The opposite of a root is a root. -/
theorem negMod_mul_self {c : Nat} (h : c < primeP) :
    negMod primeP c * negMod primeP c % primeP = c * c % primeP := by
  rw [← ZMod.natCast_eq_natCast_iff', Nat.cast_mul, cast_negMod h, neg_mul_neg, Nat.cast_mul]

theorem decompress_valid {x : Nat} {odd : Bool} {a : Point} (hx : x < primeP)
    (h : decompress x odd = some a) : a.valid = true := by
  have hc := principalRoot_lt (curveRhs x)
  simp only [decompress, decompressWith, Option.ite_none_right_eq_some, Option.some.injEq] at h
  obtain ⟨hroot, rfl⟩ := h
  simp only [Point.valid, onCurve, Bool.and_eq_true, decide_eq_true_eq, beq_iff_eq]
  split
  · exact ⟨⟨hx, hc⟩, hroot⟩
  · exact ⟨⟨hx, negMod_lt _ primeP_pos⟩, (negMod_mul_self hc).trans hroot⟩

/-! ### Tables and windows -/

theorem genG_valid : genG.valid = true := by decide +kernel

/-- The printed table of the generator is the one the build gives. -/
theorem gTable_eq_buildTable : gTable = buildTable genG := by decide +kernel

theorem window_lt (k i : Nat) : window k i < 16 := Nat.mod_lt _ (by decide)

namespace ClosedPoints

variable {V : Point → Prop} (hV : ClosedPoints V)
include hV

theorem inf : V .inf := hV.valid rfl

theorem dbl {a : Point} (h : V a) : V a.dbl := hV.add h h

theorem getD {tab : List Point} (h : ∀ a ∈ tab, V a) (i : Nat) : V (tab.getD i .inf) := by
  rw [List.getD_eq_getElem?_getD]
  cases hi : tab[i]? with
  | none => exact hV.inf
  | some a => exact h a (List.mem_of_getElem? hi)

theorem buildTable {a : Point} (h : V a) : ∀ b ∈ buildTable a, V b := by
  refine List.foldlRecOn (motive := fun tab => ∀ b ∈ tab, V b) _ _ ?_ fun tab htab i _ => ?_
  · simpa using ⟨hV.inf, h⟩
  · have hd : V (tab.getD i .inf).dbl := hV.dbl (hV.getD htab i)
    simpa [tableStep, or_imp, forall_and] using ⟨htab, hd, hV.add hd h⟩

theorem gTable : ∀ a ∈ gTable, V a := by
  rw [gTable_eq_buildTable]
  exact hV.buildTable (hV.valid genG_valid)

theorem indexEntry {tab : List Point} (h : ∀ a ∈ tab, V a) (w : Nat) : V (indexEntry tab w) :=
  hV.getD h w

theorem selectEntry {tab : List Point} (h : ∀ a ∈ tab, V a) {w : Nat} (hw : w < 16) :
    V (selectEntry tab w) := by
  rw [selectEntry_eq_indexEntry hw (hV.inRange (hV.getD h w))]
  exact hV.indexEntry h w

theorem dbl4 {a : Point} (h : V a) : V (dbl4 a) := hV.dbl (hV.dbl (hV.dbl (hV.dbl h)))

theorem mulWindows {lookup : List Point → Nat → Point} {tab : List Point}
    (h : ∀ w, w < 16 → V (lookup tab w)) (k : Nat) : V (mulWindows lookup tab k) :=
  List.foldlRecOn _ _ hV.inf fun _ hacc i _ => hV.add (hV.dbl4 hacc) (h _ (window_lt k i))

theorem mulWindows2 {tab1 tab2 : List Point} (h1 : ∀ a ∈ tab1, V a) (h2 : ∀ a ∈ tab2, V a)
    (k1 k2 : Nat) : V (mulWindows2 tab1 tab2 k1 k2) :=
  List.foldlRecOn _ _ hV.inf fun _ hacc _ _ =>
    hV.add (hV.add (hV.dbl4 hacc) (hV.indexEntry h1 _)) (hV.indexEntry h2 _)

theorem pointMul {a : Point} (h : V a) (k : Nat) : V (pointMul k a) :=
  hV.mulWindows (fun _ => hV.selectEntry (hV.buildTable h)) k

theorem pointMulG (k : Nat) : V (pointMulG k) :=
  hV.mulWindows (fun _ => hV.selectEntry hV.gTable) k

theorem pointMul2 {a1 a2 : Point} (h1 : V a1) (h2 : V a2) (k1 k2 : Nat) :
    V (pointMul2 k1 a1 k2 a2) :=
  hV.mulWindows2 (hV.buildTable h1) (hV.buildTable h2) k1 k2

theorem pointMulG2 {a : Point} (h : V a) (k1 k2 : Nat) : V (pointMulG2 k1 k2 a) :=
  hV.mulWindows2 hV.gTable (hV.buildTable h) k1 k2

end ClosedPoints

/-! ### What the tables hold (R47, R243) -/

theorem smul_add {a : Point} (h : a.valid = true) (k l : Nat) :
    (Point.smul k a).add (Point.smul l a) = Point.smul (k + l) a := by
  have : Fact primeP.Prime := ⟨prime_p⟩
  obtain ⟨P, hP⟩ := a.valid_iff.1 h
  refine ((hP.smul k).add (hP.smul l)).inj ?_
  rw [← add_nsmul]
  exact hP.smul (k + l)

/-- The first n multiples of a point, from 0 on. -/
def multiples (a : Point) (n : Nat) : List Point := (List.range n).map fun k => Point.smul k a

theorem multiples_succ (a : Point) (n : Nat) :
    multiples a (n + 1) = multiples a n ++ [Point.smul n a] := by
  simp [multiples, List.range_succ]

theorem getD_multiples (a : Point) {i n : Nat} (hi : i < n) :
    (multiples a n).getD i .inf = Point.smul i a := by
  simp [multiples, List.getD_eq_getElem?_getD, hi]

/-- A turn of the build at entry i of the first 2i multiples appends the next two. -/
theorem tableStep_multiples {a : Point} (h : a.valid = true) {i : Nat} (hi : 0 < i) :
    tableStep a (multiples a (2 * i)) i = multiples a (2 * (i + 1)) := by
  have hdbl : (Point.smul i a).dbl = Point.smul (2 * i) a := by
    rw [Point.dbl, smul_add h, two_mul]
  rw [mul_add_one, multiples_succ, multiples_succ, List.append_assoc]
  simp only [tableStep, getD_multiples a (show i < 2 * i by omega), hdbl]
  rfl

theorem foldl_tableStep {a : Point} (h : a.valid = true) (n : Nat) :
    (List.range' 1 n).foldl (tableStep a) [.inf, a] = multiples a (2 * (n + 1)) := by
  induction n with
  | zero => rfl
  | succ n ih =>
    rw [List.range'_1_concat, List.foldl_append, ih, List.foldl_cons, List.foldl_nil,
      Nat.add_comm 1 n, tableStep_multiples h n.succ_pos]

/-- The table of a curve point holds its multiples in order (R243). -/
theorem buildTable_eq {a : Point} (h : a.valid = true) : buildTable a = multiples a 16 :=
  foldl_tableStep h 7

end Sys2Proof.Machine

open Sys2Proof.Machine

/-- Settles O32: both tables are built by `tableStep`, which appends the next two multiples. -/
theorem tablesHoldMultiples : Obligations.TablesHoldMultiples := by
  have hbuild : ∀ a : Point, a.valid = true →
      (buildTable a).length = 16 ∧ ∀ i, i < 16 → (buildTable a).getD i .inf = a.smul i := by
    intro a ha
    rw [buildTable_eq ha]
    exact ⟨by simp [multiples], fun i => getD_multiples a⟩
  unfold Obligations.TablesHoldMultiples
  refine ⟨rfl, fun i hi => ?_, hbuild⟩
  obtain ⟨-, hG⟩ := hbuild genG genG_valid
  rw [gTable_eq_buildTable]
  exact hG i hi
end

section
/-! PROOFS. The invariants of the state (R31, R37, R39, R40, R43, R46), said once over any closed set
of points, and kept by every command and every step. -/

namespace Sys2Proof.Machine

/-! ### What registers and BUF hold -/

/-- The content is ⊥ or a value with the property. -/
def Content.Holds {α : Type} (p : α → Prop) : Content α → Prop
  | .bot => True
  | .val a => p a

theorem Content.holds_bot {α : Type} {p : α → Prop} : Content.Holds p .bot := trivial

theorem Content.holds_iff {α : Type} {p : α → Prop} {c : Content α} :
    c.Holds p ↔ ∀ a, c = .val a → p a := by
  cases c <;> simp [Content.Holds]

/-- Registers and BUF hold what `State.Wf` asks of them, and point registers hold points of `V`. -/
structure State.ContentsOk (V : Point → Prop) (s : State) : Prop where
  mem : Memory.wf s.mem
  field : ∀ r, (s.getF r).Holds (FieldReg.Wf s.magLimit)
  scalar : ∀ r, (s.getQ r).Holds (· < orderQ)
  point : ∀ r, (s.getP r).Holds V
  budget : 1 ≤ s.magMul ∧ s.magMul ≤ s.magLimit

namespace State.ContentsOk

variable {V : Point → Prop} {s : State} {r : RegIdx}

theorem setF {v : Content FieldReg} (h : s.ContentsOk V) (hv : v.Holds (FieldReg.Wf s.magLimit)) :
    (s.setF r v).ContentsOk V where
  mem := h.mem
  field x := by
    rw [getF_setF]
    split
    · exact hv
    · exact h.field x
  scalar := h.scalar
  point := h.point
  budget := h.budget

theorem setQ {v : Content Nat} (h : s.ContentsOk V) (hv : v.Holds (· < orderQ)) :
    (s.setQ r v).ContentsOk V where
  mem := h.mem
  field := h.field
  scalar x := by
    rw [getQ_setQ]
    split
    · exact hv
    · exact h.scalar x
  point := h.point
  budget := h.budget

theorem setP {v : Content Point} (h : s.ContentsOk V) (hv : v.Holds V) :
    (s.setP r v).ContentsOk V where
  mem := h.mem
  field := h.field
  scalar := h.scalar
  point x := by
    rw [getP_setP]
    split
    · exact hv
    · exact h.point x
  budget := h.budget

theorem write {a : Nat} {bs : List Byte} (h : s.ContentsOk V)
    (hfit : a + bs.length ≤ Config.bufSize) : (s.write a bs).ContentsOk V :=
  { h with mem := writeBytes_wf h.mem hfit }

theorem poison {a n : Nat} (h : s.ContentsOk V) : (s.poison a n).ContentsOk V :=
  { h with mem := poisonBytes_wf a n h.mem }

theorem complete {k : Bool} {e : ErrCode} (h : s.ContentsOk V) :
    (s.complete k e).ContentsOk V :=
  { h with }

theorem answer {b : Bool} (h : s.ContentsOk V) : (s.answer b).ContentsOk V :=
  { h with }

theorem verdict {e : ErrCode} (h : s.ContentsOk V) : (s.verdict e).ContentsOk V := by
  obtain ⟨-, hv⟩ | ⟨-, hv⟩ := verdict_cases s e <;> exact hv ▸ h.complete

/-- A budget always leaves room for magnitude 1 (R36). -/
theorem one_le_magLimit (h : s.ContentsOk V) : 1 ≤ s.magLimit := h.budget.1.trans h.budget.2

theorem setReduced {v : Nat} (h : s.ContentsOk V) (hv : v < primeP) :
    (s.setF r (.val ⟨v, 1, .reduced⟩)).ContentsOk V :=
  h.setF ⟨hv, ⟨le_rfl, h.one_le_magLimit⟩, fun _ => rfl⟩

theorem setLoose {v m : Nat} (h : s.ContentsOk V) (hv : v < primeP) (h1 : 1 ≤ m)
    (hm : m ≤ s.magLimit) : (s.setLoose r v m).ContentsOk V :=
  h.setF ⟨hv, ⟨h1, hm⟩, nofun⟩

theorem setLoose_one {v : Nat} (h : s.ContentsOk V) (hv : v < primeP) :
    (s.setLoose r v 1).ContentsOk V :=
  h.setLoose hv le_rfl h.one_le_magLimit

end State.ContentsOk

/-! ### Outcomes that keep them -/

/-- If the outcome is a next state, its registers and BUF hold what they must. -/
def Keeps (V : Point → Prop) (x : Result) : Prop := ∀ t, x = .next t → t.ContentsOk V

section forms

variable {V : Point → Prop} {s : State} {r : RegIdx}

theorem Keeps.next (h : s.ContentsOk V) : Keeps V (.next s) := by
  rintro t ⟨⟩
  exact h

theorem Keeps.ok (h : s.ContentsOk V) : Keeps V (.next s.finishOk) := .next h.complete

theorem Keeps.fail {e : ErrCode} (h : s.ContentsOk V) : Keeps V (.next (s.failWith e)) :=
  .next h.complete

theorem Keeps.failRegion {a n : Nat} {e : ErrCode} (h : s.ContentsOk V) :
    Keeps V (.next (s.failRegion a n e)) :=
  .fail h.poison

theorem Keeps.stored {off : Byte} {n : Nat} {bs : List Byte} (h : s.ContentsOk V)
    (hfit : fits off n = true) (hn : bs.length = n) :
    Keeps V (.next (s.write off.toNat bs).finishOk) :=
  .ok (h.write (hn ▸ of_decide_eq_true hfit))

theorem withF_keeps {k : FieldReg → Result} (h : s.ContentsOk V)
    (hk : ∀ a, a.Wf s.magLimit → Keeps V (k a)) : Keeps V (withF s r k) := by
  intro t ht
  obtain ⟨a, ha, ht⟩ := withF_next.1 ht
  have hr := h.field r
  rw [ha] at hr
  exact hk a hr t ht

theorem withQ_keeps {k : Nat → Result} (h : s.ContentsOk V)
    (hk : ∀ a, a < orderQ → Keeps V (k a)) : Keeps V (withQ s r k) := by
  intro t ht
  obtain ⟨a, ha, ht⟩ := withQ_next.1 ht
  have hr := h.scalar r
  rw [ha] at hr
  exact hk a hr t ht

theorem withP_keeps {k : Point → Result} (h : s.ContentsOk V) (hk : ∀ a, V a → Keeps V (k a)) :
    Keeps V (withP s r k) := by
  intro t ht
  obtain ⟨a, ha, ht⟩ := withP_next.1 ht
  have hr := h.point r
  rw [ha] at hr
  exact hk a hr t ht

theorem withBytes_keeps {a n : Nat} {k : List Byte → Result}
    (hk : ∀ bs, bs.length = n → Keeps V (k bs)) : Keeps V (withBytes s a n k) := by
  intro t ht
  obtain ⟨bs, hbs, ht⟩ := withBytes_next.1 ht
  exact hk bs (readBytes_val.1 hbs).1 t ht

theorem require_keeps {c : Prop} [Decidable c] {f : Fault} {k : Result} (hk : c → Keeps V k) :
    Keeps V (require c f k) := by
  intro t ht
  obtain ⟨hc, ht⟩ := require_next.1 ht
  exact hk hc t ht

theorem legal_keeps {c : Bool} {k : Result} (h : s.ContentsOk V) (hk : c = true → Keeps V k) :
    Keeps V (legal s c k) := by
  cases c with
  | true => exact hk rfl
  | false => exact .fail h

end forms

/-! ### Every command keeps them -/

theorem checked_lt {bs : List Byte} {v : Nat} (h : checked bs = some v) : v < orderQ := by
  simp only [checked, Option.ite_none_right_eq_some, Option.some.injEq] at h
  obtain ⟨⟨-, hlt⟩, rfl⟩ := h
  exact hlt

theorem qinv_lt (v : Nat) : qinv v < orderQ := powMod_lt (by decide) (by decide)

section commands

variable {V : Point → Prop} {s : State}

theorem execFloads_keeps (h : s.ContentsOk V) (rd : RegIdx) (off : Byte) :
    Keeps V (execFloads rd off s) :=
  legal_keeps h fun _ => withBytes_keeps fun bs _ => by
    split_ifs with hp
    · exact .fail (h.setF Content.holds_bot)
    · exact .ok (h.setReduced (not_le.1 hp))

theorem execFnegc_keeps (h : s.ContentsOk V) (rd rs : RegIdx) (cm : CondMode) :
    Keeps V (execFnegc rd rs cm s) :=
  withF_keeps h fun a ha => require_keeps fun hm => .ok <| by
    refine h.setLoose ?_ (Nat.le_add_left 1 a.mag) hm
    split_ifs
    · exact negMod_lt _ primeP_pos
    · exact ha.val

theorem fieldEqual_keeps (h : s.ContentsOk V) (rs1 rs2 : RegIdx) :
    Keeps V (fieldEqual rs1 rs2 s) :=
  withF_keeps h fun _ _ => withF_keeps h fun _ _ => require_keeps fun _ => .next h.answer

theorem loadChecked_keeps (h : s.ContentsOk V) (rd : RegIdx) (off : Byte) :
    Keeps V (loadChecked rd off s) :=
  legal_keeps h fun _ => withBytes_keeps fun bs _ => by
    cases hc : checked bs with
    | none => exact .fail (h.setQ Content.holds_bot)
    | some v => exact .ok (h.setQ (checked_lt hc))

theorem execQnegc_keeps (h : s.ContentsOk V) (rd rs : RegIdx) (cm : CondMode) :
    Keeps V (execQnegc rd rs cm s) :=
  withQ_keeps h fun a ha => .ok <| h.setQ <| by
    show (if s.cond cm then negMod orderQ a else a) < orderQ
    split_ifs
    · exact negMod_lt _ orderQ_pos
    · exact ha

theorem execPdecomp_keeps (hV : ClosedPoints V) (h : s.ContentsOk V) (rd rs : RegIdx)
    (odd : Bool) : Keeps V (execPdecomp rd rs odd s) :=
  withF_keeps h fun x hx => require_keeps fun _ => by
    cases hd : decompress x.val odd with
    | none => exact .fail (h.setP Content.holds_bot)
    | some a => exact .ok (h.setP (hV.valid (decompress_valid hx.val hd)))

theorem execPload_keeps (hV : ClosedPoints V) (h : s.ContentsOk V) (rd : RegIdx) (off : Byte) :
    Keeps V (execPload rd off s) :=
  legal_keeps h fun _ => withBytes_keeps fun bs _ => by
    cases hp : rawPoint bs with
    | none => exact .fail (h.setP Content.holds_bot)
    | some a => exact .ok (h.setP (hV.valid (rawPoint_valid hp)))

theorem execPaff_keeps (hV : ClosedPoints V) (h : s.ContentsOk V) (rdx rdy rs : RegIdx) :
    Keeps V (execPaff rdx rdy rs s) :=
  legal_keeps h fun _ => withP_keeps h fun a ha => by
    cases a with
    | inf => exact .fail ((h.setF Content.holds_bot).setF Content.holds_bot)
    | aff x y =>
      obtain ⟨hx, hy⟩ := hV.inRange ha
      exact .ok ((h.setReduced hx).setReduced hy)

theorem signWith_keeps (h : s.ContentsOk V) (norm : Nat → Nat) (a b c : Byte) :
    Keeps V (signWith norm a b c s) :=
  legal_keeps h fun hfit => withBytes_keeps fun zb _ => withBytes_keeps fun db _ =>
    withBytes_keeps fun kb _ => by
      obtain ⟨-, hc⟩ := Bool.and_eq_true_iff.1 hfit
      split
      · dsimp only
        split_ifs
        · exact .failRegion h
        · exact .stored h hc (signatureBytes_length _ _)
      · exact .failRegion h

theorem verifyWith_keeps (h : s.ContentsOk V)
    (check : List Byte → List Byte → List Byte → ErrCode) (a b c : Byte) :
    Keeps V (verifyWith check a b c s) :=
  legal_keeps h fun _ => withBytes_keeps fun _ _ => withBytes_keeps fun _ _ =>
    withBytes_keeps fun _ _ => .next h.verdict

theorem execSignorm_keeps (h : s.ContentsOk V) (a b : Byte) : Keeps V (execSignorm a b s) :=
  legal_keeps h fun hfit => withBytes_keeps fun sig hl => by
    obtain ⟨-, hb⟩ := Bool.and_eq_true_iff.1 hfit
    cases checked (sig.drop 32) with
    | none => exact .failRegion h
    | some v => exact .stored h hb (by simp [hl, int2be32_length])

theorem execPku2r_keeps (h : s.ContentsOk V) (a b : Byte) : Keeps V (execPku2r a b s) :=
  legal_keeps h fun hfit => withBytes_keeps fun u hl => by
    obtain ⟨-, hb⟩ := Bool.and_eq_true_iff.1 hfit
    split_ifs
    · exact .failRegion h
    · exact .stored h hb (by simp [hl])

theorem execPkr2u_keeps (h : s.ContentsOk V) (a b : Byte) : Keeps V (execPkr2u a b s) :=
  legal_keeps h fun hfit => withBytes_keeps fun u hl => by
    obtain ⟨-, hb⟩ := Bool.and_eq_true_iff.1 hfit
    exact .stored h hb (by simp [hl])

theorem execPkc2r_keeps (h : s.ContentsOk V) (a b : Byte) : Keeps V (execPkc2r a b s) :=
  legal_keeps h fun hfit => withBytes_keeps fun cmp _ => by
    obtain ⟨-, hb⟩ := Bool.and_eq_true_iff.1 hfit
    obtain ⟨raw, hr, hl⟩ | ⟨e, hr, -⟩ := decompressBytes_cases cmp
    · rw [hr]; exact .stored h hb hl
    · rw [hr]; exact .failRegion h

theorem execPkr2c_keeps (h : s.ContentsOk V) (a b : Byte) : Keeps V (execPkr2c a b s) :=
  legal_keeps h fun hfit => withBytes_keeps fun w hl => by
    obtain ⟨-, hb⟩ := Bool.and_eq_true_iff.1 hfit
    exact .stored h hb (compressBytes_length hl)

end commands

/-- Every command keeps what registers and BUF hold. -/
theorem exec_keeps {V : Point → Prop} (hV : ClosedPoints V) {s : State} (h : s.ContentsOk V)
    (i : Instr) : Keeps V (exec i s) := by
  have hmod (n : Nat) : n % primeP < primeP := Nat.mod_lt n primeP_pos
  have hmodQ (n : Nat) : n % orderQ < orderQ := Nat.mod_lt n orderQ_pos
  cases i with
  | floads rd off => exact execFloads_keeps h rd off
  | floadr =>
    exact legal_keeps h fun _ => withBytes_keeps fun _ _ => .ok (h.setLoose_one (hmod _))
  | fstore =>
    exact legal_keeps h fun hfit => withF_keeps h fun _ _ => require_keeps fun _ =>
      .stored h hfit (int2be32_length _)
  | fadd =>
    exact withF_keeps h fun _ ha => withF_keeps h fun _ _ => require_keeps fun hm =>
      .ok (h.setLoose (hmod _) (ha.mag.1.trans (Nat.le_add_right _ _)) hm)
  | fsub =>
    exact withF_keeps h fun _ _ => withF_keeps h fun _ _ => require_keeps fun hm =>
      .ok (h.setLoose (hmod _) (Nat.le_add_left _ _) hm)
  | fmul =>
    exact withF_keeps h fun _ _ => withF_keeps h fun _ _ => require_keeps fun _ =>
      .ok (h.setLoose_one (hmod _))
  | fsqr =>
    exact withF_keeps h fun _ _ => require_keeps fun _ => .ok (h.setLoose_one (hmod _))
  | fnegc rd rs cm => exact execFnegc_keeps h rd rs cm
  | fmuls =>
    exact withF_keeps h fun _ _ => require_keeps fun hm =>
      .ok (h.setLoose (hmod _) (le_max_left _ _) hm)
  | fnorm => exact withF_keeps h fun _ ha => .ok (h.setReduced ha.val)
  | fnormw => exact withF_keeps h fun _ ha => .ok (h.setLoose_one ha.val)
  | fiszero => exact withF_keeps h fun _ _ => require_keeps fun _ => .next h.answer
  | feq rs1 rs2 | feqv rs1 rs2 => exact fieldEqual_keeps h rs1 rs2
  | fsqrt =>
    exact withF_keeps h fun _ _ => require_keeps fun _ =>
      .ok (h.setLoose_one (sqrtCandidate_lt _))
  | qloadc rd off | qloadv rd off => exact loadChecked_keeps h rd off
  | qloadr =>
    exact legal_keeps h fun _ => withBytes_keeps fun _ _ => .ok (h.setQ (hmodQ _))
  | qstore =>
    exact legal_keeps h fun hfit => withQ_keeps h fun _ _ =>
      .stored h hfit (int2be32_length _)
  | qadd | qmul =>
    exact withQ_keeps h fun _ _ => withQ_keeps h fun _ _ => .ok (h.setQ (hmodQ _))
  | qnegc rd rs cm => exact execQnegc_keeps h rd rs cm
  | qinv => exact withQ_keeps h fun _ _ => require_keeps fun _ => .ok (h.setQ (qinv_lt _))
  | qiszero | qislehalf => exact withQ_keeps h fun _ _ => .next h.answer
  | pdbl => exact withP_keeps h fun _ ha => .ok (h.setP (hV.dbl ha))
  | padd =>
    exact withP_keeps h fun _ ha => withP_keeps h fun _ hb => .ok (h.setP (hV.add ha hb))
  | pneg => exact withP_keeps h fun _ ha => .ok (h.setP (hV.neg ha))
  | peq => exact withP_keeps h fun _ _ => withP_keeps h fun _ _ => .next h.answer
  | pisinf => exact withP_keeps h fun _ _ => .next h.answer
  | pdecomp rd rs odd => exact execPdecomp_keeps hV h rd rs odd
  | pload rd off => exact execPload_keeps hV h rd off
  | paff rdx rdy rs => exact execPaff_keeps hV h rdx rdy rs
  | pmul =>
    exact withQ_keeps h fun k _ => withP_keeps h fun _ ha => .ok (h.setP (hV.pointMul ha k))
  | pmulg => exact withQ_keeps h fun k _ => .ok (h.setP (hV.pointMulG k))
  | pmul2v =>
    exact withQ_keeps h fun k1 _ => withP_keeps h fun _ h1 => withQ_keeps h fun k2 _ =>
      withP_keeps h fun _ h2 => .ok (h.setP (hV.pointMul2 h1 h2 k1 k2))
  | pmulg2v =>
    exact withQ_keeps h fun k1 _ => withQ_keeps h fun k2 _ => withP_keeps h fun _ h2 =>
      .ok (h.setP (hV.pointMulG2 h2 k1 k2))
  | sign a b c => exact signWith_keeps h id a b c
  | signls a b c => exact signWith_keeps h lowS a b c
  | verify a b c => exact verifyWith_keeps h verifyBytes a b c
  | verifyls a b c => exact verifyWith_keeps h verifyLowS a b c
  | signorm a b => exact execSignorm_keeps h a b
  | pku2r a b => exact execPku2r_keeps h a b
  | pkr2u a b => exact execPkr2u_keeps h a b
  | pkc2r a b => exact execPkc2r_keeps h a b
  | pkr2c a b => exact execPkr2c_keeps h a b

/-! ### Every step keeps the invariant -/

/-- The invariant over a set of points: `State.Wf`, with points of `V` in the point registers. -/
structure State.Invariant (V : Point → Prop) (s : State) : Prop extends s.ContentsOk V where
  busy : s.busy = true → s.done = false
  report : s.done = true → (s.ok = true ↔ s.err = .none)

section invariant

variable {V : Point → Prop} {s t : State}

theorem State.Wf.invariant (h : s.Wf) (hpoint : ∀ r a, s.getP r = .val a → V a) :
    s.Invariant V where
  mem := h.mem
  field r := Content.holds_iff.2 (h.field r)
  scalar r := Content.holds_iff.2 (h.scalar r)
  point r := Content.holds_iff.2 (hpoint r)
  budget := h.budget
  busy := h.busy
  report := h.report

theorem State.Invariant.getP_holds (h : s.Invariant V) (r : RegIdx) (a : Point)
    (ha : s.getP r = .val a) : V a :=
  Content.holds_iff.1 (h.point r) a ha

theorem State.Invariant.wf (hV : ClosedPoints V) (h : s.Invariant V) : s.Wf where
  mem := h.mem
  field r := Content.holds_iff.1 (h.field r)
  scalar r := Content.holds_iff.1 (h.scalar r)
  point r a ha := hV.inRange (h.getP_holds r a ha)
  budget := h.budget
  busy := h.busy
  report := h.report

theorem State.ContentsOk.invariant_complete {k : Bool} {e : ErrCode}
    (h : (s.complete k e).ContentsOk V) (hk : k = true ↔ e = .none) :
    (s.complete k e).Invariant V :=
  { h with busy := nofun, report := fun _ => hk }

/-- A reset state has no contents to bound, and keeps the budget it had (R52). -/
theorem State.hardReset_invariant (hbudget : 1 ≤ s.magMul ∧ s.magMul ≤ s.magLimit) :
    s.hardReset.Invariant V where
  mem := reset_mem_wf
  field r := by rw [s.hardReset_atReset.field r]; exact Content.holds_bot
  scalar r := by rw [s.hardReset_atReset.scalar r]; exact Content.holds_bot
  point r := by rw [s.hardReset_atReset.point r]; exact Content.holds_bot
  budget := hbudget
  busy := nofun
  report := nofun

theorem State.Invariant.runWord {w : Word} (hV : ClosedPoints V) (h : s.Invariant V)
    (hrun : runWord w s = .next t) : t.Invariant V := by
  obtain ⟨i, hx⟩ | rfl := runWord_next hrun
  · have ht := exec_keeps hV h.toContentsOk i t hx
    obtain ⟨u, k, e, -, hk, rfl⟩ := exec_next hx
    exact ht.invariant_complete hk
  · exact h.complete.invariant_complete (by decide)

theorem Moves.invariant (hV : ClosedPoints V) (hmove : Moves s t) (h : s.Invariant V) :
    t.Invariant V := by
  cases hmove with
  | reset => exact s.hardReset_invariant h.budget
  | run _ hrun => exact h.runWord hV hrun
  | write _ hfit => exact { h.write hfit with busy := h.busy, report := h.report }
  | reply _ | idle _ => exact { h with }
  | accept _ => exact { h with busy := fun _ => rfl, report := nofun }

theorem step_invariant (hV : ClosedPoints V) (h : s.Invariant V) (hstep : step s = .next t) :
    t.Invariant V := by
  obtain ⟨rest, hmove⟩ := step_moves hstep
  exact hmove.invariant hV { h with }

end invariant

end Sys2Proof.Machine

open Sys2Proof.Machine

/-- Settles O58: the invariant over the points with coordinates in range is `State.Wf`, and every
move of a step keeps it. -/
theorem stepKeepsInvariant : Obligations.StepKeepsInvariant := by
  unfold Obligations.StepKeepsInvariant
  intro s t hwf hstep
  exact (step_invariant closedPoints_inRange (hwf.invariant hwf.point) hstep).wf
    closedPoints_inRange

/-- Settles O59: the same invariant over the points of the curve, a closed set by the group law. -/
theorem stepKeepsPointsOnCurve : Obligations.StepKeepsPointsOnCurve := by
  unfold Obligations.StepKeepsPointsOnCurve
  intro s t hwf hpoints hstep
  exact (step_invariant closedPoints_valid (hwf.invariant hpoints) hstep).getP_holds

/-- Settles O57: the reset state is the reset of itself, with an admissible budget. -/
theorem resetMeetsInvariants : Obligations.ResetMeetsInvariants := by
  unfold Obligations.ResetMeetsInvariants
  have h : State.reset.Invariant (fun a => a.valid = true) :=
    State.reset.hardReset_invariant (by decide)
  exact ⟨h.wf closedPoints_valid, h.getP_holds⟩
end

section
/-! PROOFS. The Ecdsa commands work on BUF alone (R49, R260, R286). -/

namespace Sys2Proof.Machine

/-- Two outcomes, the first of a command from `s`: the same fault, or completions that report alike
and leave the same BUF, the first with the registers and T of `s`. -/
inductive EndsAlike (s : State) : Result → Result → Prop where
  | fault (f : Fault) : EndsAlike s (.fault f) (.fault f)
  | complete {u u' : State} (k : Bool) (e : ErrCode) :
      u.fReg = s.fReg → u.qReg = s.qReg → u.pReg = s.pReg → u.t = s.t → u'.mem = u.mem →
      EndsAlike s (.next (u.complete k e)) (.next (u'.complete k e))

section forms

variable {s s' : State} (hm : s.mem = s'.mem)
include hm

theorem EndsAlike.report (k : Bool) (e : ErrCode) :
    EndsAlike s (.next (s.complete k e)) (.next (s'.complete k e)) :=
  .complete k e rfl rfl rfl rfl hm.symm

theorem EndsAlike.stored (a : Nat) (bs : List Byte) :
    EndsAlike s (.next (s.write a bs).finishOk) (.next (s'.write a bs).finishOk) :=
  .complete true .none rfl rfl rfl rfl (by simp [hm])

theorem EndsAlike.failRegion (a n : Nat) (e : ErrCode) :
    EndsAlike s (.next (s.failRegion a n e)) (.next (s'.failRegion a n e)) :=
  .complete (u := s.poison a n) (u' := s'.poison a n) false e rfl rfl rfl rfl (by simp [hm])

theorem EndsAlike.verdict (e : ErrCode) :
    EndsAlike s (.next (s.verdict e)) (.next (s'.verdict e)) := by
  unfold State.verdict
  split
  · exact .report hm true .none
  · exact .report hm false e

theorem withBytes_alike {a n : Nat} {k k' : List Byte → Result}
    (h : ∀ bs, EndsAlike s (k bs) (k' bs)) :
    EndsAlike s (withBytes s a n k) (withBytes s' a n k') := by
  unfold withBytes
  rw [← hm]
  cases readBytes s.mem a n with
  | bot => exact .fault _
  | val bs => exact h bs

theorem legal_alike {c : Bool} {k k' : Result} (h : EndsAlike s k k') :
    EndsAlike s (legal s c k) (legal s' c k') := by
  cases c with
  | true => exact h
  | false => exact .report hm false .illegalCommand

/-! ### The meanings -/

theorem signWith_alike (norm : Nat → Nat) (a b c : Byte) :
    EndsAlike s (signWith norm a b c s) (signWith norm a b c s') :=
  legal_alike hm <| withBytes_alike hm fun zb => withBytes_alike hm fun db =>
    withBytes_alike hm fun kb => by
      cases checked db with
      | none => exact .failRegion hm _ _ _
      | some d =>
        cases checked kb with
        | none => exact .failRegion hm _ _ _
        | some k =>
          dsimp only
          split_ifs
          · exact .failRegion hm _ _ _
          · exact .stored hm _ _

theorem verifyWith_alike (check : List Byte → List Byte → List Byte → ErrCode) (a b c : Byte) :
    EndsAlike s (verifyWith check a b c s) (verifyWith check a b c s') :=
  legal_alike hm <| withBytes_alike hm fun _ => withBytes_alike hm fun _ =>
    withBytes_alike hm fun _ => .verdict hm _

theorem execSignorm_alike (a b : Byte) : EndsAlike s (execSignorm a b s) (execSignorm a b s') :=
  legal_alike hm <| withBytes_alike hm fun sig => by
    cases checked (sig.drop 32) with
    | none => exact .failRegion hm _ _ _
    | some v => exact .stored hm _ _

theorem execPku2r_alike (a b : Byte) : EndsAlike s (execPku2r a b s) (execPku2r a b s') :=
  legal_alike hm <| withBytes_alike hm fun u => by
    split_ifs
    · exact .failRegion hm _ _ _
    · exact .stored hm _ _

theorem execPkc2r_alike (a b : Byte) : EndsAlike s (execPkc2r a b s) (execPkc2r a b s') :=
  legal_alike hm <| withBytes_alike hm fun cmp => by
    cases decompressBytes cmp with
    | error e => exact .failRegion hm _ _ _
    | ok raw => exact .stored hm _ _

theorem exec_alike {i : Instr} (hi : i.ofEcdsa = true) : EndsAlike s (exec i s) (exec i s') := by
  cases i with
  | sign a b c => exact signWith_alike hm id a b c
  | signls a b c => exact signWith_alike hm lowS a b c
  | verify a b c => exact verifyWith_alike hm verifyBytes a b c
  | verifyls a b c => exact verifyWith_alike hm verifyLowS a b c
  | signorm a b => exact execSignorm_alike hm a b
  | pku2r a b => exact execPku2r_alike hm a b
  | pkr2u => exact legal_alike hm <| withBytes_alike hm fun _ => .stored hm _ _
  | pkc2r a b => exact execPkc2r_alike hm a b
  | pkr2c => exact legal_alike hm <| withBytes_alike hm fun _ => .stored hm _ _
  | _ => simp [Instr.ofEcdsa] at hi

end forms

end Sys2Proof.Machine

open Sys2Proof.Machine

/-- Settles O45: from one BUF every Ecdsa command takes the same branches, none of which writes a
register. -/
theorem ecdsaUsesBufAlone : Obligations.EcdsaUsesBufAlone := by
  unfold Obligations.EcdsaUsesBufAlone
  intro i s s' hi hm
  have halike := exec_alike hm hi
  refine ⟨fun t ht => ?_, fun f hf => ?_⟩
  · rw [ht] at halike
    generalize exec i s' = x at halike
    cases halike with
    | complete k e hF hQ hP hT hmem => exact ⟨hF, hQ, hP, hT, _, rfl, hmem, rfl, rfl⟩
  · rw [hf] at halike
    generalize exec i s' = x at halike
    cases halike with
    | fault => rfl
end

section
/-! PROOFS. A source without a value stops a legal command before anything else (R33, R75, R313). -/

namespace Sys2Proof.Machine

/-! ### The operand forms on ⊥ -/

section forms

variable {s : State} {r : RegIdx} {a n : Nat} {missing : Prop}

/-- If a source of the command is missing, the outcome is `fault ReadNoValue`. -/
def FaultsIf (missing : Prop) (x : Result) : Prop := missing → x = .fault .readNoValue

theorem FaultsIf.of_imp {missing' : Prop} {x : Result} (h : FaultsIf missing x)
    (himp : missing' → missing) : FaultsIf missing' x := fun hm => h (himp hm)

theorem withF_faultsIf {k : FieldReg → Result} (h : ∀ v, FaultsIf missing (k v)) :
    FaultsIf (s.getF r = .bot ∨ missing) (withF s r k) := by
  unfold withF
  cases s.getF r with
  | bot => exact fun _ => rfl
  | val v => exact (h v).of_imp (by simp)

theorem withQ_faultsIf {k : Nat → Result} (h : ∀ v, FaultsIf missing (k v)) :
    FaultsIf (s.getQ r = .bot ∨ missing) (withQ s r k) := by
  unfold withQ
  cases s.getQ r with
  | bot => exact fun _ => rfl
  | val v => exact (h v).of_imp (by simp)

theorem withP_faultsIf {k : Point → Result} (h : ∀ v, FaultsIf missing (k v)) :
    FaultsIf (s.getP r = .bot ∨ missing) (withP s r k) := by
  unfold withP
  cases s.getP r with
  | bot => exact fun _ => rfl
  | val v => exact (h v).of_imp (by simp)

theorem withBytes_faultsIf {k : List Byte → Result} (h : ∀ bs, FaultsIf missing (k bs)) :
    FaultsIf (readBytes s.mem a n = .bot ∨ missing) (withBytes s a n k) := by
  unfold withBytes
  cases readBytes s.mem a n with
  | bot => exact fun _ => rfl
  | val bs => exact (h bs).of_imp (by simp)

/-- Once every source has been read nothing is missing. -/
theorem FaultsIf.allRead (x : Result) : FaultsIf False x := False.elim

theorem legal_faultsIf {c : Bool} {x : Result} (hc : c = true) (h : FaultsIf missing x) :
    FaultsIf missing (legal s c x) := by
  rw [hc]
  exact h

theorem rangeDefect_eq_none {ok : Bool} : rangeDefect ok = none ↔ ok = true := by
  cases ok <;> simp [rangeDefect]

/-- A region without a value has none in its first or none in its second part. -/
theorem readBytes_add_bot {m : List Host.Cell} {l : Nat} (h : readBytes m a (n + l) = .bot) :
    readBytes m a n = .bot ∨ readBytes m (a + n) l = .bot := by
  obtain ⟨x, hle, hlt, hx⟩ := readBytes_bot.1 h
  by_cases hn : x < a + n
  · exact .inl (readBytes_bot.2 ⟨x, hle, hn, hx⟩)
  · exact .inr (readBytes_bot.2 ⟨x, not_lt.1 hn, by omega, hx⟩)

/-- Signing reads the key and the nonce, one region of the footprint, as two scalars (R262). -/
theorem signWith_faultsIf {norm : Nat → Nat} {a b c : Byte}
    (hfit : (fits a 32 && fits b 64 && fits c 64) = true) :
    FaultsIf (readBytes s.mem a.toNat 32 = .bot ∨ readBytes s.mem b.toNat 64 = .bot)
      (signWith norm a b c s) :=
  legal_faultsIf hfit <| (withBytes_faultsIf fun _ => withBytes_faultsIf fun _ =>
    withBytes_faultsIf fun _ => .allRead _).of_imp <|
      Or.imp_right fun hb => (readBytes_add_bot (n := 32) (l := 32) hb).imp_right .inl

end forms

/-- A source that holds ⊥, a BUF region by what MemRead makes of it (R75). -/
theorem readsNoValue_iff {i : Instr} {s : State} : ReadsNoValue i s ↔
    (∃ r ∈ i.footprint.srcF, s.getF r = .bot) ∨ (∃ r ∈ i.footprint.srcQ, s.getQ r = .bot) ∨
    (∃ r ∈ i.footprint.srcP, s.getP r = .bot) ∨
    ∃ g ∈ i.footprint.reads, readBytes s.mem g.1 g.2 = .bot := by
  simp only [readBytes_bot]
  rfl

/-- Every legal command reads all its sources before it checks or writes anything (R313). -/
theorem exec_faultsIf {i : Instr} (hwf : i.WellFormed) (s : State) :
    FaultsIf (ReadsNoValue i s) (exec i s) := by
  rw [readsNoValue_iff]
  cases i with
  | floads | floadr | qloadc | qloadv | qloadr | pload | signorm | pku2r | pkr2u | pkc2r | pkr2c =>
    exact legal_faultsIf (rangeDefect_eq_none.1 hwf) <|
      (withBytes_faultsIf fun _ => .allRead _).of_imp (by simp [Instr.footprint])
  | fstore =>
    exact legal_faultsIf (rangeDefect_eq_none.1 hwf) <|
      (withF_faultsIf fun _ => .allRead _).of_imp (by simp [Instr.footprint])
  | fadd | fsub | fmul | feq | feqv =>
    exact (withF_faultsIf fun _ => withF_faultsIf fun _ => .allRead _).of_imp
      (by simp [Instr.footprint])
  | fsqr | fnegc | fmuls | fnorm | fnormw | fiszero | fsqrt | pdecomp =>
    exact (withF_faultsIf fun _ => .allRead _).of_imp (by simp [Instr.footprint])
  | qstore =>
    exact legal_faultsIf (rangeDefect_eq_none.1 hwf) <|
      (withQ_faultsIf fun _ => .allRead _).of_imp (by simp [Instr.footprint])
  | qadd | qmul =>
    exact (withQ_faultsIf fun _ => withQ_faultsIf fun _ => .allRead _).of_imp
      (by simp [Instr.footprint])
  | qnegc | qinv | qiszero | qislehalf | pmulg =>
    exact (withQ_faultsIf fun _ => .allRead _).of_imp (by simp [Instr.footprint])
  | pdbl | pneg | pisinf =>
    exact (withP_faultsIf fun _ => .allRead _).of_imp (by simp [Instr.footprint])
  | padd | peq =>
    exact (withP_faultsIf fun _ => withP_faultsIf fun _ => .allRead _).of_imp
      (by simp [Instr.footprint])
  | paff rdx rdy =>
    have hne : rdx ≠ rdy := by
      rintro rfl
      simp [Instr.WellFormed, Instr.defect] at hwf
    exact legal_faultsIf (decide_eq_true hne) <|
      (withP_faultsIf fun _ => .allRead _).of_imp (by simp [Instr.footprint])
  | pmul =>
    exact (withQ_faultsIf fun _ => withP_faultsIf fun _ => .allRead _).of_imp
      (by simp [Instr.footprint])
  | pmul2v =>
    exact (withQ_faultsIf fun _ => withP_faultsIf fun _ => withQ_faultsIf fun _ =>
      withP_faultsIf fun _ => .allRead _).of_imp (by simp [Instr.footprint]; tauto)
  | pmulg2v =>
    exact (withQ_faultsIf fun _ => withQ_faultsIf fun _ => withP_faultsIf fun _ =>
      .allRead _).of_imp (by simp [Instr.footprint, or_assoc])
  | verify | verifyls =>
    exact legal_faultsIf (rangeDefect_eq_none.1 hwf) <|
      (withBytes_faultsIf fun _ => withBytes_faultsIf fun _ => withBytes_faultsIf fun _ =>
        .allRead _).of_imp (by simp [Instr.footprint])
  | sign | signls =>
    exact (signWith_faultsIf (rangeDefect_eq_none.1 hwf)).of_imp (by simp [Instr.footprint])

end Sys2Proof.Machine

open Sys2Proof.Machine

/-- Settles O47: a legal command reads all its sources first, and each operand form faults on ⊥. -/
theorem readingNoValueFaults : Obligations.ReadingNoValueFaults := by
  unfold Obligations.ReadingNoValueFaults
  exact fun i s hwf => exec_faultsIf hwf s
end

section
/-! PROOFS. The layout of STATUS and of what a status read returns (R43, R44, R87). -/

namespace Sys2Proof.Machine

theorem getLsbD_packStatus (busy done ok t : Bool) (err : BitVec 4) (i : Nat) :
    (packStatus busy done ok t err).getLsbD i =
      if i = 0 then busy else if i = 1 then done else if i = 2 then ok else if i = 3 then t
      else err.getLsbD (i - 4) := by
  show (0#24 ++ err ++ BitVec.ofBool t ++ BitVec.ofBool ok ++ BitVec.ofBool done ++
    BitVec.ofBool busy : BitVec (24 + 4 + 1 + 1 + 1 + 1)).getLsbD i = _
  simp only [BitVec.getLsbD_append, BitVec.getLsbD_ofBool]
  rcases i with _ | _ | _ | _ | i <;> simp
  exact BitVec.lt_of_getLsbD

theorem getLsbD_packStatus_high (busy done ok t : Bool) (err : BitVec 4) {i : Nat} (hi : 8 ≤ i) :
    (packStatus busy done ok t err).getLsbD i = false := by
  rw [getLsbD_packStatus, if_neg (by omega), if_neg (by omega), if_neg (by omega),
    if_neg (by omega)]
  exact BitVec.getLsbD_of_ge err _ (by omega)

theorem extractLsb'_packStatus (busy done ok t : Bool) (err : BitVec 4) :
    (packStatus busy done ok t err).extractLsb' 4 4 = err := by
  refine BitVec.eq_of_getLsbD_eq fun i hi => ?_
  rw [BitVec.getLsbD_extractLsb', getLsbD_packStatus, if_neg (by omega), if_neg (by omega),
    if_neg (by omega), if_neg (by omega)]
  simp [hi]

/-- Two STATUS words with the same BUSY, DONE and T agree but for OK and ERR. -/
theorem getLsbD_packStatus_congr (busy done t ok ok' : Bool) (err err' : BitVec 4) {i : Nat}
    (hi : i = 0 ∨ i = 1 ∨ i = 3 ∨ 8 ≤ i) :
    (packStatus busy done ok t err).getLsbD i = (packStatus busy done ok' t err').getLsbD i := by
  obtain rfl | rfl | rfl | hi := hi
  · rw [getLsbD_packStatus, getLsbD_packStatus]; rfl
  · rw [getLsbD_packStatus, getLsbD_packStatus]; rfl
  · rw [getLsbD_packStatus, getLsbD_packStatus]; rfl
  · rw [getLsbD_packStatus_high _ _ _ _ _ hi, getLsbD_packStatus_high _ _ _ _ _ hi]

end Sys2Proof.Machine

open Sys2Proof.Machine

/-- Settles O54: bit by bit of `packStatus`, which both STATUS and a status read are made by. -/
theorem statusLayout : Obligations.StatusLayout := by
  unfold Obligations.StatusLayout
  intro s
  refine ⟨getLsbD_packStatus .., getLsbD_packStatus .., getLsbD_packStatus ..,
    getLsbD_packStatus .., extractLsb'_packStatus ..,
    fun i hi => getLsbD_packStatus_high _ _ _ _ _ hi, ?_, ?_⟩
  · intro hbusy
    rw [State.statusRead, hbusy]
    rfl
  · intro hbusy i hi
    rw [State.statusRead, State.statusWord, hbusy]
    exact getLsbD_packStatus_congr _ _ _ _ _ _ _ hi
end

section
/-! PROOFS. Which commands are well formed, and what the others do (R74, R78, R109, R311). -/

namespace Sys2Proof.Machine

theorem fits_iff {off : Byte} {n : Nat} : fits off n = true ↔ off.toNat + n ≤ 256 :=
  decide_eq_true_iff

/-- The checks of R109 are the ranges of the footprint's regions and the distinctness of its field
destinations; only BUF operands and PAFF have one to fail. -/
theorem wellFormed_iff (i : Instr) : i.WellFormed ↔
    (∀ g ∈ i.footprint.reads ++ i.footprint.writes, g.1 + g.2 ≤ 256) ∧ i.footprint.dstF.Nodup := by
  cases i with
  | floads | floadr | fstore | qloadc | qloadv | qloadr | qstore | pload =>
    exact rangeDefect_eq_none.trans (fits_iff.trans (by simp [Instr.footprint]))
  | sign | signls | verify | verifyls | signorm | pku2r | pkr2u | pkc2r | pkr2c =>
    refine rangeDefect_eq_none.trans ?_
    simp [fits_iff, Instr.footprint, and_assoc]
  | _ => simp [Instr.WellFormed, Instr.defect, Instr.footprint]

theorem legal_of_rangeDefect {s : State} {ok : Bool} {k : Result} (h : rangeDefect ok ≠ none) :
    legal s ok k = .next s.illegal := by
  rw [Bool.eq_false_of_not_eq_true (mt rangeDefect_eq_none.2 h), legal_false]

/-- An ill-formed command has a BUF operand or is PAFF, and `legal` refuses it (log entry 16). -/
theorem exec_illFormed {i : Instr} (s : State) (h : ¬ i.WellFormed) :
    exec i s = .next s.illegal := by
  cases i with
  | floads | floadr | fstore | qloadc | qloadv | qloadr | qstore | pload
  | sign | signls | verify | verifyls | signorm | pku2r | pkr2u | pkc2r | pkr2c =>
    exact legal_of_rangeDefect h
  | paff rdx rdy rs =>
    obtain rfl : rdx = rdy := by simpa [Instr.WellFormed, Instr.defect] using h
    simp [exec, execPaff]
  | _ => exact absurd rfl h

end Sys2Proof.Machine

open Sys2Proof.Machine

/-- Settles O5: the checks of R109 are those of the footprint, and a command that fails one is
`State.illegal`, a report alone. -/
theorem illFormedCommandsDoNothing : Obligations.IllFormedCommandsDoNothing := by
  unfold Obligations.IllFormedCommandsDoNothing
  intro i s
  exact ⟨wellFormed_iff i, fun h =>
    ⟨_, exec_illFormed s h, failAfter_failWith s .illegalCommand, rfl, rfl, rfl, rfl⟩⟩
end

section
/-! PROOFS. No command sees its own acceptance (R84, R100): it reads neither the word in flight nor
DONE, and its completion overwrites both. -/

namespace Sys2Proof.Machine

section accepted

variable {s : State} {w : Word} {r : RegIdx} {a n : Nat}

/-! ### The operand forms do not read what acceptance changes -/

theorem withF_accept {k k' : FieldReg → Result} (h : ∀ v, k v = k' v) :
    withF (s.accept w) r k = withF s r k' := by
  rw [funext h]
  rfl

theorem withQ_accept {k k' : Nat → Result} (h : ∀ v, k v = k' v) :
    withQ (s.accept w) r k = withQ s r k' := by
  rw [funext h]
  rfl

theorem withP_accept {k k' : Point → Result} (h : ∀ v, k v = k' v) :
    withP (s.accept w) r k = withP s r k' := by
  rw [funext h]
  rfl

theorem withBytes_accept {k k' : List Byte → Result} (h : ∀ bs, k bs = k' bs) :
    withBytes (s.accept w) a n k = withBytes s a n k' := by
  rw [funext h]
  rfl

theorem legal_accept {c : Bool} {k k' : Result} (h : k = k') :
    legal (s.accept w) c k = legal s c k' := by
  rw [h]
  rfl

/-- A command reads its sources alike from both states. Behind them stands a completion, which
overwrites the word in flight and DONE, so that each case ends in one and the same state. -/
theorem exec_accept (i : Instr) (s : State) (w : Word) : exec i (s.accept w) = exec i s := by
  cases i with
  | floads | floadr | qloadc | qloadv | qloadr | pload | signorm | pku2r | pkr2u | pkc2r | pkr2c =>
    exact legal_accept <| withBytes_accept fun _ => rfl
  | sign | signls | verify | verifyls =>
    exact legal_accept <| withBytes_accept fun _ => withBytes_accept fun _ =>
      withBytes_accept fun _ => rfl
  | fstore => exact legal_accept <| withF_accept fun _ => rfl
  | qstore => exact legal_accept <| withQ_accept fun _ => rfl
  | paff => exact legal_accept <| withP_accept fun _ => rfl
  | fadd | fsub | fmul | feq | feqv => exact withF_accept fun _ => withF_accept fun _ => rfl
  | fsqr | fnegc | fmuls | fnorm | fnormw | fiszero | fsqrt => exact withF_accept fun _ => rfl
  | pdecomp rd rs odd =>
    refine withF_accept fun x => ?_
    cases decompress x.val odd <;> rfl
  | qadd | qmul => exact withQ_accept fun _ => withQ_accept fun _ => rfl
  | qnegc | qinv | qiszero | qislehalf | pmulg => exact withQ_accept fun _ => rfl
  | padd | peq => exact withP_accept fun _ => withP_accept fun _ => rfl
  | pdbl | pneg | pisinf => exact withP_accept fun _ => rfl
  | pmul => exact withQ_accept fun _ => withP_accept fun _ => rfl
  | pmul2v =>
    exact withQ_accept fun _ => withP_accept fun _ => withQ_accept fun _ =>
      withP_accept fun _ => rfl
  | pmulg2v => exact withQ_accept fun _ => withQ_accept fun _ => withP_accept fun _ => rfl

end accepted

end Sys2Proof.Machine

open Sys2Proof.Machine

/-- Settles O7: acceptance sets BUSY and DONE alone, and no command sees either. -/
theorem acceptanceIsInvisibleToCommands : Obligations.AcceptanceIsInvisibleToCommands := by
  unfold Obligations.AcceptanceIsInvisibleToCommands
  exact fun i s w => ⟨State.accept_busy s w, State.accept_done s w, exec_accept i s w⟩
end

section
/-! PROOFS. The host's transactions, each by its own equation (R87 to R89, R100, R340). -/

namespace Sys2Proof.Machine

section transactions

variable {s : State} {rest : List HostTxn} {k : Result} {a n : Nat} {bs : List Byte} {w : Word}

theorem step_host {x : HostTxn} (hm : s.faultMark = none) (hh : s.host = x :: rest) :
    step s = hostStep x { s with host := rest } := by
  simp [step, coreStep, hm, hh]

theorem whenIdle_idle (hb : s.busy = false) : whenIdle s k = k := by simp [whenIdle, hb]

theorem whenIdle_busy (hb : s.busy = true) : whenIdle s k = .fault .hostProtocol := by
  simp [whenIdle, hb]

theorem hostFits_inside (h : a + n ≤ 256) : hostFits a n k = k := if_pos h

theorem hostFits_past (h : 256 < a + n) : hostFits a n k = .fault .hostRange :=
  if_neg (not_le.2 h)

theorem withBytes_bot {k : List Byte → Result} (h : readBytes s.mem a n = .bot) :
    withBytes s a n k = .fault .readNoValue := by
  simp [withBytes, h]

/-! ### While BUSY = 0 -/

theorem hostStep_writeBuf (hb : s.busy = false) (hfit : a + bs.length ≤ 256) :
    hostStep (.writeBuf a bs) s = .next (s.write a bs) :=
  (whenIdle_idle hb).trans (hostFits_inside hfit)

theorem hostStep_writeBuf_past (hb : s.busy = false) (hpast : 256 < a + bs.length) :
    hostStep (.writeBuf a bs) s = .fault .hostRange :=
  (whenIdle_idle hb).trans (hostFits_past hpast)

theorem hostStep_readBuf (hb : s.busy = false) (hfit : a + n ≤ 256)
    (hval : readBytes s.mem a n = .val bs) :
    hostStep (.readBuf a n) s = .next (s.reply (.bytes bs) 0) :=
  (whenIdle_idle hb).trans <| (hostFits_inside hfit).trans (withBytes_val hval)

theorem hostStep_readBuf_bot (hb : s.busy = false) (hfit : a + n ≤ 256)
    (hbot : readBytes s.mem a n = .bot) : hostStep (.readBuf a n) s = .fault .readNoValue :=
  (whenIdle_idle hb).trans <| (hostFits_inside hfit).trans (withBytes_bot hbot)

theorem hostStep_readBuf_past (hb : s.busy = false) (hpast : 256 < a + n) :
    hostStep (.readBuf a n) s = .fault .hostRange :=
  (whenIdle_idle hb).trans (hostFits_past hpast)

theorem hostStep_issue (hb : s.busy = false) (hw : s.nextWord = some w) :
    hostStep .issue s = .next (s.accept w) := by
  rw [hostStep, whenIdle_idle hb, hw]

/-! ### At any time, and while BUSY = 1 -/

theorem hostStep_poll (hw : s.inFlight = some w) : hostStep .poll s = runWord w s := by
  rw [hostStep, hw]

theorem hostStep_poll_idle (hw : s.inFlight = none) : hostStep .poll s = .next s := by
  rw [hostStep, hw]

/-- A write, a read and an issue wait for BUSY = 0 first (R89). -/
theorem hostStep_busy {x : HostTxn} (hb : s.busy = true)
    (hx : x = .issue ∨ (∃ a bs, x = .writeBuf a bs) ∨ ∃ a n, x = .readBuf a n) :
    hostStep x s = .fault .hostProtocol := by
  obtain rfl | ⟨a, bs, rfl⟩ | ⟨a, n, rfl⟩ := hx <;> exact whenIdle_busy hb

end transactions

end Sys2Proof.Machine

open Sys2Proof.Machine

/-- Settles O55: a step takes the host's transaction, and each transaction has its equation. -/
theorem hostTransactions : Obligations.HostTransactions := by
  unfold Obligations.HostTransactions
  intro s rest hm
  refine ⟨fun a bs hh hb => ⟨fun hfit => ?write, fun hpast => ?writePast⟩,
    fun a n hh hb => ⟨fun hfit => ⟨fun bs hlen hcells => ?read, fun hbot => ?readBot⟩,
      fun hpast => ?readPast⟩,
    fun w hh hb hw => ?issue, fun hh => ?status, fun hh => ⟨fun w hw => ?poll, fun hw => ?pollIdle⟩,
    fun x hh hb hx => ?busy⟩
  case write =>
    exact ⟨writeBytes s.mem a bs, (step_host hm hh).trans (hostStep_writeBuf hb hfit),
      readBytes_writeBytes _ _ _, fun x hx => s.cell_write_outside hx⟩
  case writePast => exact (step_host hm hh).trans (hostStep_writeBuf_past hb hpast)
  case read =>
    have hval : readBytes s.mem a n = .val bs :=
      readBytes_val.2 ⟨hlen, fun i hi => hcells i _ (List.getElem?_eq_getElem hi)⟩
    exact (step_host hm hh).trans (hostStep_readBuf hb hfit hval)
  case readBot =>
    exact (step_host hm hh).trans (hostStep_readBuf_bot hb hfit (readBytes_bot.2 hbot))
  case readPast => exact (step_host hm hh).trans (hostStep_readBuf_past hb hpast)
  case issue => exact (step_host hm hh).trans (hostStep_issue hb hw)
  case status => exact step_host hm hh
  case poll => exact (step_host hm hh).trans (hostStep_poll hw)
  case pollIdle => exact (step_host hm hh).trans (hostStep_poll_idle hw)
  case busy => exact (step_host hm hh).trans (hostStep_busy hb hx)
end

section
/-! PROOFS. Decoding and encoding undo each other, and which words are illegal (R101 to R111, R117). -/

namespace Sys2Proof

open Laws.EncodeMatch

/-! ### Fields read back (R101, R106 to R108) -/

section fields

variable {op a b c ma mb mc : Byte} {w : Word}

@[simp] theorem regA_mkWord : regA (mkWord op a b c) = lowNib a := by simp [regA]

@[simp] theorem regB_mkWord : regB (mkWord op a b c) = lowNib b := by simp [regB]

@[simp] theorem regC_mkWord : regC (mkWord op a b c) = lowNib c := by simp [regC]

theorem mkWord_fields (w : Word) : mkWord (opField w) (aField w) (bField w) (cField w) = w := by
  apply BitVec.eq_of_getLsbD_eq
  intro i hi
  rw [getLsbD_mkWord]
  simp only [opField, aField, bField, cField, BitVec.getLsbD_extractLsb']
  grind

theorem mkWord_eq (ho : op = opField w) (ha : a = aField w) (hb : b = bField w)
    (hc : c = cField w) : mkWord op a b c = w := by
  rw [ho, ha, hb, hc, mkWord_fields]

/-- A word matches a pattern without operands exactly field by field. -/
theorem fields_of_match {mask : Word} (hmask : mask = mkWord 0xFF#8 ma mb mc)
    (h : w &&& mask = op ++ 0#24) :
    op = opField w ∧ aField w &&& ma = 0#8 ∧ bField w &&& mb = 0#8 ∧ cField w &&& mc = 0#8 := by
  rw [hmask, ← mkWord_fields w, mkWord_and, pattern_mkWord, byte_and_ones] at h
  exact ⟨by simpa using congrArg opField h.symm, by simpa using congrArg aField h,
    by simpa using congrArg bField h, by simpa using congrArg cField h⟩

theorem zero_eq_of_and_ones (h : b &&& 0xFF#8 = 0#8) : 0#8 = b :=
  h.symm.trans (byte_and_ones b)

theorem regField_lowNib (h : b &&& 0xF0#8 = 0#8) : regField (lowNib b) = b := by
  revert b; decide

theorem pairField_nibs (b : Byte) : pairField (highNib b) (lowNib b) = b := by
  revert b; decide

theorem pairField_highNib (h : b &&& 0x0F#8 = 0#8) : pairField (highNib b) 0#4 = b := by
  revert b; decide

theorem condField_condModeOf (h : b &&& 0xFC#8 = 0#8) : condField (condModeOf b) = b := by
  revert b; decide

theorem oddField_oddOf (h : b &&& 0xFE#8 = 0#8) : oddField (oddOf b) = b := by
  revert b; decide

end fields

/-! ### The word that a format's operands make (R102) -/

/-- The word of an opcode and of the operands that the format reads from `w`, every other bit 0. -/
def Format.canonical (op : Byte) (w : Word) : Format → Word
  | .r3 => mkWord op (regField (regA w)) (regField (regB w)) (regField (regC w))
  | .r2 => mkWord op (regField (regA w)) (regField (regB w)) 0#8
  | .rc => mkWord op (regField (regA w)) (regField (regB w)) (condField (condModeOf (cField w)))
  | .ri => mkWord op (regField (regA w)) (regField (regB w)) (cField w)
  | .rs => mkWord op (regField (regA w)) (regField (regB w)) (oddField (oddOf (cField w)))
  | .t2 => mkWord op 0#8 (regField (regB w)) (regField (regC w))
  | .t1 => mkWord op 0#8 (regField (regB w)) 0#8
  | .m  => mkWord op (regField (regA w)) (bField w) 0#8
  | .d  => mkWord op (regField (regA w)) (pairField (highNib (bField w)) (regB w))
      (pairField (highNib (cField w)) (regC w))
  | .dg => mkWord op (regField (regA w)) (pairField (highNib (bField w)) 0#4)
      (pairField (highNib (cField w)) (regC w))
  | .b3 => mkWord op (aField w) (bField w) (cField w)
  | .b2 => mkWord op (aField w) (bField w) 0#8

/-- A word whose fixed bits match has no bits but its opcode and the operands its format reads. -/
theorem Format.canonical_of_match {f : Format} {op : Byte} {w : Word}
    (h : w &&& f.mask = op ++ 0#24) : f.canonical op w = w := by
  cases f with
  | r3 =>
    obtain ⟨ho, ha, hb, hc⟩ := fields_of_match mask_r3 h
    exact mkWord_eq ho (regField_lowNib ha) (regField_lowNib hb) (regField_lowNib hc)
  | r2 =>
    obtain ⟨ho, ha, hb, hc⟩ := fields_of_match mask_r2 h
    exact mkWord_eq ho (regField_lowNib ha) (regField_lowNib hb) (zero_eq_of_and_ones hc)
  | rc =>
    obtain ⟨ho, ha, hb, hc⟩ := fields_of_match mask_rc h
    exact mkWord_eq ho (regField_lowNib ha) (regField_lowNib hb) (condField_condModeOf hc)
  | ri =>
    obtain ⟨ho, ha, hb, -⟩ := fields_of_match mask_ri h
    exact mkWord_eq ho (regField_lowNib ha) (regField_lowNib hb) rfl
  | rs =>
    obtain ⟨ho, ha, hb, hc⟩ := fields_of_match mask_rs h
    exact mkWord_eq ho (regField_lowNib ha) (regField_lowNib hb) (oddField_oddOf hc)
  | t2 =>
    obtain ⟨ho, ha, hb, hc⟩ := fields_of_match mask_t2 h
    exact mkWord_eq ho (zero_eq_of_and_ones ha) (regField_lowNib hb) (regField_lowNib hc)
  | t1 =>
    obtain ⟨ho, ha, hb, hc⟩ := fields_of_match mask_t1 h
    exact mkWord_eq ho (zero_eq_of_and_ones ha) (regField_lowNib hb) (zero_eq_of_and_ones hc)
  | m =>
    obtain ⟨ho, ha, -, hc⟩ := fields_of_match mask_m h
    exact mkWord_eq ho (regField_lowNib ha) rfl (zero_eq_of_and_ones hc)
  | d =>
    obtain ⟨ho, ha, -, -⟩ := fields_of_match mask_d h
    exact mkWord_eq ho (regField_lowNib ha) (pairField_nibs _) (pairField_nibs _)
  | dg =>
    obtain ⟨ho, ha, hb, -⟩ := fields_of_match mask_dg h
    exact mkWord_eq ho (regField_lowNib ha) (pairField_highNib hb) (pairField_nibs _)
  | b3 =>
    obtain ⟨ho, -, -, -⟩ := fields_of_match mask_b3 h
    exact mkWord_eq ho rfl rfl rfl
  | b2 =>
    obtain ⟨ho, -, -, hc⟩ := fields_of_match mask_b2 h
    exact mkWord_eq ho rfl rfl (zero_eq_of_and_ones hc)

/-! ### The opcode map (R111) -/

/-- No opcode has two rows: the map finds every row under its own. -/
theorem find_row {r : Row} (hr : r ∈ rows) : rows.find? (fun x => x.op == r.op) = some r := by
  fin_cases hr <;> rfl

/-- A row's command encodes to the row's opcode and the operands it was built from. -/
theorem encode_build {r : Row} (hr : r ∈ rows) (w : Word) :
    encode (r.build w) = r.format.canonical r.op w := by
  fin_cases hr <;> rfl

/-- The word of every command matches the command's opcode and format. -/
theorem encode_matches (i : Instr) : Statement i := by
  cases i
  exacts [floads .., floadr .., fstore .., fadd .., fsub .., fmul .., fsqr .., fnegc .., fmuls ..,
    fnorm .., fnormw .., fiszero .., feq .., feqv .., fsqrt ..,
    qloadc .., qloadv .., qloadr .., qstore .., qadd .., qmul .., qnegc .., qinv .., qiszero ..,
    qislehalf ..,
    pdbl .., padd .., pneg .., peq .., pisinf .., pdecomp .., pload .., paff ..,
    pmul .., pmulg .., pmul2v .., pmulg2v ..,
    sign .., signls .., verify .., verifyls .., signorm .., pku2r .., pkr2u .., pkc2r .., pkr2c ..]

/-- Every command has a row, which reads the command back from its word. -/
theorem exists_row (i : Instr) :
    ∃ r ∈ rows, r.op = opcode i ∧ r.format = format i ∧ r.build (encode i) = i := by
  have hfind : ∃ r, rows.find? (fun x => x.op == opcode i) = some r ∧
      r.op = opcode i ∧ r.format = format i ∧ r.build (encode i) = i := by
    cases i <;> exact ⟨_, rfl, rfl, rfl, by simp [encode]⟩
  obtain ⟨r, hr, hrow⟩ := hfind
  exact ⟨r, List.mem_of_find?_eq_some hr, hrow⟩

/-- An opcode to which R110 gives no command. -/
abbrev ReservedOpcode (op : Nat) : Prop :=
  op / 16 = 0 ∨ 6 ≤ op / 16 ∨ op = 0x1F ∨ (0x2A ≤ op ∧ op ≤ 0x2F) ∨ (0x38 ≤ op ∧ op ≤ 0x3F) ∨
    (0x44 ≤ op ∧ op ≤ 0x4F) ∨ (0x59 ≤ op ∧ op ≤ 0x5F)

theorem rows_not_reserved : ∀ r ∈ rows, ¬ ReservedOpcode r.op.toNat := by decide

/-! ### The decoder, case by case (R109) -/

section decoder

variable {w : Word} {r : Row} {i : Instr}

theorem decode_no_row (h : ∀ r ∈ rows, r.op ≠ opField w) : decode w = .error .reservedOpcode := by
  have hnone : rows.find? (fun x => x.op == opField w) = none :=
    List.find?_eq_none.2 fun r hr => by simpa using h r hr
  rw [decode, hnone]

theorem decode_mismatch (hr : r ∈ rows) (hop : opField w = r.op)
    (hm : w &&& r.format.mask ≠ r.pattern) : decode w = .error .mustBeZero := by
  simp only [decode, hop, find_row hr, if_neg hm]

theorem decode_match (hr : r ∈ rows) (hop : opField w = r.op)
    (hm : w &&& r.format.mask = r.pattern) (hwf : (r.build w).WellFormed) :
    decode w = .ok (r.build w) := by
  simp only [decode, hop, find_row hr, if_pos hm, show (r.build w).defect = none from hwf]

theorem decode_ok (h : decode w = .ok i) :
    ∃ r ∈ rows, w &&& r.format.mask = r.pattern ∧ r.build w = i ∧ i.WellFormed := by
  unfold decode at h
  split at h
  · cases h
  · next r hr =>
    split at h
    · next hm =>
      split at h
      · next hwf =>
        cases h
        exact ⟨r, List.mem_of_find?_eq_some hr, hm, rfl, hwf⟩
      · cases h
    · cases h

end decoder

end Sys2Proof

open Sys2Proof Sys2Proof.Machine

/-- Settles O1: the word of a command matches the command's row, and that row reads it back. -/
theorem decodeUndoesEncode : Obligations.DecodeUndoesEncode := by
  unfold Obligations.DecodeUndoesEncode
  intro i hwf
  obtain ⟨r, hr, hop, hformat, hbuild⟩ := exists_row i
  obtain ⟨hopField, hmask⟩ := encode_matches i
  have hmatch : encode i &&& r.format.mask = r.pattern := by
    rw [hformat, hmask, Row.pattern, hop]
  calc decode (encode i)
    _ = .ok (r.build (encode i)) :=
      decode_match hr (hopField.trans hop.symm) hmatch (by rwa [hbuild])
    _ = .ok i := by rw [hbuild]

/-- Settles O2: a command built from a word encodes to the operands its format reads, and a word
whose fixed bits match has no others. -/
theorem legalWordsAreEncodings : Obligations.LegalWordsAreEncodings := by
  unfold Obligations.LegalWordsAreEncodings
  intro w i h
  obtain ⟨r, hr, hmatch, rfl, hwf⟩ := decode_ok h
  exact ⟨hwf, (encode_build hr w).trans (Format.canonical_of_match hmatch)⟩

/-- Settles O3, by running the decoder on the fifteen words. -/
theorem workedEncodings : Obligations.WorkedEncodings := by
  unfold Obligations.WorkedEncodings
  decide

/-- Settles O4: no row has a reserved opcode, a row's opcode with other fixed bits fails the match,
and an illegal word runs to `State.illegal`, a report alone. -/
theorem reservedWordsAreIllegal : Obligations.ReservedWordsAreIllegal := by
  unfold Obligations.ReservedWordsAreIllegal
  intro w s
  refine ⟨fun hres => decode_no_row fun r hr hop => ?_, fun r hr hop hm => decode_mismatch hr hop hm,
    fun e he => ?_⟩
  · exact rows_not_reserved r hr (hop ▸ hres)
  · exact ⟨_, runWord_error he, failAfter_failWith s .illegalCommand, rfl, rfl, rfl, rfl⟩
end

section
/-! PROOFS. The Field family: what each command leaves in its destination or in T, and when it
faults (R140 to R171). -/

namespace Sys2Proof.Machine

/-! ### How a Field command ends (R300, R301) -/

section forms

variable {s : State} {x : Result} {rd : RegIdx} {v : Content FieldReg}

theorem require_false {c : Prop} [Decidable c] {f : Fault} {k : Result} (h : ¬c) :
    require c f k = .fault f := if_neg h

/-- A report after updates that leave pc and T alone (R100, R300). -/
theorem OkAfter.of_update {u : State} (hpc : u.pc = s.pc) (ht : u.t = s.t) :
    OkAfter s u.finishOk :=
  ⟨rfl, rfl, rfl, rfl, congrArg (· + 1) hpc, ht⟩

theorem Norm.ne_reduced {n : Norm} (h : n = .loose) : n ≠ .reduced := by simp [h]

/-- A command that sets a field register and ends in `ok` (R300). -/
theorem completes_setF (h : x = .next (s.setF rd v).finishOk) :
    ∃ t, x = .next t ∧ OkAfter s t ∧ t.getF rd = v :=
  ⟨_, h, .of_update rfl rfl, State.getF_setF_self s rd v⟩

/-- A command that sets a field register and ends in `fail` (R301). -/
theorem fails_setF {e : ErrCode} (h : x = .next ((s.setF rd v).failWith e)) :
    ∃ t, x = .next t ∧ FailAfter s e t ∧ t.getF rd = v :=
  ⟨_, h, ⟨rfl, rfl, rfl, rfl, rfl, rfl⟩, State.getF_setF_self s rd v⟩

/-- A command that stores a 256-bit value leaves its 32 bytes (R17, R76). -/
theorem completes_stored {a n : Nat} (hn : n < 2 ^ 256)
    (h : x = .next (s.write a (int2be32 n)).finishOk) :
    ∃ t bs, x = .next t ∧ OkAfter s t ∧
      readBytes t.mem a 32 = .val bs ∧ bs.length = 32 ∧ be2int bs = n :=
  ⟨_, _, h, .of_update (State.write_pc ..) (State.write_t ..), readBytes_stored s a n,
    int2be32_length n, be2int_int2be32 hn⟩

theorem completes_answer {b : Bool} (h : x = .next (s.answer b)) :
    ∃ t, x = .next t ∧ Answered s b t :=
  ⟨_, h, answered_answer s b⟩

/-- The condition bit is 1 exactly when the mode negates (R108). -/
theorem State.cond_iff (s : State) (cm : CondMode) : s.cond cm = true ↔ Negates s cm := by
  cases cm <;> simp [State.cond, Negates]

end forms

/-! ### Loads, and the store of a LOOSE register (R141, R142, R143) -/

section transfers

variable {s : State} {rd rs : RegIdx} {off : Byte} {bs : List Byte}
  (hoff : off.toNat + 32 ≤ 256)
include hoff

theorem exec_floads_below (hm : readBytes s.mem off.toNat 32 = .val bs) (h : be2int bs < primeP) :
    exec (.floads rd off) s = .next (s.setF rd (.val ⟨be2int bs, 1, .reduced⟩)).finishOk := by
  simp [exec, execFloads, fits_eq_true hoff, withBytes_val hm, h.not_ge]

theorem exec_floads_above (hm : readBytes s.mem off.toNat 32 = .val bs) (h : primeP ≤ be2int bs) :
    exec (.floads rd off) s = .next ((s.setF rd .bot).failWith .invalidPoint) := by
  simp [exec, execFloads, fits_eq_true hoff, withBytes_val hm, h]

theorem exec_floadr (hm : readBytes s.mem off.toNat 32 = .val bs) :
    exec (.floadr rd off) s =
      .next (s.setF rd (.val ⟨be2int bs % primeP, 1, .loose⟩)).finishOk := by
  simp [exec, execFloadr, fits_eq_true hoff, withBytes_val hm]

theorem exec_fstore_loose {a : FieldReg} (hs : s.getF rs = .val a) (h : a.norm = .loose) :
    exec (.fstore rs off) s = .fault .notNormalized := by
  simp [exec, execFstore, fits_eq_true hoff, withF_val hs, require_false (Norm.ne_reduced h)]

end transfers

/-! ### Arithmetic and predicates on registers that hold a value (R145 to R171) -/

section registers

variable {s : State} {rs rs1 rs2 : RegIdx} {a b : FieldReg}

section binary

variable (ha : s.getF rs1 = .val a) (hb : s.getF rs2 = .val b)
include ha hb

theorem exec_fadd (rd : RegIdx) : exec (.fadd rd rs1 rs2) s =
    require (a.mag + b.mag ≤ s.magLimit) .fieldOverflow
      (.next (s.setLoose rd ((a.val + b.val) % primeP) (a.mag + b.mag)).finishOk) :=
  (withF_val ha).trans (withF_val hb)

theorem exec_fsub (rd : RegIdx) : exec (.fsub rd rs1 rs2) s =
    require (a.mag + b.mag + 1 ≤ s.magLimit) .fieldOverflow
      (.next (s.setLoose rd (subMod primeP a.val b.val) (a.mag + b.mag + 1)).finishOk) :=
  (withF_val ha).trans (withF_val hb)

theorem exec_fmul (rd : RegIdx) : exec (.fmul rd rs1 rs2) s =
    require (a.mag ≤ s.magMul ∧ b.mag ≤ s.magMul) .fieldOverflow
      (.next (s.setLoose rd (a.val * b.val % primeP) 1).finishOk) :=
  (withF_val ha).trans (withF_val hb)

theorem fieldEqual_val : fieldEqual rs1 rs2 s =
    require (a.norm = .reduced ∧ b.norm = .reduced) .notNormalized
      (.next (s.answer (decide (a.val = b.val)))) :=
  (withF_val ha).trans (withF_val hb)

end binary

section unary

variable (ha : s.getF rs = .val a)
include ha

theorem exec_fsqr (rd : RegIdx) : exec (.fsqr rd rs) s =
    require (a.mag ≤ s.magMul) .fieldOverflow
      (.next (s.setLoose rd (a.val * a.val % primeP) 1).finishOk) :=
  withF_val ha

theorem exec_fnegc (rd : RegIdx) (cm : CondMode) : exec (.fnegc rd rs cm) s =
    require (a.mag + 1 ≤ s.magLimit) .fieldOverflow
      (.next (s.setLoose rd (if s.cond cm then negMod primeP a.val else a.val)
        (a.mag + 1)).finishOk) :=
  withF_val ha

theorem exec_fmuls (rd : RegIdx) (n : Byte) : exec (.fmuls rd rs n) s =
    require (max 1 (a.mag * n.toNat) ≤ s.magLimit) .fieldOverflow
      (.next (s.setLoose rd (a.val * n.toNat % primeP) (max 1 (a.mag * n.toNat))).finishOk) :=
  withF_val ha

theorem exec_fnorm (rd : RegIdx) :
    exec (.fnorm rd rs) s = .next (s.setF rd (.val ⟨a.val, 1, .reduced⟩)).finishOk :=
  withF_val ha

theorem exec_fnormw (rd : RegIdx) :
    exec (.fnormw rd rs) s = .next (s.setLoose rd a.val 1).finishOk :=
  withF_val ha

theorem exec_fsqrt (rd : RegIdx) : exec (.fsqrt rd rs) s =
    require (a.mag ≤ s.magMul) .fieldOverflow
      (.next (s.setLoose rd (sqrtCandidate a.val) 1).finishOk) :=
  withF_val ha

theorem exec_fiszero : exec (.fiszero rs) s =
    require (a.norm = .reduced) .notNormalized (.next (s.answer (decide (a.val = 0)))) :=
  withF_val ha

end unary

end registers

/-! ### The square root (R171) -/

/-- A root function of R171 answers 0 for 0: only 0 squares to 0. -/
theorem SqrtContract.sqrt_zero {sqrt : Nat → Nat} (h : SqrtContract sqrt) : sqrt 0 = 0 := by
  have hsq : sqrt 0 * sqrt 0 % primeP = 0 := h.root 0 0 primeP_pos rfl
  have hdvd : primeP ∣ sqrt 0 := or_self_iff.1 (prime_p.dvd_mul.1 (Nat.dvd_of_mod_eq_zero hsq))
  exact Nat.eq_zero_of_dvd_of_lt hdvd (h.range 0 primeP_pos)

/-- Whatever the free values are, the candidate keeps the contract: a square has its principal root,
and the opposite of a root is a root (log entry 4). -/
theorem sqrtContract_sqrtCandidate : SqrtContract sqrtCandidate where
  range v _ := sqrtCandidate_lt v
  root v c _ hc := by
    have hroot : principalRoot v * principalRoot v % primeP = v := principalRoot_sq hc
    rw [sqrtCandidate, if_pos hroot]
    split
    · exact (negMod_mul_self (principalRoot_lt v)).trans hroot
    · exact hroot

end Sys2Proof.Machine

open Sys2Proof Sys2Proof.Machine

/-- Settles O8: a load decides by the value of its bytes, and the bytes a store leaves have the
register's value. -/
theorem fieldLoadsAndStore : Obligations.FieldLoadsAndStore := by
  unfold Obligations.FieldLoadsAndStore
  refine ⟨fun s rd off bs hoff hm => ⟨fun h => ?_, fun h => ?_, ?_⟩,
    fun s rs off a hoff hs hv => ⟨fun h => ?_, fun h => ?_⟩⟩
  · exact completes_setF (exec_floads_below hoff hm h)
  · exact fails_setF (exec_floads_above hoff hm h)
  · exact completes_setF (exec_floadr hoff hm)
  · obtain ⟨v, m, n⟩ := a
    obtain rfl : n = .reduced := h
    exact completes_stored (hv.trans primeP_lt) (exec_fstore hoff hs)
  · exact exec_fstore_loose hoff hs h

/-- Settles O9: the budget decides between overflow and a LOOSE result, and `subMod` is the residue
of the integer difference. -/
theorem fieldAddAndSub : Obligations.FieldAddAndSub := by
  unfold Obligations.FieldAddAndSub
  intro s rd rs1 rs2 a b ha hb
  have hadd := exec_fadd ha hb rd
  have hsub := exec_fsub ha hb rd
  refine ⟨fun h => ?_, fun h => ?_, fun h => ?_, fun h => ?_⟩
  · exact completes_setF (hadd.trans (require_true h))
  · exact hadd.trans (require_false h.not_ge)
  · obtain ⟨t, ht, hok, hrd⟩ := completes_setF (hsub.trans (require_true h))
    exact ⟨t, _, ht, hok, hrd, subMod_eq a.val b.val primeP_pos⟩
  · exact hsub.trans (require_false h.not_ge)

/-- Settles O10: MAG_MUL bounds the inputs of the products, MAG_LIMIT the result of FMULS. -/
theorem fieldMultiplications : Obligations.FieldMultiplications := by
  unfold Obligations.FieldMultiplications
  refine ⟨fun s rd rs1 rs2 a b ha hb => ⟨fun h => ?_, fun h => ?_⟩,
    fun s rd rs a ha => ⟨fun h => ?_, fun h => ?_⟩,
    fun s rd rs n a ha => ⟨fun h => ?_, fun h => ?_⟩⟩
  · exact completes_setF ((exec_fmul ha hb rd).trans (require_true h))
  · exact (exec_fmul ha hb rd).trans (require_false (by omega))
  · exact completes_setF ((exec_fsqr ha rd).trans (require_true h))
  · exact (exec_fsqr ha rd).trans (require_false h.not_ge)
  · exact completes_setF ((exec_fmuls ha rd n).trans (require_true h))
  · exact (exec_fmuls ha rd n).trans (require_false h.not_ge)

/-- Settles O11: the condition bit of R108 picks the value alone, and `negMod` of a residue is the
residue of the integer negation. -/
theorem fieldNegateAndNormalize : Obligations.FieldNegateAndNormalize := by
  unfold Obligations.FieldNegateAndNormalize
  intro s rd rs a ha hv
  refine ⟨fun cm h => ?_, fun cm h => ?_, ?_, ?_⟩
  · obtain ⟨t, ht, hok, hrd⟩ := completes_setF ((exec_fnegc ha rd cm).trans (require_true h))
    refine ⟨t, _, ht, hok, hrd, fun hneg => ?_, fun hneg => ?_⟩
    · rw [if_pos ((s.cond_iff cm).2 hneg)]
      exact negMod_eq hv
    · exact if_neg (mt (s.cond_iff cm).1 hneg)
  · exact (exec_fnegc ha rd cm).trans (require_false h.not_ge)
  · exact completes_setF (exec_fnorm ha rd)
  · exact completes_setF (exec_fnormw ha rd)

/-- Settles O12: every candidate the free values give keeps the contract of R171. -/
theorem fieldSquareRoot : Obligations.FieldSquareRoot := by
  unfold Obligations.FieldSquareRoot
  intro s rd rs a ha hv
  refine ⟨fun h => ?_, fun h => ?_⟩
  · obtain ⟨t, ht, hok, hrd⟩ := completes_setF ((exec_fsqrt ha rd).trans (require_true h))
    refine ⟨t, _, ht, hok, hrd, sqrtCandidate_lt a.val, fun h0 => ?_, fun ⟨y, hy⟩ => ?_⟩
    · rw [h0]
      exact sqrtContract_sqrtCandidate.sqrt_zero
    · exact sqrtContract_sqrtCandidate.root a.val y hv hy
  · exact (exec_fsqrt ha rd).trans (require_false h.not_ge)

/-- Settles O13: the tags decide between the fault and the predicate, and FEQ and FEQV share one
test. -/
theorem fieldPredicates : Obligations.FieldPredicates := by
  unfold Obligations.FieldPredicates
  intro s rs1 rs2 a b ha hb
  refine ⟨fun h => ?_, fun h => ?_, fun h => ?_, fun h => ?_⟩
  · exact completes_answer ((exec_fiszero ha).trans (require_true h))
  · exact (exec_fiszero ha).trans (require_false (Norm.ne_reduced h))
  · have heq := (fieldEqual_val ha hb).trans (require_true h)
    exact ⟨completes_answer heq, completes_answer heq⟩
  · have hnot : ¬ (a.norm = .reduced ∧ b.norm = .reduced) := fun ⟨hra, hrb⟩ =>
      h.elim (Norm.ne_reduced · hra) (Norm.ne_reduced · hrb)
    have heq := (fieldEqual_val ha hb).trans (require_false hnot)
    exact ⟨heq, heq⟩
end

section
/-! PROOFS. The Scalar family: what each command leaves in its destination or in T, when it fails or
faults, and the low-s normalization pair (R180 to R199). -/

namespace Sys2Proof.Machine

/-! ### How a Scalar command ends (R300, R301) -/

section forms

variable {s : State} {x : Result} {rd : RegIdx} {v : Content Nat}

/-- A command that sets a scalar register and ends in `ok` (R300). -/
theorem completes_setQ (h : x = .next (s.setQ rd v).finishOk) :
    ∃ t, x = .next t ∧ OkAfter s t ∧ t.getQ rd = v :=
  ⟨_, h, .of_update rfl rfl, State.getQ_setQ_self s rd v⟩

/-- A command that sets a scalar register and ends in `fail` (R301). -/
theorem fails_setQ {e : ErrCode} (h : x = .next ((s.setQ rd v).failWith e)) :
    ∃ t, x = .next t ∧ FailAfter s e t ∧ t.getQ rd = v :=
  ⟨_, h, ⟨rfl, rfl, rfl, rfl, rfl, rfl⟩, State.getQ_setQ_self s rd v⟩

end forms

/-! ### Loads (R181, R182, R183) -/

theorem checked_inside {bs : List Byte} (h : 0 < be2int bs ∧ be2int bs < orderQ) :
    checked bs = some (be2int bs) := if_pos h

theorem checked_outside {bs : List Byte} (h : be2int bs = 0 ∨ orderQ ≤ be2int bs) :
    checked bs = none := if_neg (by omega)

section loads

variable {s : State} {rd : RegIdx} {off : Byte} {bs : List Byte}
  (hoff : off.toNat + 32 ≤ 256) (hm : readBytes s.mem off.toNat 32 = .val bs)
include hoff hm

theorem loadChecked_inside (h : 0 < be2int bs ∧ be2int bs < orderQ) :
    loadChecked rd off s = .next (s.setQ rd (.val (be2int bs))).finishOk := by
  simp [loadChecked, fits_eq_true hoff, withBytes_val hm, checked_inside h]

theorem loadChecked_outside (h : be2int bs = 0 ∨ orderQ ≤ be2int bs) :
    loadChecked rd off s = .next ((s.setQ rd .bot).failWith .invalidScalar) := by
  simp [loadChecked, fits_eq_true hoff, withBytes_val hm, checked_outside h]

theorem exec_qloadr_bytes :
    exec (.qloadr rd off) s = .next (s.setQ rd (.val (be2int bs % orderQ))).finishOk := by
  simp [exec, execQloadr, fits_eq_true hoff, withBytes_val hm, reduced]

end loads

/-! ### Arithmetic and predicates on registers that hold a value (R186 to R197) -/

section registers

variable {s : State} {rs rs1 rs2 : RegIdx} {k l : Nat}

section binary

variable (hk : s.getQ rs1 = .val k) (hl : s.getQ rs2 = .val l)
include hk hl

theorem exec_qadd (rd : RegIdx) : exec (.qadd rd rs1 rs2) s =
    .next (s.setQ rd (.val ((k + l) % orderQ))).finishOk :=
  (withQ_val hk).trans (withQ_val hl)

theorem exec_qmul (rd : RegIdx) : exec (.qmul rd rs1 rs2) s =
    .next (s.setQ rd (.val (k * l % orderQ))).finishOk :=
  (withQ_val hk).trans (withQ_val hl)

end binary

section unary

variable (hk : s.getQ rs = .val k)
include hk

theorem exec_qnegc (rd : RegIdx) (cm : CondMode) : exec (.qnegc rd rs cm) s =
    .next (s.setQ rd (.val (if s.cond cm then negMod orderQ k else k))).finishOk :=
  withQ_val hk

theorem exec_qinv (rd : RegIdx) : exec (.qinv rd rs) s =
    require (k ≠ 0) .invertZero (.next (s.setQ rd (.val (qinv k))).finishOk) :=
  withQ_val hk

theorem exec_qiszero : exec (.qiszero rs) s = .next (s.answer (decide (k = 0))) :=
  withQ_val hk

theorem exec_qislehalf : exec (.qislehalf rs) s = .next (s.answer (decide (k ≤ halfQ))) :=
  withQ_val hk

end unary

end registers

/-! ### The inverse (R192) -/

/-- By Fermat's little theorem for the prime q, v^(q-2) inverts every non-zero residue v. -/
theorem mul_qinv {v : Nat} (h0 : v ≠ 0) (hlt : v < orderQ) : v * qinv v % orderQ = 1 := by
  have hcop : v.Coprime orderQ := (Nat.coprime_of_lt_prime h0 hlt prime_q).symm
  calc v * qinv v % orderQ = v ^ (orderQ - 1) % orderQ := by
        rw [qinv_eq, Nat.mul_mod_mod, ← pow_succ', show orderQ - 2 + 1 = orderQ - 1 by decide]
    _ = 1 % orderQ := by
        rw [← Nat.totient_prime prime_q]
        exact Nat.ModEq.pow_totient hcop
    _ = 1 := Nat.mod_eq_of_lt (by decide)

/-! ### Low-s normalization (R197, R199) -/

/-- HALF = (q - 1) / 2 (R12). -/
theorem halfQ_eq : halfQ = (orderQ - 1) / 2 := by decide

theorem orderQ_eq : orderQ = 2 * halfQ + 1 := by decide

theorem negMod_of_pos {m a : Nat} (h0 : 0 < a) (hlt : a < m) : negMod m a = m - a :=
  Nat.mod_eq_of_lt (by omega)

/-- `lowS` is the smaller of a scalar and its opposite (R265). -/
theorem lowS_eq_min {k : Nat} (h : k < orderQ) : lowS k = min k (orderQ - k) := by
  have hq := orderQ_eq
  unfold lowS
  split <;> omega

theorem lowS_lowS {k : Nat} (h : k < orderQ) : lowS (lowS k) = lowS k :=
  if_neg (lowS_le h).not_gt

/-- Exactly one of k and q - k is at most HALF (R197). -/
theorem le_halfQ_iff_not_opposite {k : Nat} (h : k < orderQ) :
    k ≤ halfQ ↔ ¬ orderQ - k ≤ halfQ := by
  have hq := orderQ_eq
  omega

/-- The negation that IFNT makes after the test against HALF gives `lowS`: a scalar above HALF is
not 0, so its modular negative is q less the scalar (R199). -/
theorem ite_negMod_eq_lowS {k : Nat} (h : k < orderQ) :
    (if !decide (k ≤ halfQ) then negMod orderQ k else k) = lowS k := by
  unfold lowS
  rcases Nat.lt_or_ge halfQ k with hhigh | hlow
  · simp [hhigh, negMod_of_pos (Nat.zero_lt_of_lt hhigh) h]
  · simp [hlow]

/-- The pair QISLEHALF, QNEGC IFNT leaves `lowS` of the scalar (R199). -/
theorem execAll_lowS {s : State} {r : RegIdx} {k : Nat} (hr : s.getQ r = .val k)
    (hk : k < orderQ) :
    ∃ t, execAll [.qislehalf r, .qnegc r r .ifnt] s = .next t ∧ t.getQ r = .val (lowS k) := by
  have htest : (s.answer (decide (k ≤ halfQ))).getQ r = .val k := hr
  refine ⟨((s.answer (decide (k ≤ halfQ))).setQ r (.val (lowS k))).finishOk, ?_, by simp⟩
  rw [execAll_cons_next (exec_qislehalf hr), execAll_cons_next (exec_qnegc htest r .ifnt),
    ← ite_negMod_eq_lowS hk]
  rfl

end Sys2Proof.Machine

open Sys2Proof Sys2Proof.Machine

/-- Settles O17: the condition bit of R108 picks between the copy and `negMod`, which is the residue
of the integer negation. -/
theorem scalarNegate : Obligations.ScalarNegate := by
  unfold Obligations.ScalarNegate
  intro s rd rs cm k hs hk
  obtain ⟨t, ht, hok, hrd⟩ := completes_setQ (exec_qnegc hs rd cm)
  refine ⟨t, _, ht, hok, hrd, fun hneg => ?_, fun hneg => ?_⟩
  · rw [if_pos ((s.cond_iff cm).2 hneg)]
    exact negMod_eq hk
  · exact if_neg (mt (s.cond_iff cm).1 hneg)

/-- Settles O18: the power q - 2 is the inverse by Fermat's little theorem, and QINV requires a
non-zero scalar. -/
theorem scalarInverse : Obligations.ScalarInverse := by
  unfold Obligations.ScalarInverse
  intro s rd rs k hs hk
  refine ⟨fun h0 => ?_, fun h0 => ?_⟩
  · obtain ⟨t, ht, hok, hrd⟩ := completes_setQ ((exec_qinv hs rd).trans (require_true h0))
    exact ⟨t, qinv k, ht, hok, hrd, qinv_eq k, qinv_lt k, mul_qinv h0 hk⟩
  · exact (exec_qinv hs rd).trans (require_false (not_not.2 h0))

/-- Settles O20: the pair computes `lowS`, which is the minimum and leaves its own results as they
are. -/
theorem lowSNormalization : Obligations.LowSNormalization := by
  unfold Obligations.LowSNormalization
  intro s r k hr hk
  rw [← halfQ_eq, ← lowS_eq_min hk]
  refine ⟨?_, fun _ => le_halfQ_iff_not_opposite hk⟩
  have hlow : lowS k < orderQ := (lowS_le hk).trans_lt (by decide)
  obtain ⟨t, hrun, ht⟩ := execAll_lowS hr hk
  obtain ⟨u, hrun', hu⟩ := execAll_lowS ht hlow
  refine ⟨t, hrun, ht, u, hrun', ?_⟩
  rw [hu, ht, lowS_lowS hk]

/-- Settles O15: both checked loads decide by `checked`, whose interval is [1, q - 1]. -/
theorem scalarLoads : Obligations.ScalarLoads := by
  unfold Obligations.ScalarLoads
  intro s rd off bs hoff hm
  refine ⟨fun h => ?_, fun h => ?_, completes_setQ (exec_qloadr_bytes hoff hm)⟩
  · have hload := completes_setQ (loadChecked_inside (rd := rd) hoff hm h)
    exact ⟨hload, hload⟩
  · have hload := fails_setQ (loadChecked_outside (rd := rd) hoff hm h)
    exact ⟨hload, hload⟩

/-- Settles O16: a scalar below q fits in the 32 bytes stored, and the sum and the product are those
of the sources. -/
theorem scalarStoreAddMul : Obligations.ScalarStoreAddMul := by
  unfold Obligations.ScalarStoreAddMul
  refine ⟨fun s rs off k hoff hs hk => ?_, fun s rd rs1 rs2 k l hk hl => ⟨?_, ?_⟩⟩
  · exact completes_stored (hk.trans (orderQ_lt.trans primeP_lt)) (exec_qstore hoff hs)
  · exact completes_setQ (exec_qadd hk hl rd)
  · exact completes_setQ (exec_qmul hk hl rd)

/-- Settles O19: the predicates answer their test of the scalar, with HALF = (q - 1) / 2. -/
theorem scalarPredicates : Obligations.ScalarPredicates := by
  unfold Obligations.ScalarPredicates
  intro s rs k hs
  refine ⟨completes_answer (exec_qiszero hs), ?_⟩
  rw [← halfQ_eq]
  exact completes_answer (exec_qislehalf hs)
end

section
/-! PROOFS. The group law of R211: the slopes and coordinates of a sum as congruences, and the laws
of a commutative group, read off the curve's points that the model's points denote. -/

namespace Sys2Proof.Machine

/-! ### The four cases of a sum -/

/-- The slope of the tangent at (x, y) as `Point.add` computes it. -/
def tangentSlope (x y : Nat) : Nat := 3 * x * x * finv (2 * y % primeP) % primeP

/-- The slope of the chord through (x1, y1) and (x2, y2) as `Point.add` computes it. -/
def chordSlope (x1 y1 x2 y2 : Nat) : Nat :=
  subMod primeP y2 y1 * finv (subMod primeP x2 x1) % primeP

@[simp] theorem Point.inf_add (a : Point) : Point.add .inf a = a := rfl

@[simp] theorem Point.add_inf (a : Point) : a.add .inf = a := by cases a <;> rfl

section cases

variable {x x1 y1 x2 y2 : Nat}

theorem Point.add_of_opposite (h : (y1 + y2) % primeP = 0) :
    Point.add (.aff x y1) (.aff x y2) = .inf := by
  simp [Point.add, h]

theorem Point.add_of_not_opposite (h : (y1 + y2) % primeP ≠ 0) :
    Point.add (.aff x y1) (.aff x y2) = chord (tangentSlope x y1) x y1 x := by
  simp [Point.add, h, tangentSlope]

theorem Point.add_of_ne (h : x1 ≠ x2) :
    Point.add (.aff x1 y1) (.aff x2 y2) = chord (chordSlope x1 y1 x2 y2) x1 y1 x2 := by
  simp [Point.add, h, chordSlope]

end cases

/-! ### Slopes and coordinates as congruences -/

theorem subMod_modEq (a b : Nat) : (subMod primeP a b : Int) ≡ a - b [ZMOD primeP] := by
  rw [subMod_eq a b primeP_pos]
  exact Int.mod_modEq _ _

/-- The slope l of a tangent satisfies l * 2y = 3x^2 (R211). -/
theorem tangentSlope_mul {x y : Nat} (h : (2 * y) % primeP ≠ 0) :
    tangentSlope x y * (2 * y) % primeP = 3 * x * x % primeP := by
  have : Fact primeP.Prime := ⟨prime_p⟩
  have h2y : ((2 * y : Nat) : ZMod primeP) ≠ 0 := small_ne_zero h
  rw [← ZMod.natCast_eq_natCast_iff', Nat.cast_mul, tangentSlope, cast_mod,
    Nat.cast_mul (3 * x * x), cast_finv, cast_mod, inv_mul_cancel_right₀ h2y]

/-- The slope l of a chord satisfies l * (x2 - x1) = y2 - y1 (R211). -/
theorem chordSlope_mul {x1 y1 x2 y2 : Nat} (hx1 : x1 < primeP) (hx2 : x2 < primeP)
    (h : x1 ≠ x2) :
    (chordSlope x1 y1 x2 y2 : Int) * (x2 - x1) ≡ y2 - y1 [ZMOD primeP] := by
  have : Fact primeP.Prime := ⟨prime_p⟩
  have hdx : (x2 : ZMod primeP) - x1 ≠ 0 := sub_ne_zero.2 (mt (cast_inj hx2 hx1).1 h.symm)
  have hl : (chordSlope x1 y1 x2 y2 : ZMod primeP) = (y2 - y1) * (x2 - x1 : ZMod primeP)⁻¹ := by
    rw [chordSlope, cast_mod, Nat.cast_mul, cast_finv, cast_subMod, cast_subMod]
  rw [← ZMod.intCast_eq_intCast_iff]
  push_cast
  rw [hl, inv_mul_cancel_right₀ hdx]

/-- The coordinates of the third point, reflected, in range (R211). -/
theorem chord_coordinates (l x1 y1 x2 : Nat) :
    ∃ x3 y3 : Nat, chord l x1 y1 x2 = .aff x3 y3 ∧ x3 < primeP ∧ y3 < primeP ∧
      (x3 : Int) ≡ (l : Int) ^ 2 - x1 - x2 [ZMOD primeP] ∧
      (y3 : Int) ≡ (l : Int) * ((x1 : Int) - x3) - y1 [ZMOD primeP] := by
  refine ⟨_, _, rfl, subMod_lt _ _ primeP_pos, subMod_lt _ _ primeP_pos, ?_, ?_⟩
  · rw [pow_two, sub_sub]
    exact_mod_cast subMod_modEq (l * l) (x1 + x2)
  · refine (subMod_modEq _ _).trans (Int.ModEq.sub_right _ ?_)
    rw [Nat.cast_mul]
    exact (subMod_modEq _ _).mul_left _

/-- Two points of one abscissa are equal or opposite, since their ordinates have one square. -/
theorem ordinate_eq_or_opposite {x y1 y2 : Nat} (h1 : y1 < primeP) (h2 : y2 < primeP)
    (hc1 : onCurve x y1 = true) (hc2 : onCurve x y2 = true) :
    y1 = y2 ∨ (y1 + y2) % primeP = 0 := by
  have : Fact primeP.Prime := ⟨prime_p⟩
  have hsq : (y1 : ZMod primeP) ^ 2 = (y2 : ZMod primeP) ^ 2 :=
    ((onCurve_iff x y1).1 hc1).trans ((onCurve_iff x y2).1 hc2).symm
  rcases sq_eq_sq_iff_eq_or_eq_neg.1 hsq with heq | hneg
  · exact .inl ((cast_inj h1 h2).1 heq)
  · refine .inr (cast_eq_zero.1 ?_)
    rw [Nat.cast_add, hneg, neg_add_cancel]

/-! ### The laws of a commutative group (R211, R233) -/

section laws

variable {a b c : Point} (ha : a.valid = true)
include ha

theorem Point.add_comm_of_valid (hb : b.valid = true) : a.add b = b.add a := by
  have : Fact primeP.Prime := ⟨prime_p⟩
  obtain ⟨P, hP⟩ := a.valid_iff.1 ha
  obtain ⟨Q, hQ⟩ := b.valid_iff.1 hb
  exact (hP.add hQ).inj (add_comm Q P ▸ hQ.add hP)

theorem Point.add_assoc_of_valid (hb : b.valid = true) (hc : c.valid = true) :
    (a.add b).add c = a.add (b.add c) := by
  have : Fact primeP.Prime := ⟨prime_p⟩
  obtain ⟨P, hP⟩ := a.valid_iff.1 ha
  obtain ⟨Q, hQ⟩ := b.valid_iff.1 hb
  obtain ⟨R, hR⟩ := c.valid_iff.1 hc
  exact ((hP.add hQ).add hR).inj (add_assoc P Q R ▸ hP.add (hQ.add hR))

theorem Point.add_neg_self : a.add a.neg = .inf := by
  have : Fact primeP.Prime := ⟨prime_p⟩
  obtain ⟨P, hP⟩ := a.valid_iff.1 ha
  exact (hP.add hP.neg).inj (add_neg_cancel P ▸ Point.denotes_inf)

end laws

/-! ### No coordinate is 0 (R211, R219) -/

theorem primeP_odd : primeP % 2 = 1 := by decide

/-- 7 is no square mod p: its principal candidate does not square back to it. -/
theorem onCurve_zero_abscissa (y : Nat) : onCurve 0 y = false :=
  no_point_of_not_root (by decide +kernel) y

/-- -7 is no cube mod p: its power (p - 1) / 3 is not 1, as a cube's would be by Fermat. -/
theorem onCurve_zero_ordinate (x : Nat) : onCurve x 0 = false := by
  by_contra hon
  have hzero : 0 % primeP = (x * x * x + 7) % primeP := by simpa [onCurve, curveRhs] using hon
  have hcube : x ^ 3 ≡ primeP - 7 [MOD primeP] := by
    refine Nat.ModEq.add_right_cancel' 7 ?_
    rw [pow_three', Nat.sub_add_cancel (by decide)]
    exact hzero.symm.trans (Nat.mod_self _).symm
  have hx : x % primeP ≠ 0 := fun h0 => by
    have hx0 : x ≡ 0 [MOD primeP] := h0.trans (Nat.zero_mod primeP).symm
    exact absurd (hcube.symm.trans (hx0.pow 3)) (by decide)
  have hone : (primeP - 7) ^ ((primeP - 1) / 3) % primeP = 1 := by
    rw [← hcube.pow ((primeP - 1) / 3), ← pow_mul,
      show 3 * ((primeP - 1) / 3) = primeP - 1 by decide, pow_p_sub_one hx]
  rw [← powMod_eq (by decide) (by decide)] at hone
  exact absurd hone (by decide +kernel)

theorem negMod_ne_self {y : Nat} (h0 : y ≠ 0) (hlt : y < primeP) : negMod primeP y ≠ y := by
  have hodd := primeP_odd
  rw [negMod_of_pos (Nat.pos_of_ne_zero h0) hlt]
  omega

end Sys2Proof.Machine

open Sys2Proof.Machine

/-- Settles O22: the branches of `Point.add` are the cases of R211, and on the curve two points of
one abscissa that are not opposite are equal. -/
theorem additionIsChordAndTangent : Obligations.AdditionIsChordAndTangent := by
  unfold Obligations.AdditionIsChordAndTangent
  refine ⟨fun a => ⟨a.inf_add, a.add_inf⟩, ?_⟩
  rintro x1 y1 x2 y2 ⟨hx1, hy1, hon1⟩ ⟨hx2, hy2, hon2⟩
  refine ⟨fun ⟨hx, hy⟩ => hx ▸ Point.add_of_opposite hy, fun hnot => ?_⟩
  by_cases hx : x1 = x2
  · subst hx
    have hopp : (y1 + y2) % primeP ≠ 0 := fun hy => hnot ⟨rfl, hy⟩
    obtain rfl := (ordinate_eq_or_opposite hy1 hy2 hon1 hon2).resolve_right hopp
    obtain ⟨x3, y3, hsum, hx3, hy3, hcx, hcy⟩ :=
      chord_coordinates (tangentSlope x1 y1) x1 y1 x1
    exact ⟨_, x3, y3, (Point.add_of_not_opposite hopp).trans hsum, hx3, hy3,
      fun _ => ⟨rfl, tangentSlope_mul (two_mul y1 ▸ hopp)⟩, fun h => absurd rfl h, hcx, hcy⟩
  · obtain ⟨x3, y3, hsum, hx3, hy3, hcx, hcy⟩ :=
      chord_coordinates (chordSlope x1 y1 x2 y2) x1 y1 x2
    exact ⟨_, x3, y3, (Point.add_of_ne hx).trans hsum, hx3, hy3,
      fun h => absurd h hx, fun _ => chordSlope_mul hx1 hx2 hx, hcx, hcy⟩

/-- Settles O23: the points denote the points of Mathlib's curve, a commutative group; and neither 7
is a square nor -7 a cube mod p. -/
theorem pointsFormAGroup : Obligations.PointsFormAGroup := by
  unfold Obligations.PointsFormAGroup
  refine ⟨fun a b c ha hb hc => ⟨Point.valid_add ha hb, Point.valid_neg ha,
    Point.add_comm_of_valid ha hb, Point.add_neg_self ha, Point.add_assoc_of_valid ha hb hc⟩, ?_⟩
  rintro x y ⟨-, hy, hon⟩
  have hx0 : x ≠ 0 := by
    rintro rfl
    simp [onCurve_zero_abscissa] at hon
  have hy0 : y ≠ 0 := by
    rintro rfl
    simp [onCurve_zero_ordinate] at hon
  exact ⟨hx0, hy0, fun h => negMod_ne_self hy0 hy (Point.aff.inj h).2⟩
end

section
/-! PROOFS. The Point family: decompression for any square root of R171, and what each command
leaves in its destination or in T (R212 to R231). -/

namespace Sys2Proof.Machine

/-! ### Decompression (R226) -/

theorem curveRhs_lt (x : Nat) : curveRhs x < primeP := Nat.mod_lt _ primeP_pos

theorem onCurve_eq_true {x y : Nat} : onCurve x y = true ↔ y * y % primeP = curveRhs x := beq_iff_eq

/-- The opposite of a residue that is not 0 has the other parity, since p is odd (R169). -/
theorem parity_negMod {y : Nat} (h0 : y ≠ 0) (hlt : y < primeP) :
    parity (negMod primeP y) = !parity y := by
  have hodd := primeP_odd
  rw [negMod_of_pos (Nat.pos_of_ne_zero h0) hlt, parity, parity]
  rcases Nat.mod_two_eq_zero_or_one y with h | h
  · simp [h, show (primeP - y) % 2 = 1 by omega]
  · simp [h, show (primeP - y) % 2 = 0 by omega]

theorem negMod_negMod {y : Nat} (hlt : y < primeP) : negMod primeP (negMod primeP y) = y := by
  rcases Nat.eq_zero_or_pos y with rfl | hpos
  · decide
  · rw [negMod_of_pos hpos hlt, negMod_of_pos (by omega) (by omega)]
    omega

theorem eq_negMod_of_add_mod {c y : Nat} (hc : c < primeP) (hy : y < primeP)
    (h : (c + y) % primeP = 0) : c = negMod primeP y := by
  have : Fact primeP.Prime := ⟨prime_p⟩
  refine (cast_inj hc (negMod_lt y primeP_pos)).1 ?_
  rw [cast_negMod hy, eq_neg_iff_add_eq_zero, ← Nat.cast_add, cast_eq_zero]
  exact h

/-- Of two roots of one square, the one that the parity picks is the root of that parity. -/
theorem root_of_parity {c y : Nat} (hc : c < primeP) (hy : y < primeP) (h0 : y ≠ 0)
    (h : c = y ∨ (c + y) % primeP = 0) :
    (if parity c = parity y then c else negMod primeP c) = y := by
  rcases h with rfl | hopp
  · exact if_pos rfl
  · obtain rfl := eq_negMod_of_add_mod hc hy hopp
    rw [if_neg (by simp [parity_negMod h0 hy]), negMod_negMod hy]

/-- Any square root of R171 leads to the curve point of the parity asked for: its root is the
ordinate or its opposite, and no ordinate is 0. -/
theorem decompressWith_of_point {sqrt : Nat → Nat} (hs : SqrtContract sqrt) {x y : Nat}
    (hy : y < primeP) (hon : onCurve x y = true) :
    decompressWith sqrt x (parity y) = some (.aff x y) := by
  have hc : sqrt (curveRhs x) < primeP := hs.range _ (curveRhs_lt x)
  have hroot : sqrt (curveRhs x) * sqrt (curveRhs x) % primeP = curveRhs x :=
    hs.root _ y (curveRhs_lt x) (onCurve_eq_true.1 hon)
  have h0 : y ≠ 0 := by
    rintro rfl
    simp [onCurve_zero_ordinate] at hon
  simp only [decompressWith, if_pos hroot]
  rw [root_of_parity hc hy h0 (ordinate_eq_or_opposite hc hy (onCurve_eq_true.2 hroot) hon)]

/-- With no point of the abscissa, no candidate squares back. -/
theorem decompressWith_of_no_point {x : Nat} (h : ∀ y, onCurve x y = false) (sqrt : Nat → Nat)
    (odd : Bool) : decompressWith sqrt x odd = none :=
  if_neg (mt onCurve_eq_true.2 (by simp [h]))

/-- An abscissa has no point, or one of each parity. -/
theorem no_point_or_of_parity (x : Nat) (odd : Bool) :
    (∀ y, onCurve x y = false) ∨ ∃ y, y < primeP ∧ onCurve x y = true ∧ parity y = odd := by
  by_cases hroot : principalRoot (curveRhs x) * principalRoot (curveRhs x) % primeP = curveRhs x
  · have hc : principalRoot (curveRhs x) < primeP := principalRoot_lt _
    by_cases hpar : parity (principalRoot (curveRhs x)) = odd
    · exact .inr ⟨_, hc, onCurve_eq_true.2 hroot, hpar⟩
    · have h0 : principalRoot (curveRhs x) ≠ 0 := fun h0 => by
        have hon := onCurve_eq_true.2 hroot
        simp [h0, onCurve_zero_ordinate] at hon
      refine .inr ⟨_, negMod_lt _ primeP_pos,
        onCurve_eq_true.2 ((negMod_mul_self hc).trans hroot), ?_⟩
      rw [parity_negMod h0 hc, ← Bool.eq_not_of_ne (Ne.symm hpar)]
  · exact .inl (no_point_of_not_root hroot)

/-! ### How a Point command ends (R300, R301) -/

section forms

variable {s : State} {x : Result} {rd : RegIdx} {v : Content Point}

/-- A command that sets a point register and ends in `ok` (R300). -/
theorem completes_setP (h : x = .next (s.setP rd v).finishOk) :
    ∃ t, x = .next t ∧ OkAfter s t ∧ t.getP rd = v :=
  ⟨_, h, .of_update rfl rfl, State.getP_setP_self s rd v⟩

/-- A command that sets a point register and ends in `fail` (R301). -/
theorem fails_setP {e : ErrCode} (h : x = .next ((s.setP rd v).failWith e)) :
    ∃ t, x = .next t ∧ FailAfter s e t ∧ t.getP rd = v :=
  ⟨_, h, ⟨rfl, rfl, rfl, rfl, rfl, rfl⟩, State.getP_setP_self s rd v⟩

end forms

/-! ### Commands on point registers (R212 to R223, R231) -/

section registers

variable {s : State} {rs rs1 rs2 : RegIdx} {a b : Point}

section binary

variable (ha : s.getP rs1 = .val a) (hb : s.getP rs2 = .val b)
include ha hb

theorem exec_padd (rd : RegIdx) :
    exec (.padd rd rs1 rs2) s = .next (s.setP rd (.val (a.add b))).finishOk :=
  (withP_val ha).trans (withP_val hb)

theorem exec_peq : exec (.peq rs1 rs2) s = .next (s.answer (decide (a = b))) :=
  (withP_val ha).trans (withP_val hb)

end binary

section unary

variable (ha : s.getP rs = .val a)
include ha

theorem exec_pdbl (rd : RegIdx) :
    exec (.pdbl rd rs) s = .next (s.setP rd (.val (a.add a))).finishOk :=
  withP_val ha

theorem exec_pneg (rd : RegIdx) :
    exec (.pneg rd rs) s = .next (s.setP rd (.val a.neg)).finishOk :=
  withP_val ha

theorem exec_pisinf : exec (.pisinf rs) s = .next (s.answer (decide (a = .inf))) :=
  withP_val ha

end unary

section affine

variable {rdx rdy : RegIdx}

theorem exec_paff_aff {x y : Nat} (h : rdx ≠ rdy) (hs : s.getP rs = .val (.aff x y)) :
    exec (.paff rdx rdy rs) s =
      .next ((s.setF rdx (.val ⟨x, 1, .reduced⟩)).setF rdy (.val ⟨y, 1, .reduced⟩)).finishOk := by
  simp [exec, execPaff, h, withP_val hs]

theorem exec_paff_inf (h : rdx ≠ rdy) (hs : s.getP rs = .val .inf) :
    exec (.paff rdx rdy rs) s =
      .next (((s.setF rdx .bot).setF rdy .bot).failWith .invalidPoint) := by
  simp [exec, execPaff, h, withP_val hs]

theorem exec_paff_same (r : RegIdx) : exec (.paff r r rs) s = .next s.illegal := by
  simp [exec, execPaff]

end affine

end registers

/-- What two field registers read as after both were set, the first by another index. -/
theorem getF_setF_pair (s : State) {r r' : RegIdx} (h : r ≠ r') (v v' : Content FieldReg) :
    ((s.setF r v).setF r' v').getF r = v ∧ ((s.setF r v).setF r' v').getF r' = v' :=
  ⟨(State.getF_setF_other _ _ h).trans (State.getF_setF_self s r v), State.getF_setF_self _ _ _⟩

/-! ### PDECOMP (R225) -/

section decompression

variable {s : State} {rs : RegIdx} {a : FieldReg} (hs : s.getF rs = .val a)
include hs

theorem exec_pdecomp_some {odd : Bool} {p : Point} (rd : RegIdx) (hn : a.norm = .reduced)
    (hd : decompress a.val odd = some p) :
    exec (.pdecomp rd rs odd) s = .next (s.setP rd (.val p)).finishOk := by
  simp [exec, execPdecomp, withF_val hs, require_true hn, hd]

theorem exec_pdecomp_none {odd : Bool} (rd : RegIdx) (hn : a.norm = .reduced)
    (hd : decompress a.val odd = none) :
    exec (.pdecomp rd rs odd) s = .next ((s.setP rd .bot).failWith .invalidPoint) := by
  simp [exec, execPdecomp, withF_val hs, require_true hn, hd]

theorem exec_pdecomp_loose (rd : RegIdx) (odd : Bool) (hn : a.norm = .loose) :
    exec (.pdecomp rd rs odd) s = .fault .notNormalized :=
  (withF_val hs).trans (require_false (Norm.ne_reduced hn))

end decompression

/-! ### PLOAD (R228, R229) -/

theorem valid_aff_iff {x y : Nat} : (Point.aff x y).valid = true ↔ IsCurvePoint x y := by
  simp [Point.valid, IsCurvePoint, and_assoc]

/-- Two adjacent regions read as the one they make up (R75). -/
theorem readBytes_add {m : List Host.Cell} {a n k : Nat} {bs cs : List Byte}
    (hb : readBytes m a n = .val bs) (hc : readBytes m (a + n) k = .val cs) :
    readBytes m a (n + k) = .val (bs ++ cs) := by
  obtain ⟨rfl, hbs⟩ := readBytes_val.1 hb
  obtain ⟨rfl, hcs⟩ := readBytes_val.1 hc
  refine readBytes_val.2 ⟨List.length_append, fun i hi => ?_⟩
  rw [List.length_append] at hi
  rcases Nat.lt_or_ge i bs.length with hlt | hge
  · rw [List.getElem_append_left hlt]
    exact hbs i hlt
  · rw [List.getElem_append_right hge, ← hcs (i - bs.length) (by omega)]
    congr 1
    omega

/-- A raw key is the point of its two coordinates, if that is a point of the curve. -/
theorem rawPoint_append {xb yb : List Byte} (hx : xb.length = 32) :
    rawPoint (xb ++ yb) =
      if (Point.aff (be2int xb) (be2int yb)).valid then some (.aff (be2int xb) (be2int yb))
      else none := by
  simp [rawPoint, ← hx]

section load

variable {s : State} {off : Byte} {xb yb : List Byte} (hoff : off.toNat + 64 ≤ 256)
  (hx : readBytes s.mem off.toNat 32 = .val xb)
  (hy : readBytes s.mem (off.toNat + 32) 32 = .val yb)
include hoff hx hy

theorem exec_pload_inside (rd : RegIdx) (h : IsCurvePoint (be2int xb) (be2int yb)) :
    exec (.pload rd off) s =
      .next (s.setP rd (.val (.aff (be2int xb) (be2int yb)))).finishOk := by
  simp [exec, execPload, fits_eq_true hoff, withBytes_val (readBytes_add hx hy),
    rawPoint_append (readBytes_val.1 hx).1, valid_aff_iff.2 h]

theorem exec_pload_outside (rd : RegIdx) (h : ¬ IsCurvePoint (be2int xb) (be2int yb)) :
    exec (.pload rd off) s = .next ((s.setP rd .bot).failWith .invalidPoint) := by
  simp [exec, execPload, fits_eq_true hoff, withBytes_val (readBytes_add hx hy),
    rawPoint_append (readBytes_val.1 hx).1, mt valid_aff_iff.1 h]

end load

end Sys2Proof.Machine

open Sys2Proof Sys2Proof.Machine

/-- Settles O26: two square roots of R171 lead to the same point of the parity asked for, or the
abscissa has no point for either. -/
theorem decompressionIgnoresRootChoice : Obligations.DecompressionIgnoresRootChoice := by
  unfold Obligations.DecompressionIgnoresRootChoice
  intro sqrt hs x odd _
  rcases no_point_or_of_parity x odd with hnone | ⟨y, hy, hon, rfl⟩
  · rw [decompress, decompressWith_of_no_point hnone, decompressWith_of_no_point hnone]
  · rw [decompress, decompressWith_of_point hs hy hon,
      decompressWith_of_point sqrtContract_principalRoot hy hon]

/-- Settles O25: the principal root keeps R171's contract, so decompression finds the point of the
parity asked for. -/
theorem pointDecompression : Obligations.PointDecompression := by
  unfold Obligations.PointDecompression
  intro s rd rs odd a hs
  refine ⟨fun hn _ => ⟨fun y hy hon hpar => ?_, fun hnone => ?_⟩, exec_pdecomp_loose hs rd odd⟩
  · have hpoint := decompressWith_of_point sqrtContract_principalRoot hy hon
    exact completes_setP (exec_pdecomp_some hs rd hn (hpar ▸ hpoint))
  · exact fails_setP (exec_pdecomp_none hs rd hn (decompressWith_of_no_point hnone _ odd))

/-- Settles O21: each command sets its destination to the value of its operation on the sources. -/
theorem pointGroupCommands : Obligations.PointGroupCommands := by
  unfold Obligations.PointGroupCommands
  intro s rd rs1 rs2 a b ha hb
  exact ⟨completes_setP (exec_pdbl ha rd), completes_setP (exec_padd ha hb rd),
    completes_setP (exec_pneg ha rd)⟩

/-- Settles O24: each predicate answers its test of the contents. -/
theorem pointPredicates : Obligations.PointPredicates := by
  unfold Obligations.PointPredicates
  intro s rs1 rs2 a b ha hb
  exact ⟨completes_answer (exec_peq ha hb), completes_answer (exec_pisinf ha)⟩

/-- Settles O27: the 64 bytes are the two coordinates, and `rawPoint` checks them as R229 does. -/
theorem pointLoad : Obligations.PointLoad := by
  unfold Obligations.PointLoad
  intro s rd off xb yb hoff hx hy
  exact ⟨fun h => completes_setP (exec_pload_inside hoff hx hy rd h),
    fun h => fails_setP (exec_pload_outside hoff hx hy rd h)⟩

/-- Settles O28: distinct destinations take both coordinates, or ⊥ for O; equal ones are illegal. -/
theorem pointToAffine : Obligations.PointToAffine := by
  unfold Obligations.PointToAffine
  intro s rdx rdy rs
  refine ⟨fun hne => ⟨fun x y hs => ?_, fun hs => ?_⟩, ?_⟩
  · exact ⟨_, exec_paff_aff hne hs, .of_update rfl rfl, getF_setF_pair s hne _ _⟩
  · exact ⟨_, exec_paff_inf hne hs, ⟨rfl, rfl, rfl, rfl, rfl, rfl⟩, getF_setF_pair s hne _ _⟩
  · rintro rfl
    exact exec_paff_same rdx
end

section
/-! PROOFS. The PointMul family: a window loop over a table of multiples leaves the multiple of its
scalar, by Horner's rule in base 16 (R240 to R254). -/

namespace Sys2Proof.Machine

/-! ### Windows (R16, R240) -/

/-- The value of the first n of the 64 windows of k. -/
def topWindows (k n : Nat) : Nat := k / 2 ^ (4 * (64 - n))

theorem topWindows_zero {k : Nat} (h : k < 2 ^ 256) : topWindows k 0 = 0 := Nat.div_eq_of_lt h

theorem topWindows_all (k : Nat) : topWindows k 64 = k := Nat.div_one k

/-- The next window is the next digit in base 16. -/
theorem topWindows_succ {n : Nat} (h : n < 64) (k : Nat) :
    topWindows k (n + 1) = 16 * topWindows k n + window k n := by
  have hexp : 2 ^ (4 * (64 - n)) = 2 ^ (4 * (63 - n)) * 16 := by
    rw [show 4 * (64 - n) = 4 * (63 - n) + 4 by omega, pow_add]
    rfl
  have hleft : 64 - (n + 1) = 63 - n := by omega
  rw [topWindows, topWindows, window, hexp, ← Nat.div_div_eq_div_mul, hleft]
  exact (Nat.div_add_mod _ 16).symm

/-- A loop over 0, 1, ..., N - 1 whose turns lead from each g n to g (n + 1) ends at g N. -/
theorem foldl_range_eq {f : Point → Nat → Point} {g : Nat → Point} {N : Nat}
    (h : ∀ n < N, f (g n) n = g (n + 1)) : (List.range N).foldl f (g 0) = g N := by
  induction N with
  | zero => rfl
  | succ N ih =>
    rw [List.range_succ, List.foldl_append, ih fun n hn => h n (by omega)]
    exact h N N.lt_succ_self

/-! ### The main loops (R244) -/

/-- Four doublings denote the sixteenfold. -/
theorem Point.Denotes.dbl4 [Fact primeP.Prime] {a : Point} {P : curve.Point} (h : a.Denotes P) :
    (dbl4 a).Denotes (16 • P) := by
  have h2 : ∀ {b : Point} {Q : curve.Point}, b.Denotes Q → b.dbl.Denotes (2 • Q) :=
    fun hb => two_nsmul (_ : curve.Point) ▸ hb.add hb
  have h16 := h2 (h2 (h2 (h2 h)))
  rwa [← mul_nsmul, ← mul_nsmul, ← mul_nsmul] at h16

section loops

variable {tab tab1 tab2 : List Point} {a a1 a2 : Point} {k k1 k2 : Nat}

/-- A turn of the loop appends a window to the scalar reached (R244). -/
theorem dbl4_smul_add (ha : a.valid = true) (m w : Nat) :
    (dbl4 (a.smul m)).add (a.smul w) = a.smul (16 * m + w) := by
  have : Fact primeP.Prime := ⟨prime_p⟩
  obtain ⟨P, hP⟩ := a.valid_iff.1 ha
  refine ((hP.smul m).dbl4.add (hP.smul w)).inj ?_
  rw [← mul_nsmul', ← add_nsmul]
  exact hP.smul _

/-- A turn of the interleaved loop appends a window to both scalars (R244). -/
theorem dbl4_add_smul_add (h1 : a1.valid = true) (h2 : a2.valid = true) (m1 m2 w1 w2 : Nat) :
    ((dbl4 ((a1.smul m1).add (a2.smul m2))).add (a1.smul w1)).add (a2.smul w2) =
      (a1.smul (16 * m1 + w1)).add (a2.smul (16 * m2 + w2)) := by
  have : Fact primeP.Prime := ⟨prime_p⟩
  obtain ⟨P, hP⟩ := a1.valid_iff.1 h1
  obtain ⟨Q, hQ⟩ := a2.valid_iff.1 h2
  refine ((((hP.smul m1).add (hQ.smul m2)).dbl4.add (hP.smul w1)).add (hQ.smul w2)).inj ?_
  have hsum : 16 • (m1 • P + m2 • Q) + w1 • P + w2 • Q =
      (16 * m1 + w1) • P + (16 * m2 + w2) • Q := by
    module
  rw [hsum]
  exact (hP.smul _).add (hQ.smul _)

/-- One scalar over a table of multiples (R244). -/
theorem mulWindows_eq {lookup : List Point → Nat → Point} (ha : a.valid = true)
    (hl : ∀ w < 16, lookup tab w = a.smul w) (hk : k < 2 ^ 256) :
    mulWindows lookup tab k = a.smul k := by
  have hloop := foldl_range_eq (N := 64) (g := fun n => a.smul (topWindows k n))
    (f := fun acc i => (dbl4 acc).add (lookup tab (window k i))) fun n hn => by
      rw [hl _ (window_lt k n), dbl4_smul_add ha, topWindows_succ hn]
  rwa [topWindows_zero hk, topWindows_all] at hloop

/-- Two scalars over two tables of multiples (R244). -/
theorem mulWindows2_eq (h1 : a1.valid = true) (h2 : a2.valid = true)
    (hl1 : ∀ w < 16, indexEntry tab1 w = a1.smul w) (hl2 : ∀ w < 16, indexEntry tab2 w = a2.smul w)
    (hk1 : k1 < 2 ^ 256) (hk2 : k2 < 2 ^ 256) :
    mulWindows2 tab1 tab2 k1 k2 = (a1.smul k1).add (a2.smul k2) := by
  have hloop := foldl_range_eq (N := 64)
    (g := fun n => (a1.smul (topWindows k1 n)).add (a2.smul (topWindows k2 n)))
    (f := fun acc i => ((dbl4 acc).add (indexEntry tab1 (window k1 i))).add
      (indexEntry tab2 (window k2 i))) fun n hn => by
      rw [hl1 _ (window_lt k1 n), hl2 _ (window_lt k2 n), dbl4_add_smul_add h1 h2,
        topWindows_succ hn, topWindows_succ hn]
  rwa [topWindows_zero hk1, topWindows_zero hk2, topWindows_all, topWindows_all] at hloop

end loops

/-! ### Lookups in a built table (R241, R243) -/

section multiplications

variable {a a1 a2 : Point} {k k1 k2 w : Nat}

theorem indexEntry_buildTable (ha : a.valid = true) (hw : w < 16) :
    indexEntry (buildTable a) w = a.smul w := by
  rw [buildTable_eq ha]
  exact getD_multiples a hw

theorem selectEntry_buildTable (ha : a.valid = true) (hw : w < 16) :
    selectEntry (buildTable a) w = a.smul w := by
  have hentry : ((buildTable a).getD w .inf).InRange :=
    closedPoints_inRange.getD (closedPoints_inRange.buildTable (Point.inRange_of_valid ha)) w
  rw [selectEntry_eq_indexEntry hw hentry, indexEntry_buildTable ha hw]

/-! ### The four multiplications (R242, R245, R248, R251) -/

theorem pointMul_eq (ha : a.valid = true) (hk : k < 2 ^ 256) : pointMul k a = a.smul k :=
  mulWindows_eq ha (fun _ => selectEntry_buildTable ha) hk

theorem pointMulG_eq (hk : k < 2 ^ 256) : pointMulG k = genG.smul k := by
  rw [pointMulG, gTable_eq_buildTable]
  exact pointMul_eq genG_valid hk

theorem pointMul2_eq (h1 : a1.valid = true) (h2 : a2.valid = true) (hk1 : k1 < 2 ^ 256)
    (hk2 : k2 < 2 ^ 256) : pointMul2 k1 a1 k2 a2 = (a1.smul k1).add (a2.smul k2) :=
  mulWindows2_eq h1 h2 (fun _ => indexEntry_buildTable h1) (fun _ => indexEntry_buildTable h2)
    hk1 hk2

theorem pointMulG2_eq (h2 : a2.valid = true) (hk1 : k1 < 2 ^ 256) (hk2 : k2 < 2 ^ 256) :
    pointMulG2 k1 k2 a2 = (genG.smul k1).add (a2.smul k2) := by
  rw [pointMulG2, gTable_eq_buildTable]
  exact pointMul2_eq genG_valid h2 hk1 hk2

end multiplications

theorem lt_two_pow_256_of_lt_orderQ {k : Nat} (h : k < orderQ) : k < 2 ^ 256 :=
  h.trans (orderQ_lt.trans primeP_lt)

/-! ### The order of G (R9, R11) -/

/-- Where n*A = O, multiples of A depend on the scalar mod n alone. -/
theorem smul_mod_of_smul_eq_inf {a : Point} {n : Nat} (ha : a.valid = true)
    (hn : a.smul n = .inf) (k : Nat) : a.smul (k % n) = a.smul k := by
  have : Fact primeP.Prime := ⟨prime_p⟩
  obtain ⟨P, hP⟩ := a.valid_iff.1 ha
  have hzero : n • P = 0 := (hP.smul n).unique (hn ▸ Point.denotes_inf)
  refine (hP.smul _).inj ?_
  rw [← nsmul_eq_mod_nsmul k hzero]
  exact hP.smul k

/-- q*G = O, evaluated by the window loop. -/
theorem smul_orderQ_genG : genG.smul orderQ = .inf := by
  rw [← pointMulG_eq (by decide)]
  decide +kernel

/-! ### The commands -/

section commands

variable {s : State} {q1 q2 p1 p2 : RegIdx} {k1 k2 : Nat} {a1 a2 : Point}

theorem exec_pmulg (rd : RegIdx) (hk : s.getQ q1 = .val k1) :
    exec (.pmulg rd q1) s = .next (s.setP rd (.val (pointMulG k1))).finishOk :=
  withQ_val hk

theorem exec_pmul (rd : RegIdx) (hk : s.getQ q1 = .val k1) (ha : s.getP p1 = .val a1) :
    exec (.pmul rd q1 p1) s = .next (s.setP rd (.val (pointMul k1 a1))).finishOk :=
  (withQ_val hk).trans (withP_val ha)

theorem exec_pmul2v (rd : RegIdx) (hk1 : s.getQ q1 = .val k1) (ha1 : s.getP p1 = .val a1)
    (hk2 : s.getQ q2 = .val k2) (ha2 : s.getP p2 = .val a2) :
    exec (.pmul2v rd q1 p1 q2 p2) s =
      .next (s.setP rd (.val (pointMul2 k1 a1 k2 a2))).finishOk :=
  (withQ_val hk1).trans ((withP_val ha1).trans ((withQ_val hk2).trans (withP_val ha2)))

theorem exec_pmulg2v (rd : RegIdx) (hk1 : s.getQ q1 = .val k1) (hk2 : s.getQ q2 = .val k2)
    (ha2 : s.getP p2 = .val a2) :
    exec (.pmulg2v rd q1 q2 p2) s = .next (s.setP rd (.val (pointMulG2 k1 k2 a2))).finishOk :=
  (withQ_val hk1).trans ((withQ_val hk2).trans (withP_val ha2))

end commands

end Sys2Proof.Machine

open Sys2Proof Sys2Proof.Machine

/-- Settles O30: the loops are Horner's rule in base 16 over tables of multiples. -/
theorem pointMulIsScalarMultiplication : Obligations.PointMulIsScalarMultiplication := by
  unfold Obligations.PointMulIsScalarMultiplication
  refine ⟨fun s rd qs k hs hk => ?_, fun s rd qs ps k a hs hp hk ha => ?_,
    fun s rd q1 p1 q2 p2 k1 k2 a1 a2 hs1 hp1 hs2 hp2 hk1 hk2 h1 h2 => ?_,
    fun s rd q1 q2 p2 k1 k2 a2 hs1 hs2 hp2 hk1 hk2 h2 => ?_⟩
  · rw [← pointMulG_eq (lt_two_pow_256_of_lt_orderQ hk)]
    exact completes_setP (exec_pmulg rd hs)
  · rw [← pointMul_eq ha (lt_two_pow_256_of_lt_orderQ hk)]
    exact completes_setP (exec_pmul rd hs hp)
  · rw [← pointMul2_eq h1 h2 (lt_two_pow_256_of_lt_orderQ hk1) (lt_two_pow_256_of_lt_orderQ hk2)]
    exact completes_setP (exec_pmul2v rd hs1 hp1 hs2 hp2)
  · rw [← pointMulG2_eq h2 (lt_two_pow_256_of_lt_orderQ hk1) (lt_two_pow_256_of_lt_orderQ hk2)]
    exact completes_setP (exec_pmulg2v rd hs1 hs2 hp2)

/-- Settles O33: multiples add, and q*G = O. -/
theorem scalarMultiplicationIsLinear : Obligations.ScalarMultiplicationIsLinear := by
  unfold Obligations.ScalarMultiplicationIsLinear
  refine ⟨fun a k l ha hkl => ?_, fun k l hk hl => ?_⟩
  · have hsum : k + l < 2 ^ 256 := lt_two_pow_256_of_lt_orderQ hkl
    rw [pointMul_eq ha hsum, pointMul_eq ha (show k < 2 ^ 256 by omega),
      pointMul_eq ha (show l < 2 ^ 256 by omega), smul_add ha]
  · have hmod : (k + l) % orderQ < 2 ^ 256 :=
      lt_two_pow_256_of_lt_orderQ (Nat.mod_lt _ orderQ_pos)
    rw [pointMulG_eq hmod, pointMulG_eq (lt_two_pow_256_of_lt_orderQ hk),
      pointMulG_eq (lt_two_pow_256_of_lt_orderQ hl),
      smul_mod_of_smul_eq_inf genG_valid smul_orderQ_genG, smul_add genG_valid]
end

section
/-! PROOFS. The PointMul family: the masked scan and the results of the window loops (R240, R241,
R244). -/

open Sys2Proof Sys2Proof.Machine

/-- Settles O31: the scan takes the limbs of entry w alone, and entry w is in range. -/
theorem maskedScanIsIndex : Obligations.MaskedScanIsIndex := by
  unfold Obligations.MaskedScanIsIndex
  intro tab w hw htab
  exact selectEntry_eq_indexEntry hw (htab w)

/-- Settles O29: each command sets rd to its multiplication, which is by definition its window loop
over the tables R242, R245, R248 and R251 give it. -/
theorem pointMulCompletes : Obligations.PointMulCompletes := by
  unfold Obligations.PointMulCompletes
  refine ⟨fun s rd qs k hk => ?pmulg, fun s rd qs ps k a hk ha => ?pmul,
    fun s rd q1 p1 q2 p2 k1 k2 a1 a2 hk1 ha1 hk2 ha2 => ?pmul2v,
    fun s rd q1 q2 p2 k1 k2 a2 hk1 hk2 ha2 => ?pmulg2v⟩
  case pmulg => exact completes_setP (exec_pmulg rd hk)
  case pmul => exact completes_setP (exec_pmul rd hk ha)
  case pmul2v => exact completes_setP (exec_pmul2v rd hk1 ha1 hk2 ha2)
  case pmulg2v => exact completes_setP (exec_pmulg2v rd hk1 hk2 ha2)
end

section
/-! PROOFS. The Ecdsa family: how a command on BUF ends, and the public-key formats (R260, R277 to
R286). -/

namespace Sys2Proof.Machine

/-! ### Byte strings and their values (R17, R72) -/

theorem be2int_concat (bs : List Byte) (b : Byte) :
    be2int (bs ++ [b]) = be2int bs * 256 + b.toNat := by simp [be2int]

/-- The last byte of a string is the low digit of its value. -/
theorem int2be_concat (v n : Nat) :
    int2be v (n + 1) = int2be (v / 256) n ++ [BitVec.ofNat 8 v] := by
  induction n with
  | zero => simp [int2be]
  | succ n ih =>
    rw [int2be, ih, int2be, List.cons_append, Nat.div_div_eq_div_mul, pow_succ']

theorem int2be_be2int (bs : List Byte) : int2be (be2int bs) bs.length = bs := by
  induction bs using List.reverseRecOn with
  | nil => rfl
  | append_singleton bs b ih =>
    have hdiv : (be2int bs * 256 + b.toNat) / 256 = be2int bs := by omega
    have hlast : BitVec.ofNat 8 (be2int bs * 256 + b.toNat) = b :=
      BitVec.eq_of_toNat_eq (by rw [BitVec.toNat_ofNat]; omega)
    rw [List.length_append, List.length_singleton, int2be_concat, be2int_concat, hdiv, hlast, ih]

/-- `int2be32` undoes `be2int` on 32 bytes (R17). -/
theorem int2be32_be2int {bs : List Byte} (h : bs.length = 32) : int2be32 (be2int bs) = bs := by
  rw [int2be32, ← h, int2be_be2int]

/-! ### How an Ecdsa command ends (R260) -/

section forms

variable {s : State} {x : Result} {a n : Nat}

/-- What the bytes of a store read as, once it has reported (R76). -/
theorem readBytes_stored_self (s : State) (a : Nat) {bs : List Byte} (hn : bs.length = n) :
    readBytes ((s.write a bs).finishOk).mem a n = .val bs :=
  hn ▸ readBytes_writeBytes s.mem a bs

/-- A command that writes its whole output region and ends in `ok`. -/
theorem completes_write {bs : List Byte} (hn : bs.length = n)
    (h : x = .next (s.write a bs).finishOk) :
    ∃ t, x = .next t ∧ OkAfter s t ∧ readBytes t.mem a n = .val bs :=
  ⟨_, h, .of_update rfl rfl, readBytes_stored_self s a hn⟩

/-- A command that fails and leaves no value in its output region. -/
theorem fails_region {e : ErrCode} (h : x = .next (s.failRegion a n e)) :
    ∃ t, x = .next t ∧ FailAfter s e t ∧ NoValueIn t a n :=
  ⟨_, h, ⟨rfl, rfl, rfl, rfl, rfl, rfl⟩, fun y hlo hhi =>
    (cellAt_poisonBytes s.mem a n y).trans (if_pos ⟨hlo, hhi⟩)⟩

end forms

/-! ### The tag of a compressed key (R277) -/

/-- The tag of an ordinate's parity. -/
def parityTag (y : Nat) : Byte := if y % 2 = 0 then 0x02#8 else 0x03#8

theorem parityTag_cases (y : Nat) : parityTag y = 0x02#8 ∨ parityTag y = 0x03#8 :=
  ite_eq_or_eq _ _ _

/-- The tag says whether decompression is asked for the odd ordinate. -/
theorem parityTag_beq_three (y : Nat) : (parityTag y == 0x03#8) = parity y := by
  rcases Nat.mod_two_eq_zero_or_one y with h | h <;> simp [parityTag, parity, h]

theorem parityTag_eq {tag : Byte} {y : Nat}
    (h : (tag = 0x02#8 ∧ y % 2 = 0) ∨ (tag = 0x03#8 ∧ y % 2 = 1)) : tag = parityTag y := by
  rcases h with ⟨rfl, hy⟩ | ⟨rfl, hy⟩ <;> simp [parityTag, hy]

/-- The low bit of the last byte is the parity of the number (R284). -/
theorem compressBytes_append {xb yb : List Byte} (hx : xb.length = 32) (hy : yb.length = 32) :
    compressBytes (xb ++ yb) = parityTag (be2int yb) :: xb := by
  obtain ⟨ys, l, rfl⟩ : ∃ ys l, yb = ys ++ [l] :=
    (List.eq_nil_or_concat' yb).resolve_left (by rintro rfl; simp at hy)
  have hys : ys.length = 31 := by simpa using hy
  have hlast : ((xb ++ (ys ++ [l])).getD 63 0) = l := by
    simp [List.getD_eq_getElem?_getD, hx, hys]
  have hpar : (be2int ys * 256 + l.toNat) % 2 = l.toNat % 2 := by omega
  have htake : (xb ++ (ys ++ [l])).take 32 = xb := by rw [← hx, List.take_left]
  rw [compressBytes, hlast, htake, be2int_concat, parityTag, hpar]
  rcases Nat.mod_two_eq_zero_or_one l.toNat with h | h <;>
    simp [BitVec.getLsbD, Nat.testBit_zero, h]

/-! ### Decompression of a key (R282) -/

section decompression

variable {tag : Byte} {xb : List Byte}

theorem decompressBytes_bad_tag (h : tag ≠ 0x02#8 ∧ tag ≠ 0x03#8) :
    decompressBytes (tag :: xb) = .error .malformedEncoding := if_pos h

theorem decompressBytes_no_point (htag : tag = 0x02#8 ∨ tag = 0x03#8)
    (h : ¬ ∃ y, IsCurvePoint (be2int xb) y) :
    decompressBytes (tag :: xb) = .error .invalidPoint := by
  have hgood : ¬ (tag ≠ 0x02#8 ∧ tag ≠ 0x03#8) := by tauto
  simp only [decompressBytes, List.headD_cons, List.drop_one, List.tail_cons, if_neg hgood]
  by_cases hx : primeP ≤ be2int xb
  · rw [if_pos hx]
  · have hnone : ∀ y, onCurve (be2int xb) y = false :=
      (no_point_or_of_parity (be2int xb) (tag == 0x03#8)).resolve_right
        fun ⟨y, hy, hon, _⟩ => h ⟨y, not_le.1 hx, hy, hon⟩
    rw [if_neg hx, decompress, decompressWith_of_no_point hnone]

theorem decompressBytes_point {y : Nat} (hx : xb.length = 32)
    (h : IsCurvePoint (be2int xb) y) :
    decompressBytes (parityTag y :: xb) = .ok (xb ++ int2be32 y) := by
  obtain ⟨hlt, hy, hon⟩ := h
  have hgood : ¬ (parityTag y ≠ 0x02#8 ∧ parityTag y ≠ 0x03#8) := by
    have := parityTag_cases y
    tauto
  have hpoint : decompress (be2int xb) (parity y) = some (.aff (be2int xb) y) :=
    decompressWith_of_point sqrtContract_principalRoot hy hon
  simp only [decompressBytes, List.headD_cons, List.drop_one, List.tail_cons, if_neg hgood,
    if_neg hlt.not_ge, parityTag_beq_three, hpoint, int2be32_be2int hx]

end decompression

/-! ### The commands (R278, R280, R282, R284) -/

section commands

variable {s : State} {a b tag : Byte} {w cmp raw : List Byte}

section uncompressed

variable (ha : a.toNat + 65 ≤ 256) (hb : b.toNat + 64 ≤ 256)
  (hm : readBytes s.mem a.toNat 65 = .val (tag :: w))
include ha hb hm

theorem exec_pku2r_ok (h : tag = 0x04#8) :
    exec (.pku2r a b) s = .next (s.write b.toNat w).finishOk := by
  simp [exec, execPku2r, fits_eq_true ha, fits_eq_true hb, withBytes_val hm, h]

theorem exec_pku2r_bad_tag (h : tag ≠ 0x04#8) :
    exec (.pku2r a b) s = .next (s.failRegion b.toNat 64 .malformedEncoding) := by
  simp [exec, execPku2r, fits_eq_true ha, fits_eq_true hb, withBytes_val hm, h]

end uncompressed

theorem exec_pkr2u (ha : a.toNat + 64 ≤ 256) (hb : b.toNat + 65 ≤ 256)
    (hm : readBytes s.mem a.toNat 64 = .val w) :
    exec (.pkr2u a b) s = .next (s.write b.toNat (0x04#8 :: w)).finishOk := by
  simp [exec, execPkr2u, fits_eq_true ha, fits_eq_true hb, withBytes_val hm]

theorem exec_pkr2c (ha : a.toNat + 64 ≤ 256) (hb : b.toNat + 33 ≤ 256)
    (hm : readBytes s.mem a.toNat 64 = .val w) :
    exec (.pkr2c a b) s = .next (s.write b.toNat (compressBytes w)).finishOk := by
  simp [exec, execPkr2c, fits_eq_true ha, fits_eq_true hb, withBytes_val hm]

section compressed

variable (ha : a.toNat + 33 ≤ 256) (hb : b.toNat + 64 ≤ 256)
  (hm : readBytes s.mem a.toNat 33 = .val cmp)
include ha hb hm

theorem exec_pkc2r_ok (h : decompressBytes cmp = .ok raw) :
    exec (.pkc2r a b) s = .next (s.write b.toNat raw).finishOk := by
  simp [exec, execPkc2r, fits_eq_true ha, fits_eq_true hb, withBytes_val hm, h]

theorem exec_pkc2r_error {e : ErrCode} (h : decompressBytes cmp = .error e) :
    exec (.pkc2r a b) s = .next (s.failRegion b.toNat 64 e) := by
  simp [exec, execPkc2r, fits_eq_true ha, fits_eq_true hb, withBytes_val hm, h]

end compressed

end commands

theorem append_int2be32_length {bs : List Byte} (h : bs.length = 32) (v : Nat) :
    (bs ++ int2be32 v).length = 64 := by
  rw [List.length_append, h, int2be32_length]

end Sys2Proof.Machine

open Sys2Proof Sys2Proof.Machine

/-- Settles O41: PKU2R looks at the tag alone, and the tag PKR2C writes is that of the last byte's
low bit, the parity of the ordinate. -/
theorem keyFormats : Obligations.KeyFormats := by
  unfold Obligations.KeyFormats
  refine ⟨fun s a b tag w ha hb hm => ⟨fun h => ?_, fun h => ?_⟩, fun s a b w ha hb hm => ?_,
    fun s a b xb yb ha hb hx hy => ?_⟩
  · obtain ⟨hlen, -⟩ := readBytes_val.1 hm
    exact completes_write (Nat.succ.inj hlen) (exec_pku2r_ok ha hb hm h)
  · exact fails_region (exec_pku2r_bad_tag ha hb hm h)
  · obtain ⟨hlen, -⟩ := readBytes_val.1 hm
    exact completes_write (congrArg Nat.succ hlen) (exec_pkr2u ha hb hm)
  · obtain ⟨hxlen, -⟩ := readBytes_val.1 hx
    obtain ⟨hylen, -⟩ := readBytes_val.1 hy
    have hrun := exec_pkr2c ha hb (readBytes_add hx hy)
    rw [compressBytes_append hxlen hylen] at hrun
    exact completes_write (congrArg Nat.succ hxlen) hrun

/-- Settles O42: the tag, then the range, then the residue decide, and a point of the abscissa has
the ordinate of the tag's parity. -/
theorem keyDecompression : Obligations.KeyDecompression := by
  unfold Obligations.KeyDecompression
  intro s a b tag xb ha hb hm
  refine ⟨fun h => ?_, fun ⟨htag, h⟩ => ?_, fun y htag h => ?_⟩
  · exact fails_region (exec_pkc2r_error ha hb hm (decompressBytes_bad_tag h))
  · exact fails_region (exec_pkc2r_error ha hb hm (decompressBytes_no_point htag h))
  · obtain ⟨hlen, -⟩ := readBytes_val.1 hm
    have hx : xb.length = 32 := Nat.succ.inj hlen
    rw [parityTag_eq htag] at hm
    exact completes_write (append_int2be32_length hx y)
      (exec_pkc2r_ok ha hb hm (decompressBytes_point hx h))

/-- Settles O43: the compressed key is the tag of the ordinate's parity and the abscissa, of which
decompression makes the point again. -/
theorem compressionRoundTrip : Obligations.CompressionRoundTrip := by
  unfold Obligations.CompressionRoundTrip
  intro s a b c x y ha hb hc hpoint hm
  have ⟨hxlt, hylt, _⟩ := hpoint
  have hxval : be2int (int2be32 x) = x := be2int_int2be32 (hxlt.trans primeP_lt)
  have hyval : be2int (int2be32 y) = y := be2int_int2be32 (hylt.trans primeP_lt)
  have hcompress : compressBytes (int2be32 x ++ int2be32 y) = parityTag y :: int2be32 x := by
    rw [compressBytes_append (int2be32_length x) (int2be32_length y), hyval]
  obtain ⟨t, hfirst, -, hcmp⟩ := completes_write
    (compressBytes_length (append_int2be32_length (int2be32_length x) y)) (exec_pkr2c ha hb hm)
  obtain ⟨u, hsecond, hok, hraw⟩ := completes_write (append_int2be32_length (int2be32_length x) y)
    (exec_pkc2r_ok hb hc (hcompress ▸ hcmp)
      (decompressBytes_point (int2be32_length x) (hxval.symm ▸ hpoint)))
  refine ⟨u, ?_, hok.ok, hraw⟩
  rw [execAll_cons_next hfirst, execAll_cons_next hsecond, execAll]
end

section
/-! PROOFS. The Ecdsa family: signing and signature normalization (R260 to R265, R275). -/

namespace Sys2Proof.Machine

/-! ### Scalars mod q -/

theorem checked_of_not_isScalar {bs : List Byte} (h : ¬ IsScalar bs) : checked bs = none := if_neg h

theorem be2int_int2be32_scalar {v : Nat} (h : v < orderQ) : be2int (int2be32 v) = v :=
  be2int_int2be32 (lt_two_pow_256_of_lt_orderQ h)

theorem isScalar_int2be32 {v : Nat} (h0 : 0 < v) (h : v < orderQ) : IsScalar (int2be32 v) := by
  rw [IsScalar, be2int_int2be32_scalar h]
  exact ⟨h0, h⟩

/-- The inverse of k solves k*v = m mod q (R262). -/
theorem mul_qinv_mul {k : Nat} (h0 : 0 < k) (hlt : k < orderQ) (m : Nat) :
    k * (qinv k * m % orderQ) ≡ m [MOD orderQ] := by
  have hinv : k * qinv k ≡ 1 [MOD orderQ] := mul_qinv h0.ne' hlt
  calc k * (qinv k * m % orderQ) ≡ k * (qinv k * m) [MOD orderQ] := (Nat.mod_modEq _ _).mul_left k
    _ = k * qinv k * m := (mul_assoc ..).symm
    _ ≡ 1 * m [MOD orderQ] := hinv.mul_right m
    _ = m := one_mul m

/-! ### The nonce's point (R262) -/

/-- Where n*A = O for a prime n and A is not O, no multiple of A by a scalar in [1, n - 1] is O. -/
theorem smul_ne_inf_of_prime_order {a : Point} {n k : Nat} (ha : a.valid = true) (hinf : a ≠ .inf)
    (hn : a.smul n = .inf) (hprime : n.Prime) (h0 : 0 < k) (hlt : k < n) : a.smul k ≠ .inf := by
  have : Fact primeP.Prime := ⟨prime_p⟩
  obtain ⟨P, hP⟩ := a.valid_iff.1 ha
  have hzero : ∀ {m : Nat}, a.smul m = .inf → addOrderOf P ∣ m := fun {m} hm =>
    addOrderOf_dvd_of_nsmul_eq_zero ((hP.smul m).unique (hm ▸ Point.denotes_inf))
  intro hk
  have hcop : Nat.gcd n k = 1 := Nat.coprime_of_lt_prime h0.ne' hlt hprime
  have hone : addOrderOf P ∣ 1 := hcop ▸ Nat.dvd_gcd (hzero hn) (hzero hk)
  have hP0 : P = 0 := AddMonoid.addOrderOf_eq_one_iff.1 (Nat.dvd_one.1 hone)
  exact hinf (hP.inj (hP0 ▸ Point.denotes_inf))

/-- q is prime, so k*G is not O for a checked nonce. -/
theorem pointMulG_ne_inf {k : Nat} (h0 : 0 < k) (hlt : k < orderQ) : pointMulG k ≠ .inf := by
  rw [pointMulG_eq (lt_two_pow_256_of_lt_orderQ hlt)]
  exact smul_ne_inf_of_prime_order genG_valid Point.noConfusion smul_orderQ_genG prime_q h0 hlt

theorem pointMulG_valid (k : Nat) : (pointMulG k).valid = true := closedPoints_valid.pointMulG k

/-! ### Signing (R262, R265) -/

/-- The operand regions of a signing command fit in BUF, and its inputs hold these bytes. -/
structure SignInputs (s : State) (a b c : Byte) (zb db kb : List Byte) : Prop where
  digestFits : a.toNat + 32 ≤ 256
  secretsFit : b.toNat + 64 ≤ 256
  outputFits : c.toNat + 64 ≤ 256
  digest : readBytes s.mem a.toNat 32 = .val zb
  key : readBytes s.mem b.toNat 32 = .val db
  nonce : readBytes s.mem (b.toNat + 32) 32 = .val kb

section signing

variable {s : State} {a b c : Byte} {zb db kb : List Byte} (h : SignInputs s a b c zb db kb)
  (norm : Nat → Nat)
include h

theorem signWith_invalid (hbad : ¬ (IsScalar db ∧ IsScalar kb)) :
    signWith norm a b c s = .next (s.failRegion c.toNat 64 .invalidScalar) := by
  obtain ⟨ha, hb, hc, hz, hd, hk⟩ := h
  simp only [signWith, fits_eq_true ha, fits_eq_true hb, fits_eq_true hc, Bool.and_self,
    legal_true, withBytes_val hz, withBytes_val hd, withBytes_val hk]
  rcases not_and_or.1 hbad with hbad | hbad
  · rw [checked_of_not_isScalar hbad]
  · rw [checked_of_not_isScalar hbad]
    cases checked db <;> rfl

variable {r v : Nat} (hd : IsScalar db) (hk : IsScalar kb)
  (hsig : signature (reduced zb) (be2int db) (be2int kb) = (r, v))
include hd hk hsig

theorem signWith_degenerate (hrv : r = 0 ∨ v = 0) :
    signWith norm a b c s = .next (s.failRegion c.toNat 64 .degenerateSignature) := by
  obtain ⟨ha, hb, hc, hzb, hdb, hkb⟩ := h
  simp [signWith, fits_eq_true ha, fits_eq_true hb, fits_eq_true hc, withBytes_val hzb,
    withBytes_val hdb, withBytes_val hkb, checked_inside hd, checked_inside hk, hsig, hrv]

theorem signWith_ok (hr : r ≠ 0) (hv : v ≠ 0) :
    signWith norm a b c s = .next (s.write c.toNat (signatureBytes r (norm v))).finishOk := by
  obtain ⟨ha, hb, hc, hzb, hdb, hkb⟩ := h
  simp [signWith, fits_eq_true ha, fits_eq_true hb, fits_eq_true hc, withBytes_val hzb,
    withBytes_val hdb, withBytes_val hkb, checked_inside hd, checked_inside hk, hsig, hr, hv]

end signing

/-- The second half of a signature solves k*v = z + r*d mod q (R262 step 3). -/
theorem signature_spec {z d k r v : Nat} (h0 : 0 < k) (hlt : k < orderQ)
    (h : signature (z % orderQ) d k = (r, v)) :
    r = (pointMulG k).affineX % orderQ ∧ v < orderQ ∧ k * v ≡ z + r * d [MOD orderQ] := by
  simp only [signature, Prod.mk.injEq] at h
  obtain ⟨rfl, rfl⟩ := h
  refine ⟨rfl, Nat.mod_lt _ orderQ_pos, (mul_qinv_mul h0 hlt _).trans ?_⟩
  exact (Nat.mod_modEq _ _).trans ((Nat.mod_modEq z orderQ).add_right _)

/-- The outcomes of a signing command with step 6 `norm` (R262, R265). -/
theorem signWith_outcomes {s : State} {a b c : Byte} {zb db kb : List Byte}
    (h : SignInputs s a b c zb db kb) (norm : Nat → Nat) :
    (¬ (IsScalar db ∧ IsScalar kb) →
      ∃ t, signWith norm a b c s = .next t ∧ FailAfter s .invalidScalar t ∧
        NoValueIn t c.toNat 64) ∧
    (IsScalar db ∧ IsScalar kb →
      ∃ r v : Nat, r = (pointMulG (be2int kb)).affineX % orderQ ∧ v < orderQ ∧
        be2int kb * v % orderQ = (be2int zb + r * be2int db) % orderQ ∧
        (r = 0 ∨ v = 0 →
          ∃ t, signWith norm a b c s = .next t ∧ FailAfter s .degenerateSignature t ∧
            NoValueIn t c.toNat 64) ∧
        (r ≠ 0 ∧ v ≠ 0 →
          ∃ t, signWith norm a b c s = .next t ∧ OkAfter s t ∧
            readBytes t.mem c.toNat 64 = .val (int2be32 r ++ int2be32 (norm v)))) := by
  refine ⟨fun hbad => fails_region (signWith_invalid h norm hbad), fun ⟨hd, hk⟩ => ?_⟩
  obtain ⟨hr, hv, hsolves⟩ := signature_spec hk.1 hk.2 (z := be2int zb) (d := be2int db) rfl
  refine ⟨_, _, hr, hv, hsolves, fun hzero => ?_, fun ⟨hr0, hv0⟩ => ?_⟩
  · exact fails_region (signWith_degenerate h norm hd hk rfl hzero)
  · exact completes_write (signatureBytes_length _ _) (signWith_ok h norm hd hk rfl hr0 hv0)

/-! ### Signature normalization (R275) -/

section normalization

variable {s : State} {a b : Byte} {rb vb : List Byte} (ha : a.toNat + 64 ≤ 256)
  (hb : b.toNat + 64 ≤ 256) (hm : readBytes s.mem a.toNat 64 = .val (rb ++ vb))
  (hr : rb.length = 32)
include ha hb hm hr

theorem exec_signorm_invalid (h : ¬ IsScalar vb) :
    exec (.signorm a b) s = .next (s.failRegion b.toNat 64 .invalidScalar) := by
  simp [exec, execSignorm, fits_eq_true ha, fits_eq_true hb, withBytes_val hm, ← hr,
    checked_of_not_isScalar h]

theorem exec_signorm_ok (h : IsScalar vb) :
    exec (.signorm a b) s =
      .next (s.write b.toNat (rb ++ int2be32 (lowS (be2int vb)))).finishOk := by
  simp [exec, execSignorm, fits_eq_true ha, fits_eq_true hb, withBytes_val hm, ← hr,
    checked_inside h]

end normalization

/-- Writing what a region holds already changes no cell. -/
theorem State.cell_write_same {s : State} {a : Nat} {bs : List Byte}
    (h : readBytes s.mem a bs.length = .val bs) (x : Nat) : (s.write a bs).cell x = s.cell x := by
  obtain ⟨-, hcells⟩ := readBytes_val.1 h
  unfold State.cell
  rw [State.write_mem, cellAt_writeBytes]
  split_ifs with hx
  · rw [← hcells (x - a) (by omega)]
    congr 1
    omega
  · rfl

theorem lowS_pos {v : Nat} (h0 : 0 < v) (hlt : v < orderQ) : 0 < lowS v := by
  unfold lowS
  split <;> omega

theorem lowS_lt {v : Nat} (h : v < orderQ) : lowS v < orderQ := (lowS_le h).trans_lt (by decide)

end Sys2Proof.Machine

open Sys2Proof Sys2Proof.Machine

/-- Settles O34: a multiple of G is on the curve, and by the primality of q it is not O. -/
theorem nonceGivesAffinePoint : Obligations.NonceGivesAffinePoint := by
  unfold Obligations.NonceGivesAffinePoint
  intro k h0 hlt
  have hvalid := pointMulG_valid k
  cases hp : pointMulG k with
  | inf => exact absurd hp (pointMulG_ne_inf h0 hlt)
  | aff x y => exact ⟨x, y, rfl, valid_aff_iff.1 (hp ▸ hvalid)⟩

/-- Settles O35: SIGN is the signing sequence with no step 6. -/
theorem signOutcomes : Obligations.SignOutcomes := by
  unfold Obligations.SignOutcomes
  intro s a b c zb db kb ha hb hc hz hd hk
  exact signWith_outcomes ⟨ha, hb, hc, hz, hd, hk⟩ id

/-- Settles O36: step 6 is `lowS`, the smaller of a scalar and its opposite. -/
theorem signLowSOutcomes : Obligations.SignLowSOutcomes := by
  unfold Obligations.SignLowSOutcomes
  intro s a b c zb db kb ha hb hc hz hd hk
  obtain ⟨hbad, hgood⟩ := signWith_outcomes ⟨ha, hb, hc, hz, hd, hk⟩ lowS
  refine ⟨hbad, fun hscalars => ?_⟩
  obtain ⟨r, v, hr, hv, hsolves, hzero, hok⟩ := hgood hscalars
  refine ⟨r, v, hr, hv, hsolves, hzero, fun hnonzero => ?_⟩
  obtain ⟨t, hrun, hafter, hout⟩ := hok hnonzero
  rw [← lowS_eq_min hv, ← halfQ_eq]
  exact ⟨t, hrun, hafter, hout, lowS_pos (Nat.pos_of_ne_zero hnonzero.2) hv, lowS_le hv⟩

/-- Settles O40: the second half becomes `lowS` of it, on which `lowS` is the identity, so the
second SIGNORM writes the bytes that stand there. -/
theorem signatureNormalization : Obligations.SignatureNormalization := by
  unfold Obligations.SignatureNormalization
  intro s a b rb vb ha hb hr hv
  obtain ⟨hlen, -⟩ := readBytes_val.1 hr
  have hm := readBytes_add hr hv
  refine ⟨fun hbad => fails_region (exec_signorm_invalid ha hb hm hlen hbad), fun ⟨h0, hlt⟩ => ?_⟩
  obtain ⟨t, hrun, hafter, hout⟩ := completes_write (append_int2be32_length hlen _)
    (exec_signorm_ok ha hb hm hlen ⟨h0, hlt⟩)
  have hagain := exec_signorm_ok hb hb hout hlen
    (isScalar_int2be32 (lowS_pos h0 hlt) (lowS_lt hlt))
  rw [be2int_int2be32_scalar (lowS_lt hlt), lowS_lowS hlt] at hagain
  rw [← lowS_eq_min hlt]
  refine ⟨t, hrun, hafter, hout, _, hagain, rfl, State.cell_write_same ?_⟩
  rw [append_int2be32_length hlen]
  exact hout
end

section
/-! PROOFS. The Ecdsa family: verification, and that it accepts what signing leaves (R268 to R272,
R286). -/

namespace Sys2Proof.Machine

/-! ### The comparison of the abscissa (R269, R270) -/

/-- A factor that is not 0 mod p cancels. -/
theorem mul_mod_primeP_inj {u x z : Nat} (hu : u < primeP) (hx : x < primeP) (h0 : 0 < z)
    (hz : z < primeP) : u * z % primeP = x * z % primeP ↔ u = x := by
  have hcop : Nat.gcd primeP z = 1 := Nat.coprime_of_lt_prime h0.ne' hz prime_p
  refine ⟨fun h => ?_, fun h => h ▸ rfl⟩
  exact (Nat.ModEq.cancel_right_of_coprime hcop h).eq_of_lt_of_lt hu hx

/-- p is below 2q, so reduction mod q subtracts q at most once (R12). -/
theorem mod_orderQ_eq_iff {x r : Nat} (hx : x < primeP) (hr : r < orderQ) :
    x % orderQ = r ↔ r = x ∨ (r < primeP - orderQ ∧ r + orderQ = x) := by
  have hp : primeP < 2 * orderQ := by decide
  rcases Nat.lt_or_ge x orderQ with hlt | hge
  · rw [Nat.mod_eq_of_lt hlt]
    omega
  · rw [Nat.mod_eq_sub_mod hge, Nat.mod_eq_of_lt (by omega)]
    omega

theorem xmatch_mul_iff {x z r : Nat} (hx : x < primeP) (h0 : 0 < z) (hz : z < primeP)
    (hr : r < orderQ) : xmatch (x * z % primeP) z r = true ↔ x % orderQ = r := by
  have hfirst : r * z % primeP = x * z % primeP ↔ r = x :=
    mul_mod_primeP_inj (hr.trans orderQ_lt) hx h0 hz
  have hsecond : r < primeP - orderQ →
      ((r + orderQ) * z % primeP = x * z % primeP ↔ r + orderQ = x) := fun hlow =>
    mul_mod_primeP_inj (by omega) hx h0 hz
  rw [mod_orderQ_eq_iff hx hr, ← hfirst, ← and_congr_right hsecond]
  simp only [xmatch, Nat.mod_mod, Bool.or_eq_true, Bool.and_eq_true, decide_eq_true_eq, beq_iff_eq]

/-- On a group element the comparison is that of its abscissa mod q. -/
theorem matchesR_aff {x r : Nat} (y : Nat) (hx : x < primeP) (hr : r < orderQ) :
    matchesR (.aff x y) r = if x % orderQ = r then .none else .verifyMismatch := by
  have hone := xmatch_mul_iff (z := 1) hx Nat.one_pos (by decide) hr
  rw [mul_one, Nat.mod_eq_of_lt hx] at hone
  simp only [matchesR, hone]

/-! ### How a verification ends (R268) -/

section forms

variable {s : State} {x : Result}

theorem completes_verdict (h : x = .next (s.verdict .none)) : ∃ t, x = .next t ∧ OkAfter s t :=
  ⟨_, h, okAfter_finishOk s⟩

theorem fails_verdict {e : ErrCode} (he : e ≠ .none) (h : x = .next (s.verdict e)) :
    ∃ t, x = .next t ∧ FailAfter s e t :=
  ⟨_, h.trans (congrArg Host.Outcome.next (if_neg he)), failAfter_failWith s e⟩

end forms

/-! ### The checks in their order (R268, R272) -/

section checks

variable {zb xb yb pk rb vb : List Byte}

section signature

variable (hr : rb.length = 32)
include hr

theorem verifyLowS_invalid (h : ¬ IsScalar vb) : verifyLowS zb pk (rb ++ vb) = .invalidScalar := by
  simp [verifyLowS, ← hr, checked_of_not_isScalar h]

theorem verifyLowS_high (h : IsScalar vb) (hhigh : halfQ < be2int vb) :
    verifyLowS zb pk (rb ++ vb) = .notLowS := by
  simp [verifyLowS, ← hr, checked_inside h, hhigh]

theorem verifyLowS_low (h : IsScalar vb) (hlow : be2int vb ≤ halfQ) :
    verifyLowS zb pk (rb ++ vb) = verifyBytes zb pk (rb ++ vb) := by
  rw [verifyLowS, ← hr, List.drop_left, checked_inside h]
  exact if_neg hlow.not_gt

end signature

variable (hx : xb.length = 32)
include hx

theorem verifyBytes_off_curve {sig : List Byte} (h : ¬ IsCurvePoint (be2int xb) (be2int yb)) :
    verifyBytes zb (xb ++ yb) sig = .invalidPoint := by
  simp [verifyBytes, rawPoint_append hx, mt valid_aff_iff.1 h]

variable (hr : rb.length = 32) (hp : IsCurvePoint (be2int xb) (be2int yb))
include hr hp

theorem verifyBytes_invalid_scalar (h : ¬ (IsScalar rb ∧ IsScalar vb)) :
    verifyBytes zb (xb ++ yb) (rb ++ vb) = .invalidScalar := by
  simp only [verifyBytes, rawPoint_append hx, if_pos (valid_aff_iff.2 hp), ← hr, List.take_left,
    List.drop_left]
  rcases not_and_or.1 h with hbad | hbad
  · rw [checked_of_not_isScalar hbad]
  · rw [checked_of_not_isScalar hbad]
    cases checked rb <;> rfl

/-- Steps 3 to 6 (R268): the digest's reduction mod q falls into that of its product. -/
theorem verifyBytes_scalars (hrs : IsScalar rb) (hvs : IsScalar vb) :
    verifyBytes zb (xb ++ yb) (rb ++ vb) =
      matchesR (pointMulG2 (be2int zb * qinv (be2int vb) % orderQ)
        (be2int rb * qinv (be2int vb) % orderQ) (.aff (be2int xb) (be2int yb))) (be2int rb) := by
  rw [verifyBytes, rawPoint_append hx, if_pos (valid_aff_iff.2 hp), ← hr, List.take_left,
    List.drop_left, checked_inside hrs, checked_inside hvs]
  simp only [verifyScalars, reduced, Nat.mod_mul_mod]

end checks

/-- The operand regions of a verification fit in BUF and hold these bytes. -/
structure VerifyInputs (s : State) (a b c : Byte) (zb pk sig : List Byte) : Prop where
  digestFits : a.toNat + 32 ≤ 256
  keyFits : b.toNat + 64 ≤ 256
  signatureFits : c.toNat + 64 ≤ 256
  digest : readBytes s.mem a.toNat 32 = .val zb
  key : readBytes s.mem b.toNat 64 = .val pk
  signature : readBytes s.mem c.toNat 64 = .val sig

theorem verifyWith_eq {s : State} {a b c : Byte} {zb pk sig : List Byte}
    (h : VerifyInputs s a b c zb pk sig) (check : List Byte → List Byte → List Byte → ErrCode) :
    verifyWith check a b c s = .next (s.verdict (check zb pk sig)) := by
  obtain ⟨ha, hb, hc, hz, hk, hs⟩ := h
  simp [verifyWith, fits_eq_true ha, fits_eq_true hb, fits_eq_true hc, withBytes_val hz,
    withBytes_val hk, withBytes_val hs]

/-! ### Verification finds the nonce's point again (R286) -/

theorem smul_smul_of_valid {a : Point} (ha : a.valid = true) (k l : Nat) :
    (a.smul k).smul l = a.smul (l * k) := by
  have : Fact primeP.Prime := ⟨prime_p⟩
  obtain ⟨P, hP⟩ := a.valid_iff.1 ha
  refine ((hP.smul k).smul l).inj ?_
  rw [← mul_nsmul']
  exact hP.smul _

/-- Multiples of G depend on the scalar mod q alone. -/
theorem smul_genG_congr {m n : Nat} (h : m ≡ n [MOD orderQ]) : genG.smul m = genG.smul n := by
  rw [← smul_mod_of_smul_eq_inf genG_valid smul_orderQ_genG m, h,
    smul_mod_of_smul_eq_inf genG_valid smul_orderQ_genG]

/-- With w the inverse of v, z*w*G + r*w*(d*G) is k*G where k*v = z + r*d mod q (R286). -/
theorem pointMulG2_of_signature {z r d k v w : Nat} (hd : d < orderQ) (hk : k < orderQ)
    (hw : v * w ≡ 1 [MOD orderQ]) (hs : k * v ≡ z + r * d [MOD orderQ]) :
    pointMulG2 (z * w % orderQ) (r * w % orderQ) (pointMulG d) = pointMulG k := by
  have hbound : ∀ m, m % orderQ < 2 ^ 256 := fun m =>
    lt_two_pow_256_of_lt_orderQ (Nat.mod_lt m orderQ_pos)
  rw [pointMulG2_eq (pointMulG_valid d) (hbound _) (hbound _),
    pointMulG_eq (lt_two_pow_256_of_lt_orderQ hd), pointMulG_eq (lt_two_pow_256_of_lt_orderQ hk),
    smul_smul_of_valid genG_valid, smul_add genG_valid]
  refine smul_genG_congr ?_
  calc z * w % orderQ + r * w % orderQ * d
      ≡ z * w + r * w * d [MOD orderQ] :=
        (Nat.mod_modEq _ _).add ((Nat.mod_modEq _ _).mul_right d)
    _ = (z + r * d) * w := by ring
    _ ≡ k * v * w [MOD orderQ] := hs.symm.mul_right w
    _ = k * (v * w) := mul_assoc ..
    _ ≡ k * 1 [MOD orderQ] := hw.mul_left k
    _ = k := mul_one k

theorem Point.affineX_neg (a : Point) : a.neg.affineX = a.affineX := by cases a <;> rfl

/-- (q - k)*G is the opposite of k*G. -/
theorem pointMulG_opposite {k : Nat} (h0 : 0 < k) (hlt : k < orderQ) :
    pointMulG (orderQ - k) = (pointMulG k).neg := by
  have : Fact primeP.Prime := ⟨prime_p⟩
  rw [pointMulG_eq (lt_two_pow_256_of_lt_orderQ (by omega)),
    pointMulG_eq (lt_two_pow_256_of_lt_orderQ hlt)]
  obtain ⟨P, hP⟩ := genG.valid_iff.1 genG_valid
  have hsum : (genG.smul (orderQ - k)).add (genG.smul k) = .inf := by
    rw [smul_add genG_valid, Nat.sub_add_cancel hlt.le, smul_orderQ_genG]
  have hopp : (orderQ - k) • P = -(k • P) := eq_neg_of_add_eq_zero_left
    (((hP.smul (orderQ - k)).add (hP.smul k)).unique (hsum ▸ Point.denotes_inf))
  exact (hP.smul (orderQ - k)).inj (hopp ▸ (hP.smul k).neg)

/-- Opposites of both factors leave the product mod q. -/
theorem opposite_mul_opposite {k v : Nat} (hk : k ≤ orderQ) (hv : v ≤ orderQ) :
    (orderQ - k) * (orderQ - v) ≡ k * v [MOD orderQ] := by
  rw [← Int.natCast_modEq_iff]
  push_cast [hk, hv]
  exact Int.modEq_iff_dvd.2 ⟨k + v - orderQ, by ring⟩

/-- Step 6 of signing keeps signatures: on the second half of a signature it leaves a scalar that is
the second half for a nonce whose point has the same abscissa. -/
def KeepsSignature (norm : Nat → Nat) : Prop :=
  ∀ k v m : Nat, 0 < k → k < orderQ → 0 < v → v < orderQ → k * v ≡ m [MOD orderQ] →
    0 < norm v ∧ norm v < orderQ ∧ ∃ k', 0 < k' ∧ k' < orderQ ∧
      (pointMulG k').affineX = (pointMulG k).affineX ∧ k' * norm v ≡ m [MOD orderQ]

theorem keepsSignature_id : KeepsSignature id := fun k _ _ hk0 hk hv0 hv hs =>
  ⟨hv0, hv, k, hk0, hk, rfl, hs⟩

/-- The nonce of a normalized signature is k or q - k, whose points are opposite. -/
theorem keepsSignature_lowS : KeepsSignature lowS := by
  intro k v m hk0 hk hv0 hv hs
  refine ⟨lowS_pos hv0 hv, lowS_lt hv, ?_⟩
  unfold lowS
  split
  · refine ⟨orderQ - k, by omega, by omega, ?_, (opposite_mul_opposite hk.le hv.le).trans hs⟩
    rw [pointMulG_opposite hk0 hk, Point.affineX_neg]
  · exact ⟨k, hk0, hk, rfl, hs⟩

/-- A signature of a nonce's abscissa and a second half that solves R262's equation verifies against
d*G (R286). -/
theorem verifyBytes_of_signature {zb : List Byte} {d k r v x y : Nat} (hd : d < orderQ)
    (hkey : pointMulG d = .aff x y) (hk0 : 0 < k) (hk : k < orderQ) (hv0 : 0 < v) (hv : v < orderQ)
    (hr : r = (pointMulG k).affineX % orderQ) (hr0 : 0 < r)
    (hs : k * v ≡ be2int zb + r * d [MOD orderQ]) :
    verifyBytes zb (int2be32 x ++ int2be32 y) (int2be32 r ++ int2be32 v) = .none := by
  have hpoint : IsCurvePoint x y := valid_aff_iff.1 (hkey ▸ pointMulG_valid d)
  have ⟨hx, hy, _⟩ := hpoint
  have hxval : be2int (int2be32 x) = x := be2int_int2be32 (hx.trans primeP_lt)
  have hyval : be2int (int2be32 y) = y := be2int_int2be32 (hy.trans primeP_lt)
  have hrlt : r < orderQ := hr ▸ Nat.mod_lt _ orderQ_pos
  obtain ⟨x', y', hnonce, hx', -⟩ := nonceGivesAffinePoint k hk0 hk
  rw [verifyBytes_scalars (int2be32_length x) (int2be32_length r)
    (by rw [hxval, hyval]; exact hpoint) (isScalar_int2be32 hr0 hrlt) (isScalar_int2be32 hv0 hv),
    hxval, hyval, be2int_int2be32_scalar hrlt, be2int_int2be32_scalar hv, ← hkey,
    pointMulG2_of_signature hd hk (mul_qinv hv0.ne' hv) hs, hnonce, matchesR_aff y' hx' hrlt]
  rw [hnonce] at hr
  exact if_pos hr.symm

/-! ### What verification reads after signing -/

/-- A store leaves the bytes of a region that it does not meet, once it has reported (R76). -/
theorem readBytes_stored_outside {s : State} {a n c : Nat} {bs out : List Byte}
    (hm : readBytes s.mem a n = .val bs) (h : a + n ≤ c ∨ c + out.length ≤ a) :
    readBytes ((s.write c out).finishOk).mem a n = .val bs := by
  obtain ⟨hlen, hcells⟩ := readBytes_val.1 hm
  refine readBytes_val.2 ⟨hlen, fun i hi => ?_⟩
  exact (State.cell_write_outside s (by omega)).trans (hcells i hi)

/-- A command that ended in `ok` has not failed. -/
theorem not_fail_of_ok {x : Result} {t u : State} {e : ErrCode} (hrun : x = .next t)
    (hok : t.ok = true) : x ≠ .next (u.failWith e) := by
  rintro rfl
  cases hrun
  exact Bool.false_ne_true hok

section completed

variable {norm : Nat → Nat} {s t : State} {a b c : Byte}
  (hrun : signWith norm a b c s = .next t) (hok : t.ok = true)
include hrun hok

/-- A signing command that ended in `ok` had its operands in BUF. -/
theorem signInputs_of_ok : ∃ zb db kb, SignInputs s a b c zb db kb := by
  obtain ⟨hfits, hbody⟩ | ⟨-, rfl⟩ := legal_next.1 hrun
  · simp only [fits, Bool.and_eq_true, decide_eq_true_eq] at hfits
    obtain ⟨⟨ha, hb⟩, hc⟩ := hfits
    obtain ⟨zb, hz, hbody⟩ := withBytes_next.1 hbody
    obtain ⟨db, hd, hbody⟩ := withBytes_next.1 hbody
    obtain ⟨kb, hk, -⟩ := withBytes_next.1 hbody
    exact ⟨zb, db, kb, ha, hb, hc, hz, hd, hk⟩
  · exact absurd hok Bool.false_ne_true

/-- It had two scalars as secrets, and wrote a signature with no half 0 (R262). -/
theorem signWith_completed :
    ∃ zb db kb r v, SignInputs s a b c zb db kb ∧ IsScalar db ∧ IsScalar kb ∧
      signature (reduced zb) (be2int db) (be2int kb) = (r, v) ∧ 0 < r ∧ 0 < v ∧
      t = (s.write c.toNat (int2be32 r ++ int2be32 (norm v))).finishOk := by
  obtain ⟨zb, db, kb, hin⟩ := signInputs_of_ok hrun hok
  by_cases hscalars : IsScalar db ∧ IsScalar kb
  · obtain ⟨hd, hk⟩ := hscalars
    obtain ⟨r, v, hsig⟩ : ∃ r v, signature (reduced zb) (be2int db) (be2int kb) = (r, v) :=
      ⟨_, _, rfl⟩
    obtain ⟨hr0, hv0⟩ := not_or.1 fun hzero =>
      not_fail_of_ok hrun hok (signWith_degenerate hin norm hd hk hsig hzero)
    have ht := hrun.symm.trans (signWith_ok hin norm hd hk hsig hr0 hv0)
    exact ⟨zb, db, kb, r, v, hin, hd, hk, hsig, Nat.pos_of_ne_zero hr0, Nat.pos_of_ne_zero hv0,
      Host.Outcome.next.inj ht⟩
  · exact absurd (signWith_invalid hin norm hscalars) (not_fail_of_ok hrun hok)

end completed

section roundTrip

variable {norm : Nat → Nat} {s t : State} {a b c e : Byte} {db : List Byte} {x y : Nat}

/-- After a signing command that keeps signatures, a verification reads the digest, the key and a
signature that it accepts (R286). -/
theorem signWith_then_verify (hn : KeepsSignature norm) (he : e.toNat + 64 ≤ 256)
    (hca : c.toNat + 64 ≤ a.toNat ∨ a.toNat + 32 ≤ c.toNat)
    (hce : c.toNat + 64 ≤ e.toNat ∨ e.toNat + 64 ≤ c.toNat)
    (hd : readBytes s.mem b.toNat 32 = .val db) (hkey : pointMulG (be2int db) = .aff x y)
    (hk : readBytes s.mem e.toNat 64 = .val (int2be32 x ++ int2be32 y))
    (hrun : signWith norm a b c s = .next t) (hok : t.ok = true) :
    ∃ zb r v, v < orderQ ∧ 0 < norm v ∧ norm v < orderQ ∧
      VerifyInputs t a e c zb (int2be32 x ++ int2be32 y) (int2be32 r ++ int2be32 (norm v)) ∧
      verifyBytes zb (int2be32 x ++ int2be32 y) (int2be32 r ++ int2be32 (norm v)) = .none := by
  obtain ⟨zb, db', kb, r, v, hin, hds, ⟨hk0, hklt⟩, hsig, hr0, hv0, rfl⟩ :=
    signWith_completed hrun hok
  obtain ⟨hr, hv, hs⟩ := signature_spec hk0 hklt hsig
  obtain ⟨hn0, hnlt, k', hk0', hklt', habscissa, hs'⟩ := hn _ _ _ hk0 hklt hv0 hv hs
  obtain rfl : db' = db := Content.val.inj (hin.key.symm.trans hd)
  have hlen : (int2be32 r ++ int2be32 (norm v)).length = 64 := signatureBytes_length r (norm v)
  refine ⟨zb, r, v, hv, hn0, hnlt, ?_, ?_⟩
  · exact {
      digestFits := hin.digestFits
      keyFits := he
      signatureFits := hin.outputFits
      digest := readBytes_stored_outside hin.digest (by rw [hlen]; exact hca.symm)
      key := readBytes_stored_outside hk (by rw [hlen]; exact hce.symm)
      signature := readBytes_stored_self s c.toNat hlen }
  · rw [← habscissa] at hr
    exact verifyBytes_of_signature hds.2 hkey hk0' hklt' hn0 hnlt hr hr0 hs'

end roundTrip

end Sys2Proof.Machine

open Sys2Proof Sys2Proof.Machine

/-- Settles O39: Z cancels mod p, and the abscissa is below p, so below 2q. -/
theorem xmatchIsReduction : Obligations.XmatchIsReduction := by
  unfold Obligations.XmatchIsReduction
  intro x z r hx h0 hz _ hr
  exact xmatch_mul_iff hx h0 hz hr

/-- Settles O37: the checks in their order, and on the sum R' the comparison of its abscissa mod q;
the inverse is `qinv` of the second half. -/
theorem verifyOutcomes : Obligations.VerifyOutcomes := by
  unfold Obligations.VerifyOutcomes
  intro s a b c zb xb yb rb vb ha hb hc hz hx hy hr hv
  obtain ⟨hxlen, -⟩ := readBytes_val.1 hx
  obtain ⟨hrlen, -⟩ := readBytes_val.1 hr
  have hrun : exec (.verify a b c) s = .next (s.verdict (verifyBytes zb (xb ++ yb) (rb ++ vb))) :=
    verifyWith_eq ⟨ha, hb, hc, hz, readBytes_add hx hy, readBytes_add hr hv⟩ verifyBytes
  refine ⟨fun hoff => ?_, fun ⟨hp, hbad⟩ => ?_, fun ⟨hp, hrs, hvs⟩ => ?_⟩
  · rw [verifyBytes_off_curve hxlen hoff] at hrun
    exact fails_verdict (by decide) hrun
  · rw [verifyBytes_invalid_scalar hxlen hrlen hp hbad] at hrun
    exact fails_verdict (by decide) hrun
  · rw [verifyBytes_scalars hxlen hrlen hp hrs hvs] at hrun
    refine ⟨qinv (be2int vb), qinv_lt _, mul_qinv hvs.1.ne' hvs.2, fun hinf => ?_,
      fun x y haff => ?_⟩
    · rw [hinf] at hrun
      exact fails_verdict (by decide) hrun
    · have hsum := closedPoints_valid.pointMulG2 (valid_aff_iff.2 hp)
        (be2int zb * qinv (be2int vb) % orderQ) (be2int rb * qinv (be2int vb) % orderQ)
      obtain ⟨hlt, -⟩ := valid_aff_iff.1 (haff ▸ hsum)
      rw [haff, matchesR_aff y hlt hrs.2] at hrun
      refine ⟨fun heq => ?_, fun hne => ?_⟩
      · rw [if_pos heq] at hrun
        exact completes_verdict hrun
      · rw [if_neg hne] at hrun
        exact fails_verdict (by decide) hrun

/-- Settles O38: the second half is checked before the key, and a low one leads to VERIFY's own
checks. -/
theorem verifyLowSOutcomes : Obligations.VerifyLowSOutcomes := by
  unfold Obligations.VerifyLowSOutcomes
  intro s a b c zb pk rb vb ha hb hc hz hk hr hv
  obtain ⟨hrlen, -⟩ := readBytes_val.1 hr
  have hin : VerifyInputs s a b c zb pk (rb ++ vb) := ⟨ha, hb, hc, hz, hk, readBytes_add hr hv⟩
  have hrun : exec (.verifyls a b c) s = .next (s.verdict (verifyLowS zb pk (rb ++ vb))) :=
    verifyWith_eq hin verifyLowS
  rw [← halfQ_eq]
  refine ⟨fun hbad => ?_, fun ⟨hvs, hhigh⟩ => ?_, fun ⟨hvs, hlow⟩ => ?_⟩
  · rw [verifyLowS_invalid hrlen hbad] at hrun
    exact fails_verdict (by decide) hrun
  · rw [verifyLowS_high hrlen hvs hhigh] at hrun
    exact fails_verdict (by decide) hrun
  · rw [verifyLowS_low hrlen hvs hlow] at hrun
    exact ⟨_, verifyWith_eq hin verifyBytes, hrun⟩

/-- Settles O44: verification finds the nonce's point again, or its opposite after step 6, and a
second half that step 6 left is low. -/
theorem signThenVerify : Obligations.SignThenVerify := by
  unfold Obligations.SignThenVerify
  intro s t a b c e db x y he _ hca hce hd hkey hk hok
  refine ⟨fun hrun => ?_, fun hrun => ?_⟩
  · obtain ⟨zb, r, v, -, -, -, hin, hnone⟩ :=
      signWith_then_verify keepsSignature_id he hca hce hd hkey hk hrun hok
    exact ⟨_, verifyWith_eq hin verifyBytes, by rw [hnone]; rfl⟩
  · obtain ⟨zb, r, v, hv, hn0, hnlt, hin, hnone⟩ :=
      signWith_then_verify keepsSignature_lowS he hca hce hd hkey hk hrun hok
    have hlow : be2int (int2be32 (lowS v)) ≤ halfQ :=
      (be2int_int2be32_scalar hnlt).trans_le (lowS_le hv)
    have hsame := verifyLowS_low (zb := zb) (pk := int2be32 x ++ int2be32 y) (int2be32_length r)
      (isScalar_int2be32 hn0 hnlt) hlow
    exact ⟨⟨_, verifyWith_eq hin verifyBytes, by rw [hnone]; rfl⟩,
      ⟨_, verifyWith_eq hin verifyLowS, by rw [hsame, hnone]; rfl⟩⟩
end

section
/-! PROOFS. How each command can end, said once for all 46: a fault its rule names, `ok`, or a listed
failure that leaves no value behind (R301, R312, R317). -/

namespace Sys2Proof.Machine

/-! ### The endings of a legal command -/

/-- Every destination register and every output region holds ⊥ (R301). -/
structure NoResult (fp : Footprint) (u : State) : Prop where
  field : ∀ r ∈ fp.dstF, u.getF r = .bot
  scalar : ∀ r ∈ fp.dstQ, u.getQ r = .bot
  point : ∀ r ∈ fp.dstP, u.getP r = .bot
  region : ∀ g ∈ fp.writes, NoValueIn u g.1 g.2

/-- The outcome of a legal command: `fault ReadNoValue` on a source that holds ⊥, the fault of a
precondition its rule names (R317), `ok`, or a failure of its row of R312 once its destinations and
output regions hold ⊥. -/
inductive EndsAsListed (i : Instr) (s : State) : Result → Prop where
  | noValue : ReadsNoValue i s → EndsAsListed i s (.fault .readNoValue)
  | precondition {f : Fault} : f ∈ i.footprint.faults → EndsAsListed i s (.fault f)
  | ok {t : State} : t.ok = true → EndsAsListed i s (.next t)
  | fail {u : State} {e : ErrCode} : e ∈ i.footprint.fails → u.t = s.t → NoResult i.footprint u →
      EndsAsListed i s (.next (u.failWith e))

theorem readNoValue_notMem_faults (i : Instr) : Fault.readNoValue ∉ i.footprint.faults := by
  cases i <;> simp [Instr.footprint]

theorem illegalCommand_notMem_fails (i : Instr) : ErrCode.illegalCommand ∉ i.footprint.fails := by
  cases i <;> simp [Instr.footprint]

/-! ### The operand forms -/

section forms

variable {i : Instr} {s : State} {r : RegIdx} {a n : Nat}

theorem withF_endsAsListed {k : FieldReg → Result} (hr : r ∈ i.footprint.srcF)
    (h : ∀ v, EndsAsListed i s (k v)) : EndsAsListed i s (withF s r k) := by
  unfold withF
  cases hv : s.getF r with
  | bot => exact .noValue (.inl ⟨r, hr, hv⟩)
  | val v => exact h v

theorem withQ_endsAsListed {k : Nat → Result} (hr : r ∈ i.footprint.srcQ)
    (h : ∀ v, EndsAsListed i s (k v)) : EndsAsListed i s (withQ s r k) := by
  unfold withQ
  cases hv : s.getQ r with
  | bot => exact .noValue (.inr (.inl ⟨r, hr, hv⟩))
  | val v => exact h v

theorem withP_endsAsListed {k : Point → Result} (hr : r ∈ i.footprint.srcP)
    (h : ∀ v, EndsAsListed i s (k v)) : EndsAsListed i s (withP s r k) := by
  unfold withP
  cases hv : s.getP r with
  | bot => exact .noValue (.inr (.inr (.inl ⟨r, hr, hv⟩)))
  | val v => exact h v

/-- A read of a part of a region the command reads: signing reads key and nonce, one region, in two
parts (R262). -/
theorem withBytes_part_endsAsListed {b m : Nat} {k : List Byte → Result}
    (hg : (b, m) ∈ i.footprint.reads) (hlo : b ≤ a) (hhi : a + n ≤ b + m)
    (h : ∀ bs, EndsAsListed i s (k bs)) : EndsAsListed i s (withBytes s a n k) := by
  unfold withBytes
  cases hv : readBytes s.mem a n with
  | bot =>
    obtain ⟨x, hax, hxn, hx⟩ := readBytes_bot.1 hv
    exact .noValue (.inr (.inr (.inr ⟨_, hg, x, hlo.trans hax, hxn.trans_le hhi, hx⟩)))
  | val bs => exact h bs

theorem withBytes_endsAsListed {k : List Byte → Result} (hg : (a, n) ∈ i.footprint.reads)
    (h : ∀ bs, EndsAsListed i s (k bs)) : EndsAsListed i s (withBytes s a n k) :=
  withBytes_part_endsAsListed hg le_rfl le_rfl h

theorem require_endsAsListed {c : Prop} [Decidable c] {f : Fault} {k : Result}
    (hf : f ∈ i.footprint.faults) (h : EndsAsListed i s k) :
    EndsAsListed i s (require c f k) := by
  unfold require
  split
  · exact h
  · exact .precondition hf

theorem legal_endsAsListed {c : Bool} {k : Result} (hc : c = true) (h : EndsAsListed i s k) :
    EndsAsListed i s (legal s c k) := by
  rw [hc]
  exact h

theorem EndsAsListed.verdict {e : ErrCode} (he : e = .none ∨ e ∈ i.footprint.fails)
    (hn : NoResult i.footprint s) : EndsAsListed i s (.next (s.verdict e)) := by
  obtain ⟨-, hv⟩ | ⟨hne, hv⟩ := verdict_cases s e
  · rw [hv]; exact .ok rfl
  · rw [hv]; exact .fail (he.resolve_left hne) rfl hn

theorem noValueIn_poison (s : State) (a n : Nat) : NoValueIn (s.poison a n) a n := fun x hlo hhi =>
  (cellAt_poisonBytes s.mem a n x).trans (if_pos ⟨hlo, hhi⟩)

theorem noResult_poison {fp : Footprint} (s : State) {a n : Nat} (hF : fp.dstF = [])
    (hQ : fp.dstQ = []) (hP : fp.dstP = []) (hw : fp.writes = [(a, n)]) :
    NoResult fp (s.poison a n) where
  field := by simp [hF]
  scalar := by simp [hQ]
  point := by simp [hP]
  region := by simp [hw, noValueIn_poison]

theorem EndsAsListed.failRegion {e : ErrCode} (he : e ∈ i.footprint.fails)
    (hn : NoResult i.footprint (s.poison a n)) : EndsAsListed i s (.next (s.failRegion a n e)) :=
  .fail (u := s.poison a n) he rfl hn

end forms

/-! ### The codes of the checks (R268, R272, R282) -/

theorem matchesR_cases (pt : Point) (r : Nat) :
    matchesR pt r = .none ∨ matchesR pt r = .verifyMismatch := by
  cases pt with
  | inf => exact .inr rfl
  | aff x y => exact ite_eq_or_eq _ _ _

theorem verifyBytes_cases (zb pk sig : List Byte) :
    verifyBytes zb pk sig = .none ∨
      verifyBytes zb pk sig ∈ [.invalidPoint, .invalidScalar, ErrCode.verifyMismatch] := by
  unfold verifyBytes
  split
  · exact .inr (by decide)
  · split
    · exact (matchesR_cases _ _).imp_right fun h => by simp [verifyScalars, h]
    · exact .inr (by decide)

theorem verifyLowS_cases (zb pk sig : List Byte) :
    verifyLowS zb pk sig = .none ∨ verifyLowS zb pk sig ∈
      [.invalidScalar, .notLowS, .invalidPoint, ErrCode.verifyMismatch] := by
  unfold verifyLowS
  split
  · exact .inr (by decide)
  · split_ifs
    · exact .inr (by decide)
    · exact (verifyBytes_cases zb pk sig).imp_right fun h =>
        List.Perm.subset (by decide) (List.mem_cons_of_mem .notLowS h)

theorem decompressBytes_error {cmp : List Byte} {e : ErrCode}
    (h : decompressBytes cmp = .error e) : e ∈ [.malformedEncoding, ErrCode.invalidPoint] := by
  unfold decompressBytes at h
  dsimp only at h
  split_ifs at h
  · cases h; decide
  · cases h; decide
  · split at h <;> cases h
    decide

/-! ### Every legal command ends as listed -/

section commands

variable {i : Instr} {s : State} {a b c : Byte}

theorem execFloads_endsAsListed {rd : RegIdx} (hfit : fits a 32 = true) :
    EndsAsListed (.floads rd a) s (execFloads rd a s) :=
  legal_endsAsListed hfit <| withBytes_endsAsListed (.head _) fun bs => by
    split_ifs
    · exact .fail (.head _) rfl (by constructor <;> simp [Instr.footprint])
    · exact .ok rfl

theorem loadChecked_endsAsListed {rd : RegIdx} (hi : i.footprint = (Instr.qloadc rd a).footprint)
    (hfit : fits a 32 = true) : EndsAsListed i s (loadChecked rd a s) := by
  have hn : NoResult i.footprint (s.setQ rd .bot) := by
    rw [hi]
    constructor <;> simp [Instr.footprint]
  refine legal_endsAsListed hfit <| withBytes_endsAsListed (hi ▸ .head _) fun bs => ?_
  cases checked bs with
  | none => exact .fail (hi ▸ .head _) rfl hn
  | some v => exact .ok rfl

theorem execPdecomp_endsAsListed (rd rs : RegIdx) (odd : Bool) :
    EndsAsListed (.pdecomp rd rs odd) s (execPdecomp rd rs odd s) :=
  withF_endsAsListed (.head _) fun x => require_endsAsListed (.head _) <| by
    cases decompress x.val odd with
    | none => exact .fail (.head _) rfl (by constructor <;> simp [Instr.footprint])
    | some p => exact .ok rfl

theorem execPload_endsAsListed {rd : RegIdx} (hfit : fits a 64 = true) :
    EndsAsListed (.pload rd a) s (execPload rd a s) :=
  legal_endsAsListed hfit <| withBytes_endsAsListed (.head _) fun bs => by
    cases rawPoint bs with
    | none => exact .fail (.head _) rfl (by constructor <;> simp [Instr.footprint])
    | some p => exact .ok rfl

theorem execPaff_endsAsListed {rdx rdy rs : RegIdx} (hne : rdx ≠ rdy) :
    EndsAsListed (.paff rdx rdy rs) s (execPaff rdx rdy rs s) :=
  legal_endsAsListed (decide_eq_true hne) <| withP_endsAsListed (.head _) fun p => by
    cases p with
    | inf =>
      have hboth := getF_setF_pair s hne .bot .bot
      exact .fail (.head _) rfl (by constructor <;> simp [Instr.footprint, hboth])
    | aff x y => exact .ok rfl

theorem signWith_endsAsListed (norm : Nat → Nat) (hi : i.footprint = (Instr.sign a b c).footprint)
    (hfit : (fits a 32 && fits b 64 && fits c 64) = true) :
    EndsAsListed i s (signWith norm a b c s) := by
  have hz : (a.toNat, 32) ∈ i.footprint.reads := by rw [hi]; exact .head _
  have hdk : (b.toNat, 64) ∈ i.footprint.reads := by rw [hi]; exact .tail _ (.head _)
  have hn : NoResult i.footprint (s.poison c.toNat 64) := by
    rw [hi]
    exact noResult_poison s rfl rfl rfl rfl
  refine legal_endsAsListed hfit <| withBytes_endsAsListed hz fun zb =>
    withBytes_part_endsAsListed hdk le_rfl (by omega) fun db =>
    withBytes_part_endsAsListed hdk (by omega) le_rfl fun kb => ?_
  split
  · dsimp only
    split_ifs
    · exact .failRegion (hi ▸ .tail _ (.head _)) hn
    · exact .ok rfl
  · exact .failRegion (hi ▸ .head _) hn

theorem verifyWith_endsAsListed {check : List Byte → List Byte → List Byte → ErrCode}
    (hr : i.footprint.reads = [(a.toNat, 32), (b.toNat, 64), (c.toNat, 64)])
    (hcheck : ∀ zb pk sig, check zb pk sig = .none ∨ check zb pk sig ∈ i.footprint.fails)
    (hn : NoResult i.footprint s) (hfit : (fits a 32 && fits b 64 && fits c 64) = true) :
    EndsAsListed i s (verifyWith check a b c s) :=
  legal_endsAsListed hfit <| withBytes_endsAsListed (by simp [hr]) fun _ =>
    withBytes_endsAsListed (by simp [hr]) fun _ => withBytes_endsAsListed (by simp [hr]) fun _ =>
      .verdict (hcheck _ _ _) hn

theorem execSignorm_endsAsListed (hfit : (fits a 64 && fits b 64) = true) :
    EndsAsListed (.signorm a b) s (execSignorm a b s) :=
  legal_endsAsListed hfit <| withBytes_endsAsListed (.head _) fun sig => by
    cases checked (sig.drop 32) with
    | none => exact .failRegion (.head _) (noResult_poison s rfl rfl rfl rfl)
    | some v => exact .ok rfl

theorem execPku2r_endsAsListed (hfit : (fits a 65 && fits b 64) = true) :
    EndsAsListed (.pku2r a b) s (execPku2r a b s) :=
  legal_endsAsListed hfit <| withBytes_endsAsListed (.head _) fun u => by
    split_ifs
    · exact .failRegion (.head _) (noResult_poison s rfl rfl rfl rfl)
    · exact .ok rfl

theorem execPkc2r_endsAsListed (hfit : (fits a 33 && fits b 64) = true) :
    EndsAsListed (.pkc2r a b) s (execPkc2r a b s) :=
  legal_endsAsListed hfit <| withBytes_endsAsListed (.head _) fun cmp => by
    cases hc : decompressBytes cmp with
    | error e => exact .failRegion (decompressBytes_error hc) (noResult_poison s rfl rfl rfl rfl)
    | ok raw => exact .ok rfl

end commands

/-- Every legal command, in every state. Only its own rule's endings occur (R312, R317). -/
theorem exec_endsAsListed {i : Instr} (hwf : i.WellFormed) (s : State) :
    EndsAsListed i s (exec i s) := by
  cases i with
  | floads => exact execFloads_endsAsListed (rangeDefect_eq_none.1 hwf)
  | floadr | qloadr | pkr2u | pkr2c =>
    exact legal_endsAsListed (rangeDefect_eq_none.1 hwf) <|
      withBytes_endsAsListed (.head _) fun _ => .ok rfl
  | fstore =>
    exact legal_endsAsListed (rangeDefect_eq_none.1 hwf) <|
      withF_endsAsListed (.head _) fun _ => require_endsAsListed (.head _) (.ok rfl)
  | fadd | fsub | fmul | feq | feqv =>
    exact withF_endsAsListed (.head _) fun _ => withF_endsAsListed (.tail _ (.head _)) fun _ =>
      require_endsAsListed (.head _) (.ok rfl)
  | fsqr | fnegc | fmuls | fsqrt | fiszero =>
    exact withF_endsAsListed (.head _) fun _ => require_endsAsListed (.head _) (.ok rfl)
  | fnorm | fnormw => exact withF_endsAsListed (.head _) fun _ => .ok rfl
  | qloadc | qloadv => exact loadChecked_endsAsListed rfl (rangeDefect_eq_none.1 hwf)
  | qstore =>
    exact legal_endsAsListed (rangeDefect_eq_none.1 hwf) <|
      withQ_endsAsListed (.head _) fun _ => .ok rfl
  | qadd | qmul =>
    exact withQ_endsAsListed (.head _) fun _ => withQ_endsAsListed (.tail _ (.head _)) fun _ =>
      .ok rfl
  | qnegc | qiszero | qislehalf | pmulg => exact withQ_endsAsListed (.head _) fun _ => .ok rfl
  | qinv =>
    exact withQ_endsAsListed (.head _) fun _ => require_endsAsListed (.head _) (.ok rfl)
  | pdbl | pneg | pisinf => exact withP_endsAsListed (.head _) fun _ => .ok rfl
  | padd | peq =>
    exact withP_endsAsListed (.head _) fun _ => withP_endsAsListed (.tail _ (.head _)) fun _ =>
      .ok rfl
  | pdecomp rd rs odd => exact execPdecomp_endsAsListed rd rs odd
  | pload => exact execPload_endsAsListed (rangeDefect_eq_none.1 hwf)
  | paff rdx rdy rs =>
    refine execPaff_endsAsListed ?_
    rintro rfl
    simp [Instr.WellFormed, Instr.defect] at hwf
  | pmul =>
    exact withQ_endsAsListed (.head _) fun _ => withP_endsAsListed (.head _) fun _ => .ok rfl
  | pmul2v =>
    exact withQ_endsAsListed (.head _) fun _ => withP_endsAsListed (.head _) fun _ =>
      withQ_endsAsListed (.tail _ (.head _)) fun _ =>
      withP_endsAsListed (.tail _ (.head _)) fun _ => .ok rfl
  | pmulg2v =>
    exact withQ_endsAsListed (.head _) fun _ => withQ_endsAsListed (.tail _ (.head _)) fun _ =>
      withP_endsAsListed (.head _) fun _ => .ok rfl
  | sign => exact signWith_endsAsListed id rfl (rangeDefect_eq_none.1 hwf)
  | signls => exact signWith_endsAsListed lowS rfl (rangeDefect_eq_none.1 hwf)
  | verify =>
    exact verifyWith_endsAsListed rfl verifyBytes_cases
      (by constructor <;> simp [Instr.footprint]) (rangeDefect_eq_none.1 hwf)
  | verifyls =>
    exact verifyWith_endsAsListed rfl verifyLowS_cases
      (by constructor <;> simp [Instr.footprint]) (rangeDefect_eq_none.1 hwf)
  | signorm => exact execSignorm_endsAsListed (rangeDefect_eq_none.1 hwf)
  | pku2r => exact execPku2r_endsAsListed (rangeDefect_eq_none.1 hwf)
  | pkc2r => exact execPkc2r_endsAsListed (rangeDefect_eq_none.1 hwf)

/-- A command that completes with OK = 0 is illegal, or failed as listed. -/
theorem exec_failed {i : Instr} {s t : State} (h : exec i s = .next t) (hok : t.ok = false) :
    (¬ i.WellFormed ∧ t = s.illegal) ∨
      (i.WellFormed ∧ t.err ∈ i.footprint.fails ∧ t.t = s.t ∧ NoResult i.footprint t) := by
  by_cases hwf : i.WellFormed
  · have hends := exec_endsAsListed hwf s
    rw [h] at hends
    cases hends with
    | ok ht => simp [ht] at hok
    | fail he hflag hn => exact .inr ⟨hwf, he, hflag, ⟨hn.field, hn.scalar, hn.point, hn.region⟩⟩
  · rw [exec_illFormed s hwf] at h
    cases h
    exact .inl ⟨hwf, rfl⟩

end Sys2Proof.Machine

open Sys2Proof.Machine

/-- Settles O48: an illegal command completes, and a legal one whose source holds ⊥ faults on that
before its own precondition. -/
theorem faultsOnlyWhereNamed : Obligations.FaultsOnlyWhereNamed := by
  unfold Obligations.FaultsOnlyWhereNamed
  intro i s f h
  by_cases hwf : i.WellFormed
  · have hends := exec_endsAsListed hwf s
    rw [h] at hends
    refine ⟨hwf, ?_⟩
    cases hends with
    | noValue hbot => exact .inl ⟨rfl, hbot⟩
    | precondition hf =>
      have hne : f ≠ .readNoValue := ne_of_mem_of_not_mem hf (readNoValue_notMem_faults i)
      refine .inr ⟨hne, hf, fun hbot => hne ?_⟩
      simpa [h] using exec_faultsIf hwf s hbot
  · rw [exec_illFormed s hwf] at h
    cases h

/-- Settles O49: the codes of the endings. -/
theorem failuresOnlyAsListed : Obligations.FailuresOnlyAsListed := by
  unfold Obligations.FailuresOnlyAsListed
  intro i s t h hok
  obtain ⟨hill, rfl⟩ | ⟨hwf, he, -, -⟩ := exec_failed h hok
  · exact .inl ⟨hill, rfl⟩
  · exact .inr ⟨hwf, he⟩

/-- Settles O50: a listed failure leaves no result and is never IllegalCommand, and an illegal
command is a report alone. -/
theorem failureLeavesNoValue : Obligations.FailureLeavesNoValue := by
  unfold Obligations.FailureLeavesNoValue
  intro i s t h hok
  obtain ⟨-, rfl⟩ | ⟨-, he, hflag, hn⟩ := exec_failed h hok
  · exact ⟨rfl, fun hne => absurd rfl hne, fun _ => ⟨rfl, rfl, rfl, rfl⟩⟩
  · refine ⟨hflag, fun _ => ⟨hn.field, hn.scalar, hn.point, hn.region⟩, fun hill => ?_⟩
    exact absurd (hill ▸ he) (illegalCommand_notMem_fails i)
end

section
/-! PROOFS. The magnitude budget is static: what a Field command on registers does to the tags, and
whether it faults, is decided by the tags it meets and by the budget (R36, R347). -/

namespace Sys2Proof.Machine

/-- Two states that no budget check tells apart: one budget, and the same tags in every field
register. -/
structure SameBudget (s s' : State) : Prop where
  limit : s.magLimit = s'.magLimit
  mul : s.magMul = s'.magMul
  tags : ∀ r, SameTags (s.getF r) (s'.getF r)

/-- Two outcomes that no budget check tells apart: the same fault, or completions in such states. -/
inductive BudgetAlike : Result → Result → Prop where
  | fault (f : Fault) : BudgetAlike (.fault f) (.fault f)
  | next {t t' : State} : SameBudget t t' → BudgetAlike (.next t) (.next t')

/-- Contents with the same tags are both ⊥, or values that share magnitude and normalisation. -/
theorem SameTags.bot_or_val : ∀ {c c' : Content FieldReg}, SameTags c c' →
    (c = .bot ∧ c' = .bot) ∨ ∃ v v' m n, c = .val ⟨v, m, n⟩ ∧ c' = .val ⟨v', m, n⟩
  | .bot, .bot, _ => .inl ⟨rfl, rfl⟩
  | .val ⟨v, m, n⟩, .val ⟨v', _, _⟩, ⟨rfl, rfl⟩ => .inr ⟨v, v', m, n, rfl, rfl⟩

theorem BudgetAlike.next_left {t : State} {x : Result} (h : BudgetAlike (.next t) x) :
    ∃ t', x = .next t' ∧ SameBudget t t' := by
  cases h with
  | next ht => exact ⟨_, rfl, ht⟩

theorem BudgetAlike.fault_left {f : Fault} {x : Result} (h : BudgetAlike (.fault f) x) :
    x = .fault f := by
  cases h with
  | fault => rfl

section forms

variable {s s' : State} (hs : SameBudget s s')
include hs

theorem SameBudget.setF (rd : RegIdx) {c c' : Content FieldReg} (h : SameTags c c') :
    SameBudget (s.setF rd c) (s'.setF rd c') where
  limit := hs.limit
  mul := hs.mul
  tags r := by
    rw [State.getF_setF, State.getF_setF]
    split
    · exact h
    · exact hs.tags r

/-- A result of one magnitude and normalisation, whatever its value is. -/
theorem BudgetAlike.result (rd : RegIdx) (v v' m : Nat) (n : Norm) :
    BudgetAlike (.next (s.setF rd (.val ⟨v, m, n⟩)).finishOk)
      (.next (s'.setF rd (.val ⟨v', m, n⟩)).finishOk) :=
  have h := hs.setF rd (c := .val ⟨v, m, n⟩) (c' := .val ⟨v', m, n⟩) ⟨rfl, rfl⟩
  .next ⟨h.limit, h.mul, h.tags⟩

theorem BudgetAlike.answer (b b' : Bool) :
    BudgetAlike (.next (s.answer b)) (.next (s'.answer b')) :=
  .next ⟨hs.limit, hs.mul, hs.tags⟩

/-- A source is ⊥ in both states, or gives both continuations the same tags. -/
theorem withF_budgetAlike (r : RegIdx) {k k' : FieldReg → Result}
    (h : ∀ v v' m n, BudgetAlike (k ⟨v, m, n⟩) (k' ⟨v', m, n⟩)) :
    BudgetAlike (withF s r k) (withF s' r k') := by
  unfold withF
  obtain ⟨hb, hb'⟩ | ⟨v, v', m, n, hv, hv'⟩ := (hs.tags r).bot_or_val
  · rw [hb, hb']
    exact .fault _
  · rw [hv, hv']
    exact h v v' m n

end forms

theorem require_budgetAlike {c c' : Prop} [Decidable c] [Decidable c'] {f : Fault} {x x' : Result}
    (hc : c ↔ c') (h : BudgetAlike x x') : BudgetAlike (require c f x) (require c' f x') := by
  by_cases hb : c
  · rwa [require_true hb, require_true (hc.1 hb)]
  · rw [require_false hb, require_false (mt hc.2 hb)]
    exact .fault f

section commands

variable {s s' : State} (hs : SameBudget s s')
include hs

theorem fieldEqual_budgetAlike (rs1 rs2 : RegIdx) :
    BudgetAlike (fieldEqual rs1 rs2 s) (fieldEqual rs1 rs2 s') :=
  withF_budgetAlike hs rs1 fun _ _ _ _ => withF_budgetAlike hs rs2 fun _ _ _ _ =>
    require_budgetAlike Iff.rfl (.answer hs _ _)

/-- Every Field command on registers tests tags against the budget, and gives its result a magnitude
and a normalisation made of the tags of its sources. -/
theorem exec_budgetAlike {i : Instr} (hi : i.ofFieldRegisters = true) :
    BudgetAlike (exec i s) (exec i s') := by
  cases i with
  | fadd rd rs1 rs2 | fsub rd rs1 rs2 | fmul rd rs1 rs2 =>
    refine withF_budgetAlike hs rs1 fun _ _ _ _ => withF_budgetAlike hs rs2 fun _ _ _ _ =>
      require_budgetAlike ?_ (.result hs rd _ _ _ _)
    simp [hs.limit, hs.mul]
  | fsqr rd rs | fnegc rd rs _ | fmuls rd rs _ | fsqrt rd rs =>
    refine withF_budgetAlike hs rs fun _ _ _ _ =>
      require_budgetAlike ?_ (.result hs rd _ _ _ _)
    simp [hs.limit, hs.mul]
  | fnorm rd rs | fnormw rd rs =>
    exact withF_budgetAlike hs rs fun _ _ _ _ => .result hs rd _ _ _ _
  | fiszero rs =>
    exact withF_budgetAlike hs rs fun _ _ _ _ => require_budgetAlike Iff.rfl (.answer hs _ _)
  | feq rs1 rs2 | feqv rs1 rs2 => exact fieldEqual_budgetAlike hs rs1 rs2
  | _ => cases hi

end commands

/-- A run keeps two states alike command by command, up to the end or the first fault. -/
theorem execAll_budgetAlike (is : List Instr) (his : ∀ i ∈ is, i.ofFieldRegisters = true)
    {s s' : State} (hs : SameBudget s s') : BudgetAlike (execAll is s) (execAll is s') := by
  induction is generalizing s s' with
  | nil => exact .next hs
  | cons i is ih =>
    obtain ⟨hi, his⟩ := List.forall_mem_cons.1 his
    have hstep := exec_budgetAlike hs hi
    unfold execAll
    generalize exec i s = x, exec i s' = x' at hstep ⊢
    cases hstep with
    | fault f => exact .fault f
    | next ht => exact ih his ht

end Sys2Proof.Machine

open Sys2Proof Sys2Proof.Machine

/-- Settles O14: each command keeps the tags and the budget equal or faults alike, so a run does. -/
theorem fieldBudgetIsStatic : Obligations.FieldBudgetIsStatic := by
  unfold Obligations.FieldBudgetIsStatic
  intro is s s' his hlimit hmul htags
  have hrun := execAll_budgetAlike is his ⟨hlimit, hmul, htags⟩
  refine ⟨fun t h => ?_, fun f h => ?_⟩
  · rw [h] at hrun
    obtain ⟨t', h', ht⟩ := hrun.next_left
    exact ⟨t', h', ht.tags⟩
  · rw [h] at hrun
    exact hrun.fault_left
end
